-- ==== Sys2Proof/Word.lean ====
section
/-! DEFINITION. The word types of QR-CORE: codewords (R21), bus words (R21, R150), one row of a plane (R95). -/

namespace Sys2Proof

/-- A codeword, or an element of GF(256): 8 bits (R21, R250). -/
abbrev Byte := BitVec 8

/-- A word of the register bus, a command word, a penalty value: 32 bits (R21, R200). -/
abbrev Word := BitVec 32

/-- One row of a plane: bit `x` is the cell at column `x`, so the two 32-bit words of MODROW and FNROW are its
low and its high half (R95, R158). -/
abbrev Row := BitVec 64

/-- A byte offset in the 4 KiB register space (R150). -/
abbrev Offset := BitVec 12

end Sys2Proof
end

