-- ==== Sys2Proof/Machine/Memory.lean ====
section
/-! DEFINITION. A RAM as plain data: the entries that hold a value, by rising index. An entry that is not listed holds no
value (R110), so no listed entry can equal what an unlisted one reads as. -/

namespace Sys2Proof.Machine

/-- A RAM of 8-bit entries: DATA (R91) or CW (R92). A cell is an entry's index and its value. -/
abbrev Memory := List Host.Cell

/-- The value entry `a` holds, if it holds one. -/
def Memory.read? : Memory → Nat → Option Byte
  | [], _ => none
  | (k, v) :: m, a => if k = a then some v else Memory.read? m a

/-- Write `v` to entry `a`. -/
def Memory.write : Memory → Nat → Byte → Memory
  | [], a, v => [(a, v)]
  | (k, w) :: m, a, v =>
    if a < k then (a, v) :: (k, w) :: m
    else if a = k then (a, v) :: m
    else (k, w) :: Memory.write m a v

/-- Write the values in turn to the entries from `a` up. -/
def Memory.writeFrom : Memory → Nat → List Byte → Memory
  | m, _, [] => m
  | m, a, v :: vs => Memory.writeFrom (Memory.write m a v) (a + 1) vs

/-- The canonical form: the indices rise strictly. -/
def Memory.wf : Memory → Bool
  | [] => true
  | [_] => true
  | (a, _) :: (b, w) :: m => a < b && Memory.wf ((b, w) :: m)

end Sys2Proof.Machine
end

