-- ==== Sys2Proof/Config.lean ====
section
/-! DEFINITION. What is fixed when the block is elaborated (R10), and the free values: the entries that hold no value
after reset (U1) and the reads the spec leaves open (U2, U3). -/

namespace Sys2Proof

/-- The error-correction level (R13). -/
inductive Ecl where
  | l | m | q | h
  deriving DecidableEq, Repr

/-- The configuration `CFG = (VERSION, ECL, NUM_BLOCKS, ECC_LEN, N1, N2, N3, N4)` of R10, fixed at elaboration.
Which values make a block at all is `Cfg.Admitted` (R19). -/
structure Cfg where
  version   : Nat
  ecl       : Ecl
  numBlocks : Nat
  eccLen    : Nat
  n1        : Nat
  n2        : Nat
  n3        : Nat
  n4        : Nat
  deriving DecidableEq, Repr

/-! ### Free values

None of these has a body: a statement about one holds whatever it is. `resets` counts the resets so far, so that each
reset leaves arbitrary values of its own, which then stay until the entry is written (U1). -/

/-- What `DATA[i]` holds before anything wrote it since the `resets`-th reset (R91, R110, U1). -/
opaque Config.unwrittenData (resets i : Nat) : Byte

/-- What `CW[i]`, for `i < RAW_CODEWORDS`, holds before ECC wrote it since that reset (R92, R110, U1). -/
opaque Config.unwrittenCw (resets i : Nat) : Byte

/-- What `MOD[y][x]` holds after that reset until it is written (R95, R110, U1). -/
opaque Config.unwrittenMod (resets y x : Nat) : Bool

/-- What `FN[y][x]` holds after that reset until INIT (R96, R110, U1). -/
opaque Config.unwrittenFn (resets y x : Nat) : Bool

/-- The `n`-th value a bus read draws where the spec says that the read returns an unspecified value:
R160(e) (U2) and R700 (U3). -/
opaque Config.busDraw (n : Nat) : Word

end Sys2Proof
end

