-- ==== Sys2Proof/Machine/Params.lean ====
section
/-! DEFINITION. The values derived from the configuration (R12, R15, R17, R311, R316, R440), the elaboration check (R19),
and the reference configurations (R22). -/

namespace Sys2Proof

/-- ECLBITS, the 2-bit code of the error-correction level (R15). -/
def Ecl.bits : Ecl → BitVec 2
  | .l => 0b01
  | .m => 0b00
  | .q => 0b11
  | .h => 0b10

/-- SIZE (R12). -/
def Cfg.size (c : Cfg) : Nat := 4 * c.version + 17

/-- ALIGN_POS, the coordinates of the alignment-pattern centres (R311). -/
def Cfg.alignPos (c : Cfg) : List Nat := if c.version ≤ 1 then [] else [6, c.size - 7]

/-- RAW_DATA_MODULES: the number of data cells, by the count R316 gives. -/
def Cfg.rawDataModules (c : Cfg) : Nat :=
  if c.version ≤ 1 then c.size * c.size - (192 + 10 + 31)
  else c.size * c.size - 3 * 64 - 2 * (c.size - 16) - 31 - 25

/-- RAW_CODEWORDS (R17). -/
def Cfg.rawCodewords (c : Cfg) : Nat := c.rawDataModules / 8

/-- REMAINDER_BITS (R17). -/
def Cfg.remainderBits (c : Cfg) : Nat := c.rawDataModules % 8

/-- DATA_CODEWORDS (R17). -/
def Cfg.dataCodewords (c : Cfg) : Nat := c.rawCodewords - c.numBlocks * c.eccLen

/-- NUM_SHORT_BLOCKS (R17). -/
def Cfg.numShortBlocks (c : Cfg) : Nat := c.numBlocks - c.rawCodewords % c.numBlocks

/-- SHORT_BLOCK_LEN (R17). -/
def Cfg.shortBlockLen (c : Cfg) : Nat := c.rawCodewords / c.numBlocks

/-- SHORT_DATA_LEN (R17). -/
def Cfg.shortDataLen (c : Cfg) : Nat := c.shortBlockLen - c.eccLen

/-- PENALTY_BOUND (R440). -/
def Cfg.penaltyBound (c : Cfg) : Nat :=
  2 * c.size ^ 2 * (1 + c.n1) + (c.size - 1) ^ 2 * c.n2 + 4 * c.size * (c.size + 2) * c.n3 + 9 * c.n4

/-- The elaboration check (R19 (a) to (e)), with the range R16 gives each weight (U7 names R16 beside R19). -/
abbrev Cfg.Admitted (c : Cfg) : Prop :=
  (1 ≤ c.version ∧ c.version ≤ 6) ∧ (1 ≤ c.numBlocks ∧ c.numBlocks ≤ 8) ∧ (1 ≤ c.eccLen ∧ c.eccLen ≤ 30) ∧
    1 ≤ c.shortDataLen ∧ c.dataCodewords ≤ 255 ∧ (c.n1 ≤ 255 ∧ c.n2 ≤ 255 ∧ c.n3 ≤ 255 ∧ c.n4 ≤ 255)

/-- REF, the reference configuration of the spec's vectors (R22). -/
def Cfg.ref : Cfg :=
  { version := 1, ecl := .m, numBlocks := 1, eccLen := 10, n1 := 3, n2 := 3, n3 := 40, n4 := 10 }

/-- REF5Q, the second reference configuration, with short and long blocks (R22). -/
def Cfg.ref5Q : Cfg :=
  { version := 5, ecl := .q, numBlocks := 4, eccLen := 18, n1 := 3, n2 := 3, n3 := 40, n4 := 10 }

end Sys2Proof
end

