-- ==== Sys2Proof/Machine/Plane.lean ====
section
/-! DEFINITION. A plane of cells (R32, R95, R96) and the bit-field helpers. A plane has 64 rows of 64 cells, the extent of
the MODROW and FNROW windows; only the cells with both coordinates below SIZE exist. -/

namespace Sys2Proof.Machine

/-- The `w`-bit value whose bit `b`, for `b < n`, is `f b`, and whose other bits are 0. -/
def bitsOf (w : Nat) : Nat → (Nat → Bool) → BitVec w
  | 0, _ => 0
  | n + 1, f => if f n then bitsOf w n f ||| (1#w <<< n) else bitsOf w n f

/-- `v` with bit `i` set to `b`. -/
def putBit {w : Nat} (v : BitVec w) (i : Nat) (b : Bool) : BitVec w :=
  if b then v ||| (1#w <<< i) else v &&& ~~~(1#w <<< i)

/-- A plane: row `y` is the `y`-th word. -/
abbrev Plane := Vector Row 64

/-- Row `y`. -/
def Plane.row (p : Plane) (y : Nat) : Row := p[y]?.getD 0

/-- The cell at column `x` of row `y`. -/
def Plane.get (p : Plane) (y x : Nat) : Bool := (p.row y).getLsbD x

/-- The plane with the cell at column `x` of row `y` set to `b`. -/
def Plane.set (p : Plane) (y x : Nat) (b : Bool) : Plane := p.setIfInBounds y (putBit (p.row y) x b)

/-- The plane whose row `y` is `f y`. -/
@[irreducible] def Plane.ofRows (f : Nat → Row) : Plane := ⟨⟨(List.range 64).map f⟩, by simp⟩

/-- The plane whose cell at `(x, y)`, for `x` and `y` below `size`, is `f y x`, and whose other cells are light. -/
def Plane.ofCells (size : Nat) (f : Nat → Nat → Bool) : Plane :=
  Plane.ofRows fun y => if y < size then bitsOf 64 size (f y) else 0

/-- The plane with every cell light (R543). -/
def Plane.light : Plane := Plane.ofRows fun _ => 0

end Sys2Proof.Machine
end

