-- ==== Sys2Proof/Machine/State.lean ====
section
/-! DEFINITION. The state of QR-CORE: every register, flag, buffer and plane of 10_state.md, the pins of R151, and the
schedule that says which agent moves next (R50). The state after reset is R110's. -/

namespace Sys2Proof.Machine

/-- The sequencer state PHASE (R52, R62). Value 6 is never produced (U5), so it is not represented. -/
inductive Phase where
  | idle | init | func | eccd | placed | done | fault
  deriving DecidableEq, Repr

/-- The errors of R601. No other code is ever recorded (U6). -/
inductive ErrCode where
  | illegal | sequence | maskRange | dataLength | interleaveCount | bitCount | penaltyBound | busy
  deriving DecidableEq, Repr

/-- What happens next at the block's ports or inside it, one atomic event each (R50, R161). -/
inductive Event where
  /-- The Host reads the word at this offset (R33, R154). -/
  | read (a : Offset)
  /-- The Host writes this word at this offset (R33, R155). -/
  | write (a : Offset) (v : Word)
  /-- The latency of the command in flight has passed: the Engine takes its step here, if it has one (R50, R730). -/
  | engineTurn
  /-- The Host waits (R232): it reads STATUS again and again until bit 0 reads 0. While a command is in flight, `polls` of these
  reads come before its latency has passed (R730). -/
  | waitIdle (polls : Nat)
  /-- The reset input is driven to this level (R700). -/
  | rstN (level : Bool)
  deriving DecidableEq, Repr

structure State where
  /-- The elaborated configuration (R10), read through CFG0 to CFG2 (R57 to R59). -/
  cfg        : Cfg
  /-- CTRL.IE (R63). -/
  ie         : Bool
  /-- STATUS.BUSY (R61). -/
  busy       : Bool
  /-- STATUS.PHASE (R62). -/
  phase      : Phase
  /-- STATUS.ERR (R61). -/
  err        : Bool
  /-- STATUS.ERROVF (R61). -/
  errOvf     : Bool
  /-- STATUS.IRQ (R61, R620). -/
  irq        : Bool
  /-- STATUS.FNVALID (R61). -/
  fnValid    : Bool
  /-- STATUS.MASKVALID (R61). -/
  maskValid  : Bool
  /-- STATUS.ERRCODE (R61); `none` is code 0. -/
  errCode    : Option ErrCode
  /-- ERRINFO (R64). -/
  errInfo    : Word
  /-- PENDING, the latched command word (R100). -/
  pending    : Word
  /-- DLEN (R65). -/
  dlen       : Byte
  /-- RESULT (R66). -/
  result     : Byte
  /-- MASK (R67). -/
  mask       : BitVec 3
  /-- PENALTY (R68). -/
  penalty    : Word
  /-- PEN_RUN (R68). -/
  penRun     : Word
  /-- PEN_BLOCK (R68). -/
  penBlock   : Word
  /-- PEN_FINDER (R68). -/
  penFinder  : Word
  /-- PEN_BALANCE (R68). -/
  penBalance : Word
  /-- DARK[15:0], the dark-module count (R69). -/
  darkCount  : BitVec 16
  /-- DARK[19:16], the balance index k (R69). -/
  darkK      : BitVec 4
  /-- BEST[2:0], the best mask so far (R70). -/
  best       : BitVec 3
  /-- BEST[8], BESTVALID (R70). -/
  bestValid  : Bool
  /-- BESTPEN (R70). -/
  bestPen    : Word
  /-- FMT (R71). -/
  fmt        : BitVec 15
  /-- BITS (R72). -/
  bits       : BitVec 16
  /-- QUERY[15:0], QX (R73). -/
  qx         : BitVec 16
  /-- QUERY[31:16], QY (R73). -/
  qy         : BitVec 16
  /-- TRIALPEN[0..7] (R75). -/
  trialPen   : Vector Word 8
  /-- TRIALVALID (R75). -/
  trialValid : BitVec 8
  /-- REM[0..31] (R94). -/
  rem        : Vector Byte 32
  /-- DATA[0..255] (R91). -/
  data       : Memory
  /-- CW[0..RAW_CODEWORDS-1] (R92). -/
  cw         : Memory
  /-- MOD, the module plane (R95). -/
  modPlane   : Plane
  /-- FN, the function plane (R96). -/
  fnPlane    : Plane
  /-- The level of the input `rst_n`, active low (R151, R700). -/
  rstN       : Bool
  /-- The output `rdata`: what the last bus read answered (R151). -/
  rdata      : Word
  /-- The model's own: the events still to come, the next one first. -/
  schedule   : List Event
  /-- The model's own: how many unspecified bus reads have drawn a value (U2, U3). -/
  draws      : Nat
  /-- The model's own: how many resets there have been; each leaves arbitrary values of its own (U1). -/
  resets     : Nat
  deriving DecidableEq, Repr

/-- Why the machine stops with a fault. Nothing raises one: the block answers every bus access (R151), and every command
completes (R540, R731); its own errors and Faults are recorded in STATUS and ERRINFO and the machine goes on (R610, R611). -/
inductive Fault where
  deriving DecidableEq, Repr

/-- Why the machine has no next state. -/
inductive Refusal where
  /-- A command without a meaning. No arm of `exec` answers it: every command has its meaning. Safe. -/
  | notModelled (mnemonic : String)
  /-- `step` answers it in a state whose configuration fails the elaboration check: no block is built and the model has no
  machine for it (R19, U7). Safe. -/
  | cfgNotAdmitted
  deriving DecidableEq, Repr

/-- The state R110 and R701 give after the `resets`-th reset of a block elaborated with `c`. Registers and flags have the
listed values; DATA and CW hold nothing; every cell of MOD and FN holds an arbitrary value (U1). -/
def State.resetOf (c : Cfg) (resets : Nat) : State where
  cfg := c
  ie := false
  busy := false
  phase := .idle
  err := false
  errOvf := false
  irq := false
  fnValid := false
  maskValid := false
  errCode := none
  errInfo := 0
  pending := 0
  dlen := 0
  result := 0
  mask := 0
  penalty := 0
  penRun := 0
  penBlock := 0
  penFinder := 0
  penBalance := 0
  darkCount := 0
  darkK := 0
  best := 0
  bestValid := false
  bestPen := 0
  fmt := 0
  bits := 0
  qx := 0
  qy := 0
  trialPen := Vector.replicate 8 0
  trialValid := 0
  rem := Vector.replicate 32 0
  data := []
  cw := []
  modPlane := Plane.ofCells c.size (Config.unwrittenMod resets)
  fnPlane := Plane.ofCells c.size (Config.unwrittenFn resets)
  rstN := true
  rdata := 0
  schedule := []
  draws := 0
  resets := resets

/-- The machine right after power-on, elaborated with the reference configuration REF (R22, R110; R700: power-on is a reset). -/
def State.reset : State := State.resetOf .ref 0

end Sys2Proof.Machine
end

