-- ==== Sys2Proof/Machine/Flags.lean ====
section
/-! DEFINITION. The fields of the registers the bus sees: STATUS and its write-one-to-clear flags (R61, R62, R612),
the error codes (R601), the configuration registers (R57 to R59), DARK, BEST and QUERY (R69, R70, R73), and the `irq`
output (R621). -/

namespace Sys2Proof.Machine

/-- The encoding of PHASE (R62). -/
def Phase.code : Phase → BitVec 3
  | .idle => 0
  | .init => 1
  | .func => 2
  | .eccd => 3
  | .placed => 4
  | .done => 5
  | .fault => 7

/-- The error codes of R601. -/
def ErrCode.code : ErrCode → BitVec 4
  | .illegal => 1
  | .sequence => 2
  | .maskRange => 3
  | .dataLength => 4
  | .interleaveCount => 5
  | .bitCount => 6
  | .penaltyBound => 7
  | .busy => 8

/-- The field ERRCODE: 0 means no error (R601). -/
def errCodeField : Option ErrCode → BitVec 4
  | none => 0
  | some c => c.code

/-- One flag as a one-bit field. -/
def flag (b : Bool) : BitVec 1 := BitVec.ofBool b

/-- STATUS as a read returns it (R61, R62): [0] BUSY, [3:1] PHASE, [4] ERR, [5] ERROVF, [6] IRQ, [7] FNVALID,
[8] MASKVALID, [15:12] ERRCODE; the others read 0. -/
def statusWord (s : State) : Word :=
  0#16 ++ errCodeField s.errCode ++ 0#3 ++ flag s.maskValid ++ flag s.fnValid ++ flag s.irq ++ flag s.errOvf ++ flag s.err ++
    s.phase.code ++ flag s.busy

/-- The effect of a host write of `v` to STATUS: a 1 in bit 4 clears ERR and ERRCODE, in bit 5 ERROVF, in bit 6 IRQ
(R61, R612). -/
def clearFlags (v : Word) (s : State) : State :=
  { s with
    err := s.err && !v.getLsbD 4
    errCode := if v.getLsbD 4 then none else s.errCode
    errOvf := s.errOvf && !v.getLsbD 5
    irq := s.irq && !v.getLsbD 6 }

/-- The level-sensitive interrupt output (R621). -/
def irqPin (s : State) : Bool := s.irq && s.ie

/-- ID (R56). -/
def idWord : Word := 0x51520001

/-- CFG0 (R57): [3:0] VERSION, [5:4] ECLBITS, [15:8] SIZE, [23:16] NUM_BLOCKS, [31:24] ECC_LEN. -/
def cfg0Word (c : Cfg) : Word :=
  BitVec.ofNat 8 c.eccLen ++ BitVec.ofNat 8 c.numBlocks ++ BitVec.ofNat 8 c.size ++ 0#2 ++ c.ecl.bits ++ BitVec.ofNat 4 c.version

/-- CFG1 (R58): [7:0] RAW_CODEWORDS, [15:8] DATA_CODEWORDS, [23:16] NUM_SHORT_BLOCKS, [31:24] SHORT_BLOCK_LEN. -/
def cfg1Word (c : Cfg) : Word :=
  BitVec.ofNat 8 c.shortBlockLen ++ BitVec.ofNat 8 c.numShortBlocks ++ BitVec.ofNat 8 c.dataCodewords ++
    BitVec.ofNat 8 c.rawCodewords

/-- CFG2 (R59): [7:0] N1, [15:8] N2, [23:16] N3, [31:24] N4. -/
def cfg2Word (c : Cfg) : Word :=
  BitVec.ofNat 8 c.n4 ++ BitVec.ofNat 8 c.n3 ++ BitVec.ofNat 8 c.n2 ++ BitVec.ofNat 8 c.n1

/-- DARK (R69): [15:0] the dark-module count, [19:16] the balance index k. -/
def darkWord (s : State) : Word := 0#12 ++ s.darkK ++ s.darkCount

/-- BEST (R70): [2:0] the mask, [8] BESTVALID. -/
def bestWord (s : State) : Word := 0#23 ++ flag s.bestValid ++ 0#5 ++ s.best

/-- QUERY (R73): [15:0] QX, [31:16] QY. -/
def queryWord (s : State) : Word := s.qy ++ s.qx

end Sys2Proof.Machine
end

