-- ==== Sys2Proof/Machine/Operands.lean ====
section
/-! DEFINITION. The operands a command computes on (R51): the field M of the command word (R210), the buffers DATA and CW
(R91, R92), and the cells of the planes (R95, R96). The fields A and B of GFMUL are used as they stand (R211). -/

namespace Sys2Proof.Machine

/-- What the field M names (R210). -/
inductive MaskOperand where
  | mask (m : BitVec 3)
  | auto
  | outOfRange
  deriving DecidableEq, Repr

/-- Read the field M (R210): 0 to 7 name a mask, 15 asks for auto-selection, 8 to 14 are out of range. -/
def maskOperand (m : BitVec 4) : MaskOperand :=
  if m.toNat ≤ 7 then .mask (m.setWidth 3) else if m.toNat = 15 then .auto else .outOfRange

/-- `DATA[i]` (R91). An entry nothing has written since reset holds an arbitrary value (R110, U1). -/
def dataAt (s : State) (i : Nat) : Byte := (s.data.read? i).getD (Config.unwrittenData s.resets i)

/-- `CW[i]` (R92): entries from RAW_CODEWORDS up are never written and always read 0. -/
def cwAt (s : State) (i : Nat) : Byte :=
  if i < s.cfg.rawCodewords then (s.cw.read? i).getD (Config.unwrittenCw s.resets i) else 0

/-- `DATA[start .. start + len - 1]`. -/
def dataSlice (s : State) (start len : Nat) : List Byte := (List.range len).map fun k => dataAt s (start + k)

/-- `MOD[y][x]`, and light outside the matrix (R74, R95). -/
def modAt (s : State) (y x : Nat) : Bool := decide (y < s.cfg.size ∧ x < s.cfg.size) && s.modPlane.get y x

/-- `FN[y][x]`, and 0 outside the matrix (R96). -/
def fnAt (s : State) (y x : Nat) : Bool := decide (y < s.cfg.size ∧ x < s.cfg.size) && s.fnPlane.get y x

end Sys2Proof.Machine
end

