-- ==== Sys2Proof/Machine/Ops.lean ====
section
/-! DEFINITION. The operations the commands share: recording an error, ending a command by Reject, Fault or completion
(R34, R610, R611, R620), and drawing function modules (R301). -/

namespace Sys2Proof.Machine

/-- `complete()`, the end of every command (R620). -/
def complete (s : State) : State := { s with irq := true, busy := false }

/-- Record an error (R610, R613): the first since ERR was last cleared is kept, a later one only sets ERROVF. -/
def recordError (c : ErrCode) (info : Word) (s : State) : State :=
  if s.err then { s with errOvf := true } else { s with err := true, errCode := some c, errInfo := info }

/-- `raise Reject(c)` (R34, R610): nothing but the error record changes, and the command completes. -/
def raiseReject (c : ErrCode) (s : State) : State := complete (recordError c s.pending s)

/-- `raise Fault(c)` (R34, R611): PHASE becomes FAULT, then the same recording and completion. `s` holds every write the
command has made so far. -/
def raiseFault (c : ErrCode) (s : State) : State := complete (recordError c s.pending { s with phase := .fault })

/-- How the body of a command ends: with its last write made, by a Reject, or by a Fault that keeps the writes made so
far (R34). -/
inductive CmdResult where
  | done (s : State)
  | reject (c : ErrCode)
  | fault (c : ErrCode) (s : State)
  deriving DecidableEq, Repr

/-- Run the next body unless this one ended the command. -/
def CmdResult.andThen (r : CmdResult) (next : State → CmdResult) : CmdResult :=
  match r with
  | .done s => next s
  | .reject c => .reject c
  | .fault c s => .fault c s

/-- End the command that started in `s` (R540). -/
def finish (s : State) (r : CmdResult) : Host.Outcome State Fault Refusal :=
  match r with
  | .done t => .next (complete t)
  | .reject c => .next (raiseReject c s)
  | .fault c t => .next (raiseFault c t)

/-- `require PHASE in ps else raise Reject(SEQUENCE)` (R541). -/
def requirePhase (ps : List Phase) (s : State) (body : CmdResult) : CmdResult :=
  if s.phase ∈ ps then body else .reject .sequence

/-- `require DLEN[7:0] == DATA_CODEWORDS else raise Reject(DATA_LENGTH)` (R270). -/
def requireDataLength (s : State) (body : CmdResult) : CmdResult :=
  if s.dlen.toNat = s.cfg.dataCodewords then body else .reject .dataLength

/-! ### Drawing -/

/-- The two planes together: what drawing works on. -/
structure Planes where
  modules   : Plane
  functions : Plane
  deriving DecidableEq, Repr

/-- One call of `setFunctionModule(x, y, dark)` (R301). -/
structure FnWrite where
  x    : Nat
  y    : Nat
  dark : Bool
  deriving DecidableEq, Repr

/-- `setFunctionModule(x, y, dark)` (R301): a later call at the same cell overwrites MOD and leaves FN = 1. -/
def setFunctionModule (p : Planes) (w : FnWrite) : Planes :=
  { modules := p.modules.set w.y w.x w.dark, functions := p.functions.set w.y w.x true }

/-- The calls in turn. -/
@[irreducible] def drawAll (ws : List FnWrite) (p : Planes) : Planes := ws.foldl setFunctionModule p

/-- The planes of a state. -/
def planesOf (s : State) : Planes := { modules := s.modPlane, functions := s.fnPlane }

/-- The state with these function modules drawn. -/
def draw (ws : List FnWrite) (s : State) : State :=
  let p := drawAll ws (planesOf s)
  { s with modPlane := p.modules, fnPlane := p.functions }

end Sys2Proof.Machine
end

