-- ==== Sys2Proof/Machine/ReedSolomon.lean ====
section
/-! DEFINITION. The RSE unit (40_reed_solomon.md): GF(256), the generator divisor, the remainder, and the commands GFMUL,
RSREM and ECC. -/

namespace Sys2Proof.Machine

/-! ### The field -/

/-- One round of the multiplication loop of R251, for bit `i` of `y`: multiply by t and reduce, then add `x`. -/
def gfMulRound (x y : Byte) (z : BitVec 9) (i : Nat) : BitVec 9 :=
  let shifted := (z <<< 1) ^^^ (if z.getLsbD 7 then 0x11D#9 else 0)
  if y.getLsbD i then shifted ^^^ x.setWidth 9 else shifted

/-- `gf_mul(x, y)`, the product in GF(256) over 0x11D, most-significant bit of `y` first (R250, R251). -/
@[irreducible] def gfMul (x y : Byte) : Byte := ([7, 6, 5, 4, 3, 2, 1, 0].foldl (gfMulRound x y) 0).setWidth 8

/-- `α^i`, for α = 0x02 (R253). -/
def gfAlphaPow : Nat → Byte
  | 0 => 0x01
  | i + 1 => gfMul (gfAlphaPow i) 0x02

/-! ### The generator divisor -/

/-- Multiply the stored coefficients by `(x - root)` (R255): entry `j` becomes `GEN[j] · root ^ GEN[j+1]`. -/
def timesRoot (g : List Byte) (root : Byte) : List Byte :=
  g.mapIdx fun j c => gfMul c root ^^^ g.getD (j + 1) 0

/-- The coefficients of the degree-`d` divisor after the first `n` roots `α^0 .. α^(n-1)` (R255). -/
def divisorAfter (d : Nat) : Nat → List Byte
  | 0 => (List.range d).map fun j => if j + 1 = d then 0x01 else 0x00
  | n + 1 => timesRoot (divisorAfter d n) (gfAlphaPow n)

/-- The stored coefficients `GEN[0..d-1]` of the generator divisor of degree `d`, highest power first (R255). -/
@[irreducible] def genDivisor (d : Nat) : List Byte := divisorAfter d d

/-- `GEN[i]`, the ROM of the elaborated block; entries from ECC_LEN up are 0 (R93). -/
def genAt (c : Cfg) (i : Nat) : Byte := (genDivisor c.eccLen).getD i 0

/-! ### The remainder -/

/-- One step of the shift-register division (R258): shift toward `R[0]` and subtract `factor · g`. -/
def remainderStep (gen : List Byte) (r : List Byte) (dk : Byte) : List Byte :=
  let factor := dk ^^^ r.headD 0
  List.zipWith (fun ri gi => ri ^^^ gfMul gi factor) (r.tail ++ [0x00]) gen

/-- `rs_remainder(D)` for the divisor `gen` (R258). -/
@[irreducible] def rsRemainderBy (gen : List Byte) (ds : List Byte) : List Byte :=
  ds.foldl (remainderStep gen) (List.replicate gen.length 0x00)

/-- `rs_remainder(D)` of a block elaborated with `c`: its divisor has degree ECC_LEN (R258). -/
def rsRemainder (c : Cfg) (ds : List Byte) : List Byte := rsRemainderBy (genDivisor c.eccLen) ds

/-! ### Blocks -/

/-- `len_j`, the number of data codewords of block `j`: the short blocks come first (R263). -/
def blockLen (c : Cfg) (j : Nat) : Nat := if j < c.numShortBlocks then c.shortDataLen else c.shortDataLen + 1

/-- `start_j` (R263). -/
def blockStart (c : Cfg) : Nat → Nat
  | 0 => 0
  | j + 1 => blockStart c j + blockLen c j

/-- The data codewords of block `j` (R263). -/
def blockData (s : State) (j : Nat) : List Byte := dataSlice s (blockStart s.cfg j) (blockLen s.cfg j)

/-- `ecc_j`, over the block's data codewords only (R264). -/
def blockEcc (s : State) (j : Nat) : List Byte := rsRemainder s.cfg (blockData s j)

/-- `B_j`: the block's data, the pad byte of a short block, its ECC (R265). -/
def paddedBlock (s : State) (j : Nat) : List Byte :=
  blockData s j ++ (if j < s.cfg.numShortBlocks then [0x00] else []) ++ blockEcc s j

/-- The padded blocks, in order (R263 to R265). -/
@[irreducible] def paddedBlocks (s : State) : List (List Byte) := (List.range s.cfg.numBlocks).map (paddedBlock s)

/-- Column `i` of the interleaver: the byte at `i` of each block in turn, but not the pad byte of a short block (R266). -/
def interleaveColumn (c : Cfg) (blocks : List (List Byte)) (i : Nat) : List Byte :=
  ((List.range c.numBlocks).filter fun j => !(i == c.shortDataLen && decide (j < c.numShortBlocks))).map
    fun j => (blocks.getD j []).getD i 0

/-- The interleaved stream, column by column (R266). -/
@[irreducible] def interleave (c : Cfg) (blocks : List (List Byte)) : List Byte :=
  (List.range (c.shortBlockLen + 1)).flatMap (interleaveColumn c blocks)

/-! ### The commands -/

/-- GFMUL (R252). -/
def gfmulBody (a b : Byte) (s : State) : State := { s with result := gfMul a b }

/-- The 32 entries of REM from a remainder: the entries from ECC_LEN up are 0 (R94, R259). -/
@[irreducible] def remEntries (r : List Byte) : Vector Byte 32 := ⟨⟨(List.range 32).map fun i => r.getD i 0x00⟩, by simp⟩

/-- RSREM: the remainder of `DATA[0..DLEN-1]` (R259). -/
def rsremBody (s : State) : State := { s with rem := remEntries (rsRemainder s.cfg (dataSlice s 0 s.dlen.toNat)) }

/-- The body of ECC after its `require` lines (R262), with the count check of R267. -/
def eccBody (s : State) : CmdResult :=
  let out := interleave s.cfg (paddedBlocks s)
  if out.length ≠ s.cfg.rawCodewords then .fault .interleaveCount s
  else .done { s with cw := Memory.writeFrom s.cw 0 out, phase := .eccd }

/-- GFMUL (R252). -/
def execGfmul (a b : Byte) (s : State) : Host.Outcome State Fault Refusal := finish s (.done (gfmulBody a b s))

/-- RSREM (R259). -/
def execRsrem (s : State) : Host.Outcome State Fault Refusal := finish s (.done (rsremBody s))

/-- ECC (R262, R270). -/
def execEcc (s : State) : Host.Outcome State Fault Refusal :=
  finish s (requirePhase [.func] s (requireDataLength s (eccBody s)))

end Sys2Proof.Machine
end

