-- ==== Sys2Proof/Machine/Bus.lean ====
section
/-! DEFINITION. The register bus (10_state.md, 20_memory.md): the register map, reads and writes, accesses while the Engine
is busy, and the reset input (R700). -/

namespace Sys2Proof.Machine

/-- The word an offset names (R55, R153). -/
inductive BusWord where
  | id | cfg0 | cfg1 | cfg2 | ctrl | status | cmd | errInfo | dlen | result | mask
  | penalty | penRun | penBlock | penFinder | penBalance | dark | best | bestPen | fmt | bits | query | qdata
  | trialPen (m : Nat)
  | trialValid
  | gen (i : Nat)
  | rem (i : Nat)
  | data (i : Nat)
  | cw (i : Nat)
  | modRow (y h : Nat)
  | fnRow (y h : Nat)
  | reserved
  deriving DecidableEq, Repr

/-- The registers at 0x000 to 0x058, by word index (R55). -/
def lowRegisters : List BusWord :=
  [.id, .cfg0, .cfg1, .cfg2, .ctrl, .status, .cmd, .errInfo, .dlen, .result, .mask, .penalty, .penRun, .penBlock, .penFinder,
    .penBalance, .dark, .best, .bestPen, .fmt, .bits, .query, .qdata]

/-- The word at offset `4 * w` (R55, R163). -/
def busWordAt (w : Nat) : BusWord :=
  if w ≤ 0x058 / 4 then lowRegisters.getD w .reserved
  else if 0x060 / 4 ≤ w ∧ w ≤ 0x07C / 4 then .trialPen (w - 0x060 / 4)
  else if w = 0x080 / 4 then .trialValid
  else if 0x100 / 4 ≤ w ∧ w ≤ 0x17C / 4 then .gen (w - 0x100 / 4)
  else if 0x180 / 4 ≤ w ∧ w ≤ 0x1FC / 4 then .rem (w - 0x180 / 4)
  else if 0x400 / 4 ≤ w ∧ w ≤ 0x7FC / 4 then .data (w - 0x400 / 4)
  else if 0x800 / 4 ≤ w ∧ w ≤ 0xBFC / 4 then .cw (w - 0x800 / 4)
  else if 0xC00 / 4 ≤ w ∧ w ≤ 0xDFC / 4 then .modRow ((w - 0xC00 / 4) / 2) ((w - 0xC00 / 4) % 2)
  else if 0xE00 / 4 ≤ w ∧ w ≤ 0xFFC / 4 then .fnRow ((w - 0xE00 / 4) / 2) ((w - 0xE00 / 4) % 2)
  else .reserved

/-- The word an access at byte offset `a` reaches: address bits 1..0 are ignored (R152). -/
def decodeOffset (a : Offset) : BusWord := busWordAt (a.toNat / 4)

/-! ### Reads -/

/-- QDATA (R74): the module at the query coordinates, and light outside the matrix. -/
def queryData (s : State) : Word :=
  let x := s.qx.toInt
  let y := s.qy.toInt
  if 0 ≤ x ∧ x < s.cfg.size ∧ 0 ≤ y ∧ y < s.cfg.size then (flag (modAt s y.toNat x.toNat)).setWidth 32 else 0

/-- Half-word `h` of row `y` of a plane, by its cells (R95, R96, R158). -/
def rowWord (cell : Nat → Nat → Bool) (y h : Nat) : Word := bitsOf 32 32 fun b => cell y (32 * h + b)

/-- What a word of the register space holds (R56 to R76, R91 to R96), while the Engine is idle (R154). -/
def readWord (s : State) : BusWord → Word
  | .id => idWord
  | .cfg0 => cfg0Word s.cfg
  | .cfg1 => cfg1Word s.cfg
  | .cfg2 => cfg2Word s.cfg
  | .ctrl => (flag s.ie).setWidth 32
  | .status => statusWord s
  | .cmd => 0
  | .errInfo => s.errInfo
  | .dlen => s.dlen.setWidth 32
  | .result => s.result.setWidth 32
  | .mask => s.mask.setWidth 32
  | .penalty => s.penalty
  | .penRun => s.penRun
  | .penBlock => s.penBlock
  | .penFinder => s.penFinder
  | .penBalance => s.penBalance
  | .dark => darkWord s
  | .best => bestWord s
  | .bestPen => s.bestPen
  | .fmt => s.fmt.setWidth 32
  | .bits => s.bits.setWidth 32
  | .query => queryWord s
  | .qdata => queryData s
  | .trialPen m => s.trialPen[m]?.getD 0
  | .trialValid => s.trialValid.setWidth 32
  | .gen i => (genAt s.cfg i).setWidth 32
  | .rem i => (s.rem[i]?.getD 0).setWidth 32
  | .data i => (dataAt s i).setWidth 32
  | .cw i => (cwAt s i).setWidth 32
  | .modRow y h => rowWord (modAt s) y h
  | .fnRow y h => if s.fnValid then rowWord (fnAt s) y h else 0
  | .reserved => 0

/-- The words whose reads are unspecified while BUSY = 1 (R160(e), U2). -/
def unspecifiedWhileBusy : BusWord → Bool
  | .id => false
  | .cfg0 => false
  | .cfg1 => false
  | .cfg2 => false
  | .ctrl => false
  | .status => false
  | .cmd => false
  | .errInfo => false
  | .dlen => false
  | .result => true
  | .mask => true
  | .penalty => true
  | .penRun => true
  | .penBlock => true
  | .penFinder => true
  | .penBalance => true
  | .dark => true
  | .best => true
  | .bestPen => true
  | .fmt => true
  | .bits => true
  | .query => false
  | .qdata => true
  | .trialPen _ => true
  | .trialValid => true
  | .gen _ => false
  | .rem _ => true
  | .data _ => false
  | .cw _ => true
  | .modRow _ _ => true
  | .fnRow _ _ => true
  | .reserved => false

/-- The read at `a` answers an unspecified value: in reset (R700, U3), or a word R160(e) names while BUSY = 1 (U2). -/
def readIsDraw (a : Offset) (s : State) : Bool := !s.rstN || (s.busy && unspecifiedWhileBusy (decodeOffset a))

/-- A host read (R154): it drives `rdata` and changes nothing else of the block. -/
def hostRead (a : Offset) (s : State) : State :=
  if readIsDraw a s then { s with rdata := Config.busDraw s.draws, draws := s.draws + 1 }
  else { s with rdata := readWord s (decodeOffset a) }

/-! ### Writes -/

/-- Write half-word `h` of row `y` of the module plane (R95): bits beyond SIZE are ignored. -/
def writeModRow (y h : Nat) (v : Word) (s : State) : State :=
  if y < s.cfg.size then
    { s with
      modPlane := s.modPlane.setIfInBounds y (bitsOf 64 64 fun x =>
        if 32 * h ≤ x ∧ x < 32 * h + 32 ∧ x < s.cfg.size then v.getLsbD (x - 32 * h) else s.modPlane.get y x) }
  else s

/-- A write to CMD, DLEN, DATA or MODROW: performed while BUSY = 0; dropped with the BUSY error, whose ERRINFO is the
offset, while BUSY = 1 (R160(b), R613). -/
def unlessBusy (a : Offset) (s : State) (t : State) : State :=
  if s.busy then recordError .busy ((a &&& 0xFFC#12).setWidth 32) s else t

/-- A host write of `v` at `a` (R155), by the access type of the word (R55). -/
def hostWrite (a : Offset) (v : Word) (s : State) : State :=
  if s.rstN = false then s
  else
    match decodeOffset a with
    | .id => s
    | .cfg0 => s
    | .cfg1 => s
    | .cfg2 => s
    | .ctrl => { s with ie := v.getLsbD 0 }
    | .status => clearFlags v s
    | .cmd => unlessBusy a s { s with pending := v, busy := true }
    | .errInfo => s
    | .dlen => unlessBusy a s { s with dlen := v.setWidth 8 }
    | .result => s
    | .mask => s
    | .penalty => s
    | .penRun => s
    | .penBlock => s
    | .penFinder => s
    | .penBalance => s
    | .dark => s
    | .best => s
    | .bestPen => s
    | .fmt => s
    | .bits => s
    | .query => { s with qx := v.extractLsb' 0 16, qy := v.extractLsb' 16 16 }
    | .qdata => s
    | .trialPen _ => s
    | .trialValid => s
    | .gen _ => s
    | .rem _ => s
    | .data i => unlessBusy a s { s with data := s.data.write i (v.setWidth 8) }
    | .cw _ => s
    | .modRow y h => unlessBusy a s (writeModRow y h v s)
    | .fnRow _ _ => s
    | .reserved => s

/-! ### The reset input -/

/-- Drive `rst_n` (R700). When it returns to 1 every piece of state has its value of R110; the pins and the model's own
fields go on. -/
def driveReset (level : Bool) (s : State) : State :=
  if level = true ∧ s.rstN = false then
    { State.resetOf s.cfg (s.resets + 1) with rdata := s.rdata, schedule := s.schedule, draws := s.draws }
  else { s with rstN := level }

end Sys2Proof.Machine
end

