-- ==== Sys2Proof/Syntax.lean ====
section
/-! DEFINITION. The commands of QR-CORE: one constructor for each row of the opcode table (R220). -/

namespace Sys2Proof

/-- A command (R2: the block's "instructions" are commands). An operand is the field of the command word that holds it. -/
inductive Instr where
  /-- Do nothing (R542). -/
  | nop
  /-- Start a new construction (R543). -/
  | init
  /-- Draw the function patterns (R305). -/
  | drawfn
  /-- Compute and interleave the ECC codewords (R262). -/
  | ecc
  /-- Place the codeword bits (R351). -/
  | place
  /-- Evaluate mask `m` without committing it (R386); `m` is the 4-bit field M of R210. -/
  | trial (m : BitVec 4)
  /-- Apply the final mask `m`, or the best one (R390). -/
  | commit (m : BitVec 4)
  /-- Score the module plane (R445). -/
  | penalty
  /-- Run the whole construction (R545). -/
  | encode (m : BitVec 4)
  /-- Multiply two elements of GF(256) (R252); `a` and `b` are the fields A and B of R211. -/
  | gfmul (a b : Byte)
  /-- Compute the remainder of `DATA[0..DLEN-1]` (R259). -/
  | rsrem
  deriving DecidableEq, Repr

end Sys2Proof
end

