-- ==== Sys2Proof/WellFormed.lean ====
section
/-! DEFINITION. When a command's operand is one its rule admits (R210), which is also when R230 gives it a spelling.
A command that fails this check still has an encoding: its word decodes, and the command then raises MASK_RANGE (R222). -/

namespace Sys2Proof

/-- The field M names one of the eight masks (R210). -/
def namesMask (m : BitVec 4) : Bool := m.toNat ≤ 7

/-- The field M asks for auto-selection (R210). -/
def asksAuto (m : BitVec 4) : Bool := m.toNat == 15

/-- The operands are in the range R210 admits for this command. A and B of GFMUL are 8-bit values without a restriction
(R211, R252). -/
def Instr.wellFormed : Instr → Bool
  | .nop => true
  | .init => true
  | .drawfn => true
  | .ecc => true
  | .place => true
  | .trial m => namesMask m
  | .commit m => namesMask m || asksAuto m
  | .penalty => true
  | .encode m => namesMask m || asksAuto m
  | .gfmul _ _ => true
  | .rsrem => true

end Sys2Proof
end

