-- ==== Sys2Proof/Decode.lean ====
section
/-! DEFINITION. The decoder of R221 over the opcode map of R220 and the formats of R202 to R204, and the encoder
written from the same tables. -/

namespace Sys2Proof

/-- The three formats of a command word: no operand (R202), a mask operand (R203), two byte operands (R204). -/
inductive Format where
  | n | m | g
  deriving DecidableEq, Repr

/-- Why a word is no command. Each raises ILLEGAL (R221, R222), but for `truncated`, which no 32-bit word is. -/
inductive DecodeError where
  /-- The opcode is not assigned (R222). -/
  | unassignedOpcode
  /-- A reserved bit of the word's format is 1 (R222). -/
  | reservedBits
  /-- Fewer than four bytes: a command word is always 32 bits (R200). -/
  | truncated
  deriving DecidableEq, Repr

/-- The field OPC (R201). -/
def opcField (w : Word) : Byte := w.extractLsb' 0 8

/-- The field M of format M (R203, R210). -/
def mField (w : Word) : BitVec 4 := w.extractLsb' 8 4

/-- The field A of format G (R204, R211). -/
def aField (w : Word) : Byte := w.extractLsb' 16 8

/-- The field B of format G (R204, R211). -/
def bField (w : Word) : Byte := w.extractLsb' 24 8

/-- The reserved bits of the word's format are all 0 (R202, R203, R204, R221). -/
def reservedClear : Format → Word → Bool
  | .n, w => w.extractLsb' 8 24 == 0#24
  | .m, w => w.extractLsb' 12 20 == 0#20
  | .g, w => w.extractLsb' 8 8 == 0#8

/-- A row of the opcode map (R220): the opcode, its format, and the command that a word of that format spells. -/
structure OpcodeRow where
  opc     : Byte
  format  : Format
  command : Word → Instr

/-- The opcode map of R220. -/
def opcodeMap : List OpcodeRow := [
  ⟨0x00, .n, fun _ => .nop⟩,
  ⟨0x01, .n, fun _ => .init⟩,
  ⟨0x02, .n, fun _ => .drawfn⟩,
  ⟨0x03, .n, fun _ => .ecc⟩,
  ⟨0x04, .n, fun _ => .place⟩,
  ⟨0x05, .m, fun w => .trial (mField w)⟩,
  ⟨0x06, .m, fun w => .commit (mField w)⟩,
  ⟨0x07, .n, fun _ => .penalty⟩,
  ⟨0x08, .m, fun w => .encode (mField w)⟩,
  ⟨0x10, .g, fun w => .gfmul (aField w) (bField w)⟩,
  ⟨0x11, .n, fun _ => .rsrem⟩]

/-- Decode a command word (R221): the opcode alone selects the row, and its reserved bits must be 0. -/
def decode (w : Word) : Except DecodeError Instr :=
  match opcodeMap.find? (fun r => r.opc == opcField w) with
  | none => .error .unassignedOpcode
  | some r => if reservedClear r.format w then .ok (r.command w) else .error .reservedBits

/-- Decode a command that arrives over a byte-lane bus: byte lane 0 carries bits 7..0 (R157). Bytes after the fourth
belong to the next word. -/
def decodeBytes : List Byte → Except DecodeError (Instr × List Byte)
  | b0 :: b1 :: b2 :: b3 :: rest => (decode (b3 ++ b2 ++ b1 ++ b0)).map (fun i => (i, rest))
  | _ => .error .truncated

/-! ### The encoder -/

/-- A word of format N (R202). -/
def wordN (opc : Byte) : Word := 0#24 ++ opc

/-- A word of format M (R203). -/
def wordM (m : BitVec 4) (opc : Byte) : Word := 0#20 ++ m ++ opc

/-- A word of format G (R204). -/
def wordG (b a : Byte) (opc : Byte) : Word := b ++ a ++ 0#8 ++ opc

/-- The command word of a command (R202 to R204, R220). -/
def encode : Instr → Word
  | .nop => wordN 0x00
  | .init => wordN 0x01
  | .drawfn => wordN 0x02
  | .ecc => wordN 0x03
  | .place => wordN 0x04
  | .trial m => wordM m 0x05
  | .commit m => wordM m 0x06
  | .penalty => wordN 0x07
  | .encode m => wordM m 0x08
  | .gfmul a b => wordG b a 0x10
  | .rsrem => wordN 0x11

/-- The command's four bytes on a byte-lane bus, lane 0 first (R157). -/
def encodeBytes (i : Instr) : List Byte :=
  let w := encode i
  [w.extractLsb' 0 8, w.extractLsb' 8 8, w.extractLsb' 16 8, w.extractLsb' 24 8]

/-- The command the decoder reads from a word of `nbits` bits numbered as the opcode table numbers them; every bit above
`nbits` is 0, and a command is one 32-bit word (R200). -/
def decodeTableWord (nbits w : Nat) : Option Instr :=
  match decode (BitVec.ofNat 32 (w % 2 ^ nbits)) with
  | .ok i => some i
  | .error _ => none

end Sys2Proof
end

