-- ==== Sys2Proof/Machine/FormatInfo.lean ====
section
/-! DEFINITION. The format information (45_format_info.md): the 15-bit word and the cells it is drawn to. No command of
its own draws it; DRAWFN, TRIAL and COMMIT do. -/

namespace Sys2Proof.Machine

/-- `fdata`: ECLBITS above the mask index (R471). -/
def formatData (e : Ecl) (m : BitVec 3) : BitVec 5 := e.bits ++ m

/-- One XOR-shift step of the division by 0x537 (R472). -/
def bchStep (rem : BitVec 11) : BitVec 11 := (rem <<< 1) ^^^ (if rem.getLsbD 9 then 0x537#11 else 0)

/-- The 10-bit remainder of `fdata · x^10` (R472): ten steps. -/
def formatBch (fdata : BitVec 5) : BitVec 10 := ((List.range 10).foldl (fun rem _ => bchStep rem) (fdata.setWidth 11)).setWidth 10

/-- `format_word(ECL, m)` (R473). -/
@[irreducible] def formatWord (e : Ecl) (m : BitVec 3) : BitVec 15 :=
  let fdata := formatData e m
  (fdata ++ formatBch fdata) ^^^ 0x5412#15

/-- Copy 1 of the format cells, as `(x, y)`, for bit 0 up (R477). -/
def formatCopy1 : List (Nat × Nat) :=
  [(8, 0), (8, 1), (8, 2), (8, 3), (8, 4), (8, 5), (8, 7), (8, 8), (7, 8), (5, 8), (4, 8), (3, 8), (2, 8), (1, 8), (0, 8)]

/-- Copy 2 of the format cells, as `(x, y)`, for bit 0 up (R477). -/
def formatCopy2 (size : Nat) : List (Nat × Nat) :=
  (List.range 15).map fun i => if i ≤ 7 then (size - 1 - i, 8) else (8, size - 15 + i)

/-- The 31 calls of `draw_format` in order: both copies, then the dark module (R476, R477, R479). -/
@[irreducible] def formatWrites (size : Nat) (bits : BitVec 15) : List FnWrite :=
  ((formatCopy1.mapIdx fun i c => ⟨c.1, c.2, bits.getLsbD i⟩) ++
    ((formatCopy2 size).mapIdx fun i c => ⟨c.1, c.2, bits.getLsbD i⟩)) ++ [⟨8, size - 8, true⟩]

/-- `draw_format(m)` (R476). -/
def drawFormat (m : BitVec 3) (s : State) : State :=
  let bits := formatWord s.cfg.ecl m
  draw (formatWrites s.cfg.size bits) { s with fmt := bits }

end Sys2Proof.Machine
end

