-- ==== Sys2Proof/Machine/Penalty.lean ====
section
/-! DEFINITION. The penalty accumulator of the MEV unit (44_penalty.md) and the command PENALTY. -/

namespace Sys2Proof.Machine

/-! ### Lines: runs (P1) and finder-like patterns (P3) -/

/-- The 7-entry run history; `h0` is the newest run (R425). -/
structure RunHistory where
  h0 : Nat
  h1 : Nat
  h2 : Nat
  h3 : Nat
  h4 : Nat
  h5 : Nat
  h6 : Nat
  deriving DecidableEq, Repr

/-- `add_hist(run, h)` (R428): the first run of a line is lengthened by SIZE. -/
def addHist (size run : Nat) (h : RunHistory) : RunHistory :=
  { h0 := if h.h0 = 0 then run + size else run
    h1 := h.h0, h2 := h.h1, h3 := h.h2, h4 := h.h3, h5 := h.h4, h6 := h.h5 }

/-- `count_patterns(h)` (R429): dark, light, dark, light, dark in the ratio 1:1:3:1:1, with 4 units of light on one side and
1 on the other. -/
def countPatterns (h : RunHistory) : Nat :=
  let n := h.h1
  let core := 0 < n ∧ h.h2 = n ∧ h.h3 = 3 * n ∧ h.h4 = n ∧ h.h5 = n
  (if core ∧ 4 * n ≤ h.h0 ∧ n ≤ h.h6 then 1 else 0) + (if core ∧ 4 * n ≤ h.h6 ∧ n ≤ h.h0 then 1 else 0)

/-- The state of `scan_line` (R425): the colour and length of the current run, the history, and what the line has added to
P1 and P3. -/
structure LineScan where
  color : Bool
  run   : Nat
  hist  : RunHistory
  p1    : Nat
  p3    : Nat
  deriving DecidableEq, Repr

/-- Every line starts as though a light run of length 0 came before it (R425). -/
def LineScan.start : LineScan := ⟨false, 0, ⟨0, 0, 0, 0, 0, 0, 0⟩, 0, 0⟩

/-- One module of a line (R425). -/
def scanModule (c : Cfg) (st : LineScan) (module : Bool) : LineScan :=
  if module = st.color then
    let run := st.run + 1
    { st with
      run := run
      p1 := if run = 5 then st.p1 + c.n1 else if 5 < run then st.p1 + 1 else st.p1 }
  else
    let h := addHist c.size st.run st.hist
    { color := module
      run := 1
      hist := h
      p1 := st.p1
      p3 := if st.color = false then st.p3 + countPatterns h * c.n3 else st.p3 }

/-- `terminate_and_count` (R430): a dark last run is pushed, then the light run of the border. -/
def terminateAndCount (size : Nat) (st : LineScan) : Nat :=
  if st.color = true then countPatterns (addHist size size (addHist size st.run st.hist))
  else countPatterns (addHist size (st.run + size) st.hist)

/-- What one line adds to P1 and to P3 (R425). -/
def lineScore (c : Cfg) (line : List Bool) : Nat × Nat :=
  let st := line.foldl (scanModule c) LineScan.start
  (st.p1, st.p3 + terminateAndCount c.size st * c.n3)

/-- Row `y` of the matrix. -/
def matrixRow (size : Nat) (p : Plane) (y : Nat) : List Bool := (List.range size).map fun a => p.get y a

/-- Column `x` of the matrix. -/
def matrixColumn (size : Nat) (p : Plane) (x : Nat) : List Bool := (List.range size).map fun a => p.get a x

/-- The lines `evaluate_penalty` scans: rows, then columns (R421). -/
def matrixLines (size : Nat) (p : Plane) : List (List Bool) :=
  (List.range size).map (matrixRow size p) ++ (List.range size).map (matrixColumn size p)

/-! ### Blocks (P2) and balance (P4) -/

/-- The 2×2 window whose top-left cell is at column `x` of row `y` is of one colour (R433). -/
def isBlock (p : Plane) (y x : Nat) : Bool :=
  let c := p.get y x
  p.get y (x + 1) == c && p.get (y + 1) x == c && p.get (y + 1) (x + 1) == c

/-- `block_score()` (R433): overlapping windows each count. -/
def blockScore (c : Cfg) (p : Plane) : Nat :=
  ((List.range (c.size - 1)).map fun y =>
    ((List.range (c.size - 1)).map fun x => if isBlock p y x then c.n2 else 0).sum).sum

/-- The number of dark cells (R435). -/
def darkModules (size : Nat) (p : Plane) : Nat :=
  ((List.range size).map fun y => ((List.range size).filter fun x => p.get y x).length).sum

/-- The least `k` from `k` up with `dev <= (k + 1) * total`; the first argument bounds how many are tried. -/
def leastIndex (dev total : Nat) : Nat → Nat → Nat
  | 0, k => k
  | n + 1, k => if dev ≤ (k + 1) * total then k else leastIndex dev total n (k + 1)

/-- The balance index `k` (R436). It is at most 9, so nine trials below it are enough. -/
def balanceIndex (dark total : Nat) : Nat := leastIndex (20 * (dark : Int) - 10 * (total : Int)).natAbs total 9 0

/-! ### Evaluation -/

/-- The components of R421. -/
structure PenaltyParts where
  p1   : Nat
  p2   : Nat
  p3   : Nat
  p4   : Nat
  dark : Nat
  k    : Nat
  deriving DecidableEq, Repr

/-- `total` (R421). -/
def PenaltyParts.total (p : PenaltyParts) : Nat := p.p1 + p.p2 + p.p3 + p.p4

/-- The components of a module plane's penalty (R420, R421). -/
@[irreducible] def penaltyParts (c : Cfg) (p : Plane) : PenaltyParts :=
  let scores := (matrixLines c.size p).map (lineScore c)
  let dark := darkModules c.size p
  let k := balanceIndex dark (c.size * c.size)
  { p1 := (scores.map (·.1)).sum
    p2 := blockScore c p
    p3 := (scores.map (·.2)).sum
    p4 := k * c.n4
    dark := dark
    k := k }

/-- Write the result registers (R68, R69, R421). -/
def setPenalties (p : PenaltyParts) (s : State) : State :=
  { s with
    penalty := BitVec.ofNat 32 p.total
    penRun := BitVec.ofNat 32 p.p1
    penBlock := BitVec.ofNat 32 p.p2
    penFinder := BitVec.ofNat 32 p.p3
    penBalance := BitVec.ofNat 32 p.p4
    darkCount := BitVec.ofNat 16 p.dark
    darkK := BitVec.ofNat 4 p.k }

/-- `evaluate_penalty()` (R421), with the bound check of R440. -/
def evaluatePenalty (s : State) : CmdResult :=
  let p := penaltyParts s.cfg s.modPlane
  if p.total > s.cfg.penaltyBound then .fault .penaltyBound s else .done (setPenalties p s)

/-- PENALTY (R445). -/
def execPenalty (s : State) : Host.Outcome State Fault Refusal :=
  finish s (requirePhase [.init, .func, .eccd, .placed, .done] s (evaluatePenalty s))

end Sys2Proof.Machine
end

