-- ==== Sys2Proof/Machine/Masking.lean ====
section
/-! DEFINITION. Masking and mask selection (43_masking.md): the eight predicates, trials, and the commands TRIAL and
COMMIT. -/

namespace Sys2Proof.Machine

/-- `mask_pred(m, x, y)`, with `x` the column and `y` the row (R381). -/
def maskPred (m : BitVec 3) (x y : Nat) : Bool :=
  match m.toNat with
  | 0 => (x + y) % 2 == 0
  | 1 => y % 2 == 0
  | 2 => x % 3 == 0
  | 3 => (x + y) % 3 == 0
  | 4 => (x / 3 + y / 2) % 2 == 0
  | 5 => x * y % 2 + x * y % 3 == 0
  | 6 => (x * y % 2 + x * y % 3) % 2 == 0
  | _ => ((x + y) % 2 + x * y % 3) % 2 == 0

/-- The cells of row `y` that `applyMask(m)` inverts (R383). -/
def maskRow (m : BitVec 3) (size : Nat) (functions : Plane) (y : Nat) : Row :=
  bitsOf 64 size fun x => maskPred m x y && !functions.get y x

/-- `applyMask(m)` on the module plane: an XOR over the cells of the matrix that are no function cells (R383). -/
@[irreducible] def maskPlane (m : BitVec 3) (size : Nat) (functions modules : Plane) : Plane :=
  Plane.ofRows fun y => if y < size then modules.row y ^^^ maskRow m size functions y else modules.row y

/-- `applyMask(m)` (R383). -/
def applyMask (m : BitVec 3) (s : State) : State :=
  { s with modPlane := maskPlane m s.cfg.size s.fnPlane s.modPlane }

/-- `TRIALPEN[m] <- p; TRIALVALID[m] <- 1` (R385). -/
def recordTrial (m : BitVec 3) (p : Word) (s : State) : State :=
  { s with
    trialPen := s.trialPen.setIfInBounds m.toNat p
    trialValid := putBit s.trialValid m.toNat true }

/-- `update_best(m, p)` (R387): a lower penalty wins, and of equal ones the smaller mask index. -/
def updateBest (m : BitVec 3) (p : Word) (s : State) : State :=
  if s.bestValid = false ∨ p < s.bestPen ∨ (p = s.bestPen ∧ m < s.best) then
    { s with best := m, bestValid := true, bestPen := p }
  else s

/-- `trial(m)` (R385): mask, draw the format bits, score, record, and undo the mask. -/
def trialBody (m : BitVec 3) (s : State) : CmdResult :=
  (evaluatePenalty (drawFormat m (applyMask m s))).andThen fun t =>
    .done (applyMask m (updateBest m t.penalty (recordTrial m t.penalty t)))

/-- The trials of these masks in turn (R390). -/
def trialsBody : List (BitVec 3) → State → CmdResult
  | [], s => .done s
  | m :: ms, s => (trialBody m s).andThen (trialsBody ms)

/-- The masks 0 to 7, in order (R390). -/
def allMasks : List (BitVec 3) := [0, 1, 2, 3, 4, 5, 6, 7]

/-- `BEST <- 0; BESTPEN <- 0; TRIALVALID <- 0` (R390). -/
def clearBest (s : State) : State := { s with best := 0, bestValid := false, bestPen := 0, trialValid := 0 }

/-- `free_function_plane()` (R392): the cells are kept, but every FNROW read is 0 from now on. -/
def freeFunctionPlane (s : State) : State := { s with fnValid := false }

/-- The end of COMMIT, with the final mask `m` (R390). -/
def commitMask (m : BitVec 3) (s : State) : State :=
  let t := drawFormat m (applyMask m s)
  { freeFunctionPlane { t with mask := m, maskValid := true } with phase := .done }

/-- The body of COMMIT after its `require PHASE` line (R390, R391). -/
def commitBody (m : BitVec 4) (s : State) : CmdResult :=
  match maskOperand m with
  | .mask m' => .done (commitMask m' s)
  | .auto => (trialsBody allMasks (clearBest s)).andThen fun t => .done (commitMask t.best t)
  | .outOfRange => .reject .maskRange

/-- TRIAL (R386): `auto` is out of range here. -/
def execTrial (m : BitVec 4) (s : State) : Host.Outcome State Fault Refusal :=
  finish s (requirePhase [.placed] s
    (match maskOperand m with
      | .mask m' => trialBody m' s
      | .auto => .reject .maskRange
      | .outOfRange => .reject .maskRange))

/-- COMMIT (R390). -/
def execCommit (m : BitVec 4) (s : State) : Host.Outcome State Fault Refusal :=
  finish s (requirePhase [.placed] s (commitBody m s))

end Sys2Proof.Machine
end

