-- ==== Sys2Proof/Machine/Patterns.lean ====
section
/-! DEFINITION. The function patterns (41_function_patterns.md): timing, finders with their separators, alignment, the
placeholder format information, and the command DRAWFN. -/

namespace Sys2Proof.Machine

/-- The offsets `-n .. n`. -/
def offsets (n : Nat) : List Int := (List.range (2 * n + 1)).map fun i => (i : Int) - n

/-- The Chebyshev distance (R40). -/
def chebyshev (dx dy : Int) : Nat := max dx.natAbs dy.natAbs

/-- The timing patterns: column 6 and row 6, dark at even index (R306). -/
def timingWrites (size : Nat) : List FnWrite :=
  (List.range size).flatMap fun i => [⟨6, i, i % 2 == 0⟩, ⟨i, 6, i % 2 == 0⟩]

/-- The centres of the three finders (R307). -/
def finderCentres (size : Nat) : List (Nat × Nat) := [(3, 3), (size - 4, 3), (3, size - 4)]

/-- The call that draws a pattern's cell at `(cx + dx, cy + dy)`, if that cell is in the matrix. -/
def clippedWrite (size cx cy : Nat) (dx dy : Int) (dark : Bool) : Option FnWrite :=
  let xx : Int := cx + dx
  let yy : Int := cy + dy
  if 0 ≤ xx ∧ xx < size ∧ 0 ≤ yy ∧ yy < size then some ⟨xx.toNat, yy.toNat, dark⟩ else none

/-- One finder with its separator: the 9×9 ring pattern, clipped to the matrix (R308). -/
def finderWrites (size : Nat) (centre : Nat × Nat) : List FnWrite :=
  (offsets 4).flatMap fun dy => (offsets 4).filterMap fun dx =>
    let d := chebyshev dx dy
    clippedWrite size centre.1 centre.2 dx dy (d != 2 && d != 4)

/-- One alignment pattern: 5×5, light at distance 1 (R310). -/
def alignmentWrites (size : Nat) (centre : Nat × Nat) : List FnWrite :=
  (offsets 2).flatMap fun dy => (offsets 2).filterMap fun dx =>
    clippedWrite size centre.1 centre.2 dx dy (chebyshev dx dy != 1)

/-- The centres of the alignment patterns: every pair of coordinates but the three finder corners (R312). -/
def alignmentCentres (c : Cfg) : List (Nat × Nat) :=
  let p := c.alignPos
  let n := p.length
  (List.range n).flatMap fun i => (List.range n).filterMap fun j =>
    if (i = 0 ∧ j = 0) ∨ (i = 0 ∧ j + 1 = n) ∨ (i + 1 = n ∧ j = 0) then none else some (p.getD i 0, p.getD j 0)

/-- The patterns DRAWFN draws before the format information, in its order (R305). -/
@[irreducible] def patternWrites (c : Cfg) : List FnWrite :=
  timingWrites c.size ++ (finderCentres c.size).flatMap (finderWrites c.size) ++
    (alignmentCentres c).flatMap (alignmentWrites c.size)

/-- The body of DRAWFN after its `require` line (R305). -/
def drawfnBody (s : State) : State :=
  { drawFormat 0 (draw (patternWrites s.cfg) s) with phase := .func }

/-- DRAWFN (R305). -/
def execDrawfn (s : State) : Host.Outcome State Fault Refusal :=
  finish s (requirePhase [.init] s (.done (drawfnBody s)))

/-- The planes as DRAWFN leaves them, starting from light ones (R315). -/
@[irreducible] def functionPatterns (c : Cfg) : Planes :=
  drawAll (patternWrites c ++ formatWrites c.size (formatWord c.ecl 0)) { modules := Plane.light, functions := Plane.light }

end Sys2Proof.Machine
end

