-- ==== Sys2Proof/Machine/Placement.lean ====
section
/-! DEFINITION. The zig-zag placement of the codeword bits (42_codeword_placement.md) and the command PLACE. -/

namespace Sys2Proof.Machine

/-- The loop over `right` of R351, from its value at the top of the loop: the right column of each strip. Column 6 is
remapped to 5. The first argument bounds the number of strips. -/
def stripsFrom : Nat → Nat → List Nat
  | 0, _ => []
  | n + 1, right =>
    if right < 1 then []
    else
      let r := if right = 6 then 5 else right
      r :: stripsFrom n (r - 2)

/-- The right columns of the strips, in order (R352). -/
def strips (size : Nat) : List Nat := stripsFrom size (size - 1)

/-- Whether the strip with right column `right` is scanned upward (R354). -/
def scansUpward (right : Nat) : Bool := (right + 1) &&& 2 == 0

/-- The cells of one strip as `(x, y)`, in scan order: the right column, then the left (R355). -/
def stripCells (size right : Nat) : List (Nat × Nat) :=
  (List.range size).flatMap fun vert =>
    let y := if scansUpward right then size - 1 - vert else vert
    [(right, y), (right - 1, y)]

/-- Every cell the scan visits, in order (R351). -/
def scanCells (size : Nat) : List (Nat × Nat) := (strips size).flatMap (stripCells size)

/-- Bit `i` of the codeword stream: most-significant bit of each codeword first (R353). -/
def streamBit (s : State) (i : Nat) : Bool := (cwAt s (i / 8)).getLsbD (7 - i % 8)

/-- What the scan carries: the module plane and the bit index. -/
structure Scan where
  modules : Plane
  index   : Nat
  deriving DecidableEq, Repr

/-- Visit one cell (R356): a data cell takes the next bit while one of the `limit` bits is left. -/
def placeCell (s : State) (limit : Nat) (sc : Scan) (cell : Nat × Nat) : Scan :=
  if s.fnPlane.get cell.2 cell.1 = false ∧ sc.index < limit then
    { modules := sc.modules.set cell.2 cell.1 (streamBit s sc.index), index := sc.index + 1 }
  else sc

/-- The whole scan (R351). -/
@[irreducible] def placeScan (s : State) : Scan :=
  (scanCells s.cfg.size).foldl (placeCell s (s.cfg.rawCodewords * 8)) { modules := s.modPlane, index := 0 }

/-- The body of PLACE after its `require` line (R351), with the count check of R357. -/
def placeBody (s : State) : CmdResult :=
  let sc := placeScan s
  let t := { s with modPlane := sc.modules, bits := BitVec.ofNat 16 sc.index }
  if sc.index ≠ s.cfg.rawCodewords * 8 then .fault .bitCount t else .done { t with phase := .placed }

/-- PLACE (R351). -/
def execPlace (s : State) : Host.Outcome State Fault Refusal := finish s (requirePhase [.eccd] s (placeBody s))

end Sys2Proof.Machine
end

