-- ==== Sys2Proof/Machine/Control.lean ====
section
/-! DEFINITION. The commands NOP, INIT and ENCODE (47_control.md). -/

namespace Sys2Proof.Machine

/-- The body of INIT (R543): both planes light, the per-construction registers reset, the others left alone (R544). -/
def initBody (s : State) : State :=
  { s with
    modPlane := Plane.light
    fnPlane := Plane.light
    fnValid := true
    maskValid := false
    mask := 0
    best := 0
    bestValid := false
    bestPen := 0
    trialPen := Vector.replicate 8 0
    trialValid := 0
    fmt := 0
    bits := 0
    phase := .init }

/-- The body of ENCODE (R545): MASK_RANGE before DATA_LENGTH, then the five bodies, each with its own checks met. -/
def encodeBody (m : BitVec 4) (s : State) : CmdResult :=
  if maskOperand m = .outOfRange then .reject .maskRange
  else requireDataLength s
    ((eccBody (drawfnBody (initBody s))).andThen fun t => (placeBody t).andThen (commitBody m))

/-- NOP (R542): nothing besides completion. -/
def execNop (s : State) : Host.Outcome State Fault Refusal := finish s (.done s)

/-- INIT (R543). -/
def execInit (s : State) : Host.Outcome State Fault Refusal := finish s (.done (initBody s))

/-- ENCODE (R545): allowed in every phase. -/
def execEncode (m : BitVec 4) (s : State) : Host.Outcome State Fault Refusal := finish s (encodeBody m s)

end Sys2Proof.Machine
end

