-- ==== Sys2Proof/Machine/Dispatch.lean ====
section
/-! DEFINITION. The meaning of each command (R220): what the Engine does once PENDING is decoded (R540). -/

namespace Sys2Proof.Machine

def exec (i : Instr) (s : State) : Host.Outcome State Fault Refusal :=
  match i with
  | .nop => Sys2Proof.Machine.execNop s
  | .init => Sys2Proof.Machine.execInit s
  | .drawfn => Sys2Proof.Machine.execDrawfn s
  | .ecc => Sys2Proof.Machine.execEcc s
  | .place => Sys2Proof.Machine.execPlace s
  | .trial m => Sys2Proof.Machine.execTrial m s
  | .commit m => Sys2Proof.Machine.execCommit m s
  | .penalty => Sys2Proof.Machine.execPenalty s
  | .encode m => Sys2Proof.Machine.execEncode m s
  | .gfmul a b => Sys2Proof.Machine.execGfmul a b s
  | .rsrem => Sys2Proof.Machine.execRsrem s

end Sys2Proof.Machine
end

