-- ==== Sys2Proof/Machine/Engine.lean ====
section
/-! DEFINITION. The Engine's step (R540): decode PENDING, then run the command or reject the word. -/

namespace Sys2Proof.Machine

/-- The Engine has a step: a command is in flight (R50, R540) and the block is not held in reset (R700). -/
def engineReady (s : State) : Bool := s.busy && s.rstN

/-- One Engine step (R540). A word that is no command raises ILLEGAL before any other check (R221, R222). -/
def engineStep (s : State) : Host.Outcome State Fault Refusal :=
  match decode s.pending with
  | .ok i => exec i s
  | .error _ => finish s (.reject .illegal)

/-- The Engine's step if it has one; otherwise nothing moves (R50). -/
def engineTurn (s : State) : Host.Outcome State Fault Refusal := if engineReady s then engineStep s else .next s

end Sys2Proof.Machine
end

