-- ==== Sys2Proof/Machine/Wait.lean ====
section
/-! DEFINITION. The Host's wait (R232, R720): STATUS is read until BUSY reads 0. -/

namespace Sys2Proof.Machine

/-- One event of a wait; `s.schedule` holds what comes after it. Once the latency has passed, a command in flight takes its
step, and the wait goes on. Every other event is a read of STATUS, and the wait goes on while bit 0 of the answer is 1. -/
def hostWait (polls : Nat) (s : State) : Host.Outcome State Fault Refusal :=
  if polls = 0 ∧ engineReady s = true then engineStep { s with schedule := .waitIdle 0 :: s.schedule }
  else
    let t := hostRead 0x014 s
    .next (if t.rdata.getLsbD 0 then { t with schedule := .waitIdle (polls - 1) :: s.schedule } else t)

end Sys2Proof.Machine
end

