-- ==== Sys2Proof/Machine/Step.lean ====
section
/-! DEFINITION. One step of the machine: the next event of the schedule, or, when none is left, the Engine's step. -/

namespace Sys2Proof.Machine

/-- One atomic event (R50, R161). Every interleaving of the Host and the Engine that R50 allows is some schedule. There is
no machine for a configuration that fails the elaboration check (R19, U7). -/
def step (s : State) : Host.Outcome State Fault Refusal :=
  if s.cfg.Admitted then
    match s.schedule with
    | [] => engineTurn s
    | .engineTurn :: rest => engineTurn { s with schedule := rest }
    | .waitIdle polls :: rest => hostWait polls { s with schedule := rest }
    | .read a :: rest => .next (hostRead a { s with schedule := rest })
    | .write a v :: rest => .next (hostWrite a v { s with schedule := rest })
    | .rstN level :: rest => .next (driveReset level { s with schedule := rest })
  else .refused .cfgNotAdmitted

/-- The state with a command word in flight and the Engine to move next, so that the next step runs that command: as a CMD
write accepted in a block that is not held in reset leaves it (R60). -/
def State.withFetchWord (s : State) (nbits w : Nat) : State :=
  { s with
    pending := BitVec.ofNat 32 (w % 2 ^ nbits)
    busy := true
    rstN := true
    schedule := .engineTurn :: s.schedule }

end Sys2Proof.Machine
end

