-- ==== Sys2Proof/Machine/HostCodewords.lean ====
section
/-! DEFINITION. The host's reference function `host_codewords` (46_host_data_codewords.md). It is outside the block: no
register or command implements it (R500). -/

namespace Sys2Proof.Machine

/-- `appendBits(value, length)` on a bit buffer (R501), most-significant bit first. Its precondition is
`length <= 31` and `value < 2 ^ length`; the reference function makes no other call (U11). -/
def appendBits (bb : List Bool) (value length : Nat) : List Bool :=
  bb ++ (List.range length).map fun i => value.testBit (length - 1 - i)

/-- A byte-mode segment (R502). -/
structure Segment where
  characterCount : Nat
  payload        : List Byte
  deriving DecidableEq, Repr

/-- `makeSegments(text)`: one byte-mode segment over the whole input (R502). -/
def makeSegments (text : List Byte) : List Segment := [⟨text.length, text⟩]

/-- `getTotalBits(segs)` (R504); `none` is the sentinel NONE. The second argument is the partial sum. -/
def totalBitsFrom : List Segment → Nat → Option Nat
  | [], total => some total
  | seg :: segs, total =>
    let next := total + 4 + 8 + 8 * seg.payload.length
    if seg.characterCount ≥ 2 ^ 8 ∨ next > 2 ^ 31 - 1 then none else totalBitsFrom segs next

/-- A segment's header and payload (R503, R505). -/
def appendSegment (bb : List Bool) (seg : Segment) : List Bool :=
  seg.payload.foldl (fun bb b => appendBits bb b.toNat 8) (appendBits (appendBits bb 0b0100 4) seg.characterCount 8)

/-- The pad bytes EC, 11, EC, … (R505), `n` of them. -/
def appendPad (bb : List Bool) : Nat → Nat → List Bool
  | 0, _ => bb
  | n + 1, pad => appendPad (appendBits bb pad 8) n (pad ^^^ (0xEC ^^^ 0x11))

/-- Eight bits packed most-significant first (R505). -/
def packByte (bits : List Bool) : Byte := bits.foldl (fun b bit => (b <<< 1) ||| (BitVec.ofBool bit).setWidth 8) 0

/-- `host_codewords(text)` for a byte string (R505); `none` is OVERFLOW (R506). DESIGN CHOICE (log entry 21): where
DATA_CODEWORDS = 1 the empty input overflows, as R505's pseudocode and R506 give it, although R507 says that it succeeds. -/
def hostCodewordsOf (c : Cfg) (text : List Byte) : Option (List Byte) :=
  let cap := c.dataCodewords * 8
  let segs := makeSegments text
  match totalBitsFrom segs 0 with
  | none => none
  | some used =>
    if used > cap then none
    else
      let bb := segs.foldl appendSegment []
      let bb := appendBits bb 0 (min 4 (cap - bb.length))
      let bb := appendBits bb 0 ((8 - bb.length % 8) % 8)
      let bb := appendPad bb ((cap - bb.length) / 8) 0xEC
      some ((List.range c.dataCodewords).map fun i => packByte ((bb.drop (8 * i)).take 8))

/-- `host_codewords` of a null-terminated input: the bytes before the terminator (R502). -/
def hostCodewords (c : Cfg) (input : List Byte) : Option (List Byte) :=
  hostCodewordsOf c (input.takeWhile fun b => b != 0)

end Sys2Proof.Machine
end

