-- ==== Sys2Proof/Safety.lean ====
section
/-! DEFINITION. What the claims are stated in: the phase table of R541, when a command is accepted, the first error that
applies (R602), and the invariant of every run. -/

namespace Sys2Proof.Machine

/-- The phases in which a command is allowed (R541). -/
def allowedPhases : Instr → List Phase
  | .nop => [.idle, .init, .func, .eccd, .placed, .done, .fault]
  | .init => [.idle, .init, .func, .eccd, .placed, .done, .fault]
  | .drawfn => [.init]
  | .ecc => [.func]
  | .place => [.eccd]
  | .trial _ => [.placed]
  | .commit _ => [.placed]
  | .penalty => [.init, .func, .eccd, .placed, .done]
  | .encode _ => [.idle, .init, .func, .eccd, .placed, .done, .fault]
  | .gfmul _ _ => [.idle, .init, .func, .eccd, .placed, .done, .fault]
  | .rsrem => [.idle, .init, .func, .eccd, .placed, .done, .fault]

/-- The PHASE a command leaves when it succeeds in phase `p` (R541). -/
def phaseAfter : Instr → Phase → Phase
  | .nop, p => p
  | .init, _ => .init
  | .drawfn, _ => .func
  | .ecc, _ => .eccd
  | .place, _ => .placed
  | .trial _, _ => .placed
  | .commit _, _ => .done
  | .penalty, p => p
  | .encode _, _ => .done
  | .gfmul _ _, p => p
  | .rsrem, p => p

/-- The commands that check DLEN against DATA_CODEWORDS (R270). -/
def checksDataLength : Instr → Bool
  | .nop => false
  | .init => false
  | .drawfn => false
  | .ecc => true
  | .place => false
  | .trial _ => false
  | .commit _ => false
  | .penalty => false
  | .encode _ => true
  | .gfmul _ _ => false
  | .rsrem => false

/-- The Reject a command raises in `s`, the first that applies in the order of R602; `none` if it is accepted. -/
def firstReject (i : Instr) (s : State) : Option ErrCode :=
  if s.phase ∉ allowedPhases i then some .sequence
  else if i.wellFormed = false then some .maskRange
  else if checksDataLength i = true ∧ s.dlen.toNat ≠ s.cfg.dataCodewords then some .dataLength
  else none

/-- A command passes every check that comes before its first write (R602): its phase, its mask operand, DLEN. -/
abbrev Accepts (i : Instr) (s : State) : Prop :=
  s.phase ∈ allowedPhases i ∧ i.wellFormed = true ∧ (checksDataLength i = true → s.dlen.toNat = s.cfg.dataCodewords)

/-- The phases of a live function plane: from INIT until COMMIT frees it (R61, R96, R392). -/
def Phase.planeLive : Phase → Bool
  | .idle => false
  | .init => true
  | .func => true
  | .eccd => true
  | .placed => true
  | .done => false
  | .fault => false

/-- The phases in which the function plane is as DRAWFN left it (R97). -/
def Phase.patternsDrawn : Phase → Bool
  | .idle => false
  | .init => false
  | .func => true
  | .eccd => true
  | .placed => true
  | .done => false
  | .fault => false

/-- The RAMs are in canonical form and hold entries that exist (R91, R92). -/
abbrev State.MemoriesWf (s : State) : Prop :=
  s.data.wf = true ∧ (∀ cell ∈ s.data, cell.1 < 256) ∧ s.cw.wf = true ∧ (∀ cell ∈ s.cw, cell.1 < s.cfg.rawCodewords)

/-- PHASE and the flags that follow it: FAULT is never entered (R548), FNVALID is 1 while the function plane is live and
MASKVALID once a mask is committed (R61). -/
abbrev State.PhaseWf (s : State) : Prop :=
  s.phase ≠ .fault ∧ s.fnValid = s.phase.planeLive ∧ s.maskValid = decide (s.phase = .done)

/-- The error record: ERRCODE is 0 exactly when ERR = 0 (R61), and no Fault is ever recorded (R604). -/
abbrev State.ErrorsWf (s : State) : Prop :=
  s.errCode.isSome = s.err ∧ s.errCode ≠ some .interleaveCount ∧ s.errCode ≠ some .bitCount ∧ s.errCode ≠ some .penaltyBound

/-- The function plane: light after INIT (R543), and as DRAWFN leaves it until the next INIT or COMMIT (R97, R315). -/
abbrev State.FunctionsWf (s : State) : Prop :=
  (s.phase = .init → s.fnPlane = Plane.light) ∧
    (s.phase.patternsDrawn = true → s.fnPlane = (functionPatterns s.cfg).functions)

/-- The result registers: the entries of REM from ECC_LEN up are 0 (R94), and PENALTY is the sum of its components (R421). -/
abbrev State.ResultsWf (s : State) : Prop :=
  (∀ i < 32, s.cfg.eccLen ≤ i → s.rem[i]?.getD 0 = 0) ∧
    s.penalty = s.penRun + s.penBlock + s.penFinder + s.penBalance

/-- The invariant of every run of an elaborated block. -/
abbrev State.Inv (s : State) : Prop :=
  s.cfg.Admitted ∧ s.MemoriesWf ∧ s.PhaseWf ∧ s.ErrorsWf ∧ s.FunctionsWf ∧ s.ResultsWf

end Sys2Proof.Machine
end

