-- ==== Sys2Proof/Certificates/Slice0/Obligations.lean ====
section
/-! DEFINITION. The statements for the provers, from the numbered rules of the spec. Each says what the rule says in terms
that do not repeat the model's own definition of it wherever the rule has such terms. -/

open Sys2Proof Sys2Proof.Machine

/-! ### Encoding -/

/-- R200 to R204, R220, R157: decoding the word of a command, or its four bytes with anything after them, gives the command
back, whatever its operands. -/
def Obligations.DecodeOfEncodeIsTheCommand : Prop :=
  ∀ (i : Instr) (rest : List Byte),
    decode (encode i) = .ok i ∧ decodeBytes (encodeBytes i ++ rest) = .ok (i, rest)

/-- R220, R221: a word decodes to one command only, and no bit of it is dropped. -/
def Obligations.EncodeOfDecodeIsTheWord : Prop :=
  ∀ (w : Word) (i : Instr), decode w = .ok i → encode i = w

/-- The illegal command words of R221 and R222, by the opcode field and the reserved bits of each format. -/
def Claims.IllegalWord (w : Word) : Prop :=
  let opc := (w.extractLsb' 0 8).toNat
  (opc ∉ [0x00, 0x01, 0x02, 0x03, 0x04, 0x05, 0x06, 0x07, 0x08, 0x10, 0x11]) ∨
    (opc ∈ [0x00, 0x01, 0x02, 0x03, 0x04, 0x07, 0x11] ∧ w.extractLsb' 8 24 ≠ 0) ∨
    (opc ∈ [0x05, 0x06, 0x08] ∧ w.extractLsb' 12 20 ≠ 0) ∨
    (opc = 0x10 ∧ w.extractLsb' 8 8 ≠ 0)

/-- R221: a word is refused exactly when its opcode is not assigned or a reserved bit of its format is 1, and the Engine
then raises Reject(ILLEGAL) whatever the phase, the operands and DLEN are. -/
def Obligations.IllegalWordsAreRejectedBeforeAnyOtherCheck : Prop :=
  (∀ w : Word, (∃ e, decode w = .error e) ↔ Claims.IllegalWord w) ∧
    ∀ s : State, Claims.IllegalWord s.pending → engineStep s = .next (raiseReject .illegal s)

/-- R230: the example encodings of the spec, one of each format, and the words of the other commands. -/
def Obligations.SampleCommandWordsDecode : Prop :=
  decode 0x00000001 = .ok .init ∧ decode 0x00000305 = .ok (.trial 3) ∧ decode 0x00000F06 = .ok (.commit 15) ∧
    decode 0x00000208 = .ok (.encode 2) ∧ decode 0xCA530010 = .ok (.gfmul 0x53 0xCA) ∧ decode 0x00000000 = .ok .nop ∧
    decode 0x00000002 = .ok .drawfn ∧ decode 0x00000003 = .ok .ecc ∧ decode 0x00000004 = .ok .place ∧
    decode 0x00000007 = .ok .penalty ∧ decode 0x00000011 = .ok .rsrem

/-! ### The step -/

/-- R540: when a command is in flight, the block is out of reset and the Engine moves next, the step runs the command that
PENDING decodes to; the event it used up is all it adds. R232: a wait reads STATUS and goes on while BUSY reads 1, and it is
over with the first read that gives BUSY = 0. (The schedule that says which agent moves next, and how many reads of a wait come
before the command's step, are the model's own form of the open latency: log entries 2 and 18.) -/
def Obligations.StepRunsTheDecodedCommand : Prop :=
  (∀ (s : State) (i : Instr), s.cfg.Admitted → s.busy = true → s.rstN = true → decode s.pending = .ok i →
    (s.schedule = [] → step s = exec i s) ∧
      (∀ rest, s.schedule = .engineTurn :: rest → step s = exec i { s with schedule := rest }) ∧
      ∀ rest, s.schedule = .waitIdle 0 :: rest → step s = exec i s) ∧
  ∀ (s : State) (polls : Nat) (rest : List Event), s.cfg.Admitted → s.rstN = true → s.schedule = .waitIdle polls :: rest →
    (s.busy = true → 0 < polls → step s = .next { s with rdata := statusWord s, schedule := .waitIdle (polls - 1) :: rest }) ∧
      (s.busy = false → step s = .next { s with rdata := statusWord s, schedule := rest })

/-- R151, R161, R731: an elaborated block always has a next state, whatever comes next; a configuration that fails the
elaboration check has no machine (R19). (That an idle block with no event left keeps its state is the model's choice: log
entry 3; that a configuration without a machine is refused by the step: log entry 11.) -/
def Obligations.EveryStepOfAnElaboratedBlockHasANextState : Prop :=
  ∀ s : State, (s.cfg.Admitted → ∃ t, step s = .next t) ∧ (¬ s.cfg.Admitted → step s = .refused .cfgNotAdmitted)

/-- R10, R702: nothing changes the configuration: no command, no bus access, no reset. -/
def Obligations.NoStepChangesTheConfiguration : Prop :=
  ∀ s t : State, step s = .next t → t.cfg = s.cfg

/-- Every step keeps the invariant: canonical RAMs, PHASE never FAULT, FNVALID and MASKVALID as PHASE says, ERRCODE 0 exactly
when ERR = 0, no Fault recorded, the function plane as DRAWFN left it until the next INIT or COMMIT, REM 0 from ECC_LEN up,
and PENALTY the sum of its components. (The canonical form of a RAM is the model's own: log entry 4.) -/
def Obligations.EveryStepKeepsTheInvariant : Prop :=
  ∀ s t : State, s.Inv → step s = .next t → t.Inv

/-- Every admitted configuration's state after reset meets the invariant. -/
def Obligations.ResetMeetsTheInvariant : Prop :=
  ∀ (c : Cfg) (n : Nat), c.Admitted → (State.resetOf c n).Inv

/-- R110, R700: when `rst_n` returns to 1, every register and flag has its reset value, a command in flight is abandoned
without a completion, and every entry of DATA, CW, MOD and FN reads as a value of the new reset, of which nothing is said. (That an entry without a value reads as
one free value, fixed until it is written, and that the resets are counted to tell these values apart, is the model's form of
the first of U1's two readings: log entry 4; that the values are loaded on the rising edge: log entry 7.) -/
def Obligations.ReleasingResetGivesTheResetValues : Prop :=
  ∀ (s : State) (rest : List Event), s.cfg.Admitted → s.rstN = false → s.schedule = .rstN true :: rest →
    ∃ t, step s = .next t ∧ t.cfg = s.cfg ∧ t.rstN = true ∧ t.schedule = rest ∧ statusWord t = 0 ∧ t.ie = false ∧ t.pending = 0 ∧
      t.errInfo = 0 ∧ t.dlen = 0 ∧ t.result = 0 ∧ t.mask = 0 ∧ t.penalty = 0 ∧ t.penRun = 0 ∧ t.penBlock = 0 ∧
      t.penFinder = 0 ∧ t.penBalance = 0 ∧ darkWord t = 0 ∧ bestWord t = 0 ∧ t.bestPen = 0 ∧ t.fmt = 0 ∧ t.bits = 0 ∧
      queryWord t = 0 ∧ (∀ m < 8, t.trialPen[m]?.getD 0 = 0) ∧ t.trialValid = 0 ∧ (∀ i < 32, t.rem[i]?.getD 0 = 0) ∧
      t.resets = s.resets + 1 ∧ (∀ i, dataAt t i = Config.unwrittenData t.resets i) ∧
      (∀ i < t.cfg.rawCodewords, cwAt t i = Config.unwrittenCw t.resets i) ∧
      ∀ y < t.cfg.size, ∀ x < t.cfg.size,
        modAt t y x = Config.unwrittenMod t.resets y x ∧ fnAt t y x = Config.unwrittenFn t.resets y x

/-- R620: every command, rejected ones and illegal words included, ends with IRQ set and BUSY clear in its one Engine step.
IRQ is set by nothing else, and it stays set until a host write of 1 to STATUS bit 6, or the end of a reset (R110, R700),
clears it. (That a reset acts when rst_n returns to 1 is the model's choice: log entry 7; which events let the Engine move is
the model's schedule: log entries 2 and 18.) -/
def Obligations.EveryCommandCompletesOnceAndIrqIsSticky : Prop :=
  (∀ s : State, ∃ t, engineStep s = .next t ∧ t.irq = true ∧ t.busy = false) ∧
    (∀ s t : State, step s = .next t → s.irq = true → t.irq = false →
      (∃ a v rest, s.schedule = .write a v :: rest ∧ a &&& 0xFFC = 0x014 ∧ v.getLsbD 6 = true) ∨
        ∃ rest, s.schedule = .rstN true :: rest ∧ s.rstN = false) ∧
    ∀ s t : State, step s = .next t → s.irq = false → t.irq = true →
      s.busy = true ∧ (s.schedule = [] ∨ (∃ rest, s.schedule = .engineTurn :: rest) ∨ ∃ rest, s.schedule = .waitIdle 0 :: rest)

/-! ### Errors -/

/-- R541: a command outside its phases is rejected with SEQUENCE; an accepted command runs to its end without an error and
leaves the PHASE of the table. It holds in every PHASE, FAULT included: all it takes of the invariant is what the function
plane holds in INIT, FUNC, ECCD and PLACED. -/
def Obligations.PhaseTableHolds : Prop :=
  ∀ (i : Instr) (s : State), s.cfg.Admitted → s.FunctionsWf →
    (s.phase ∉ allowedPhases i → exec i s = .next (raiseReject .sequence s)) ∧
      (Accepts i s → ∃ t, exec i s = .next t ∧ t.phase = phaseAfter i s.phase ∧ t.err = s.err ∧ t.errCode = s.errCode ∧
        t.errInfo = s.errInfo ∧ t.errOvf = s.errOvf)

/-- R602: a command reports one error, the first that applies: ILLEGAL, then SEQUENCE, MASK_RANGE, DATA_LENGTH; an accepted
command reports none. -/
def Obligations.TheFirstErrorThatAppliesIsReported : Prop :=
  ∀ s : State,
    (Claims.IllegalWord s.pending → engineStep s = .next (raiseReject .illegal s)) ∧
      (∀ (i : Instr) (c : ErrCode), s.pending = encode i → firstReject i s = some c →
        engineStep s = .next (raiseReject c s)) ∧
      (∀ i : Instr, s.cfg.Admitted → s.FunctionsWf → s.pending = encode i → firstReject i s = none →
        ∃ t, engineStep s = .next t ∧ t.err = s.err ∧ t.errCode = s.errCode ∧ t.errOvf = s.errOvf)

/-- R603: a rejected command changes nothing but the error record, IRQ and BUSY, whether it fails one of its own checks or is
no command at all. -/
def Obligations.RejectIsPrecise : Prop :=
  ∀ s : State, (Claims.IllegalWord s.pending ∨ ∃ i, s.pending = encode i ∧ ¬ Accepts i s) →
    ∃ t, engineStep s = .next t ∧ t.err = true ∧ t.irq = true ∧ t.busy = false ∧ (s.err = true → t.errOvf = true) ∧
      { t with err := s.err, errCode := s.errCode, errInfo := s.errInfo, errOvf := s.errOvf, irq := s.irq, busy := s.busy } = s

/-- R610, R611: the first error since ERR was last cleared is kept, with the command word; a later one only sets ERROVF;
a Fault records the same way and also sets PHASE to FAULT. Both complete. -/
def Obligations.ErrorsAreRecordedOnceAndComplete : Prop :=
  ∀ (c : ErrCode) (s : State),
    (s.err = false → raiseReject c s =
      { s with err := true, errCode := some c, errInfo := s.pending, irq := true, busy := false }) ∧
    (s.err = true → raiseReject c s = { s with errOvf := true, irq := true, busy := false }) ∧
    raiseFault c s = { raiseReject c s with phase := .fault }

/-- R612: a STATUS write clears exactly the write-one-to-clear flags whose bits are 1, also while BUSY = 1; clearing ERR
clears ERRCODE and leaves ERRINFO. -/
def Obligations.StatusWriteClearsOnlyTheWrittenFlags : Prop :=
  ∀ (a : Offset) (v : Word) (s : State), s.rstN = true → a &&& 0xFFC = 0x014 →
    hostWrite a v s = { s with
      err := if v.getLsbD 4 then false else s.err
      errCode := if v.getLsbD 4 then none else s.errCode
      errOvf := if v.getLsbD 5 then false else s.errOvf
      irq := if v.getLsbD 6 then false else s.irq }

/-- The offsets of R160(b), as word offsets: CMD, DLEN, the DATA window and the MODROW window. -/
def Claims.EngineInput (o : Nat) : Prop := o = 0x018 ∨ o = 0x020 ∨ (0x400 ≤ o ∧ o ≤ 0x7FC) ∨ (0xC00 ≤ o ∧ o ≤ 0xDFC)

/-- R613: a write to CMD, DLEN, DATA or MODROW while BUSY = 1 is dropped and records the BUSY error with the word's offset,
without touching IRQ or the command in flight. (A MODROW word beyond the matrix counts: log entry 17.) -/
def Obligations.BusyWriteIsDroppedAndRecorded : Prop :=
  ∀ (a : Offset) (v : Word) (s : State), s.rstN = true → s.busy = true → Claims.EngineInput (a &&& 0xFFC).toNat →
    (s.err = false → hostWrite a v s =
      { s with err := true, errCode := some .busy, errInfo := BitVec.ofNat 32 (a &&& 0xFFC).toNat }) ∧
    (s.err = true → hostWrite a v s = { s with errOvf := true })

/-! ### The bus -/

/-- The words a write changes something of: CTRL, STATUS, QUERY and the Engine's inputs (R55). -/
def Claims.Writable (o : Nat) : Prop := o = 0x010 ∨ o = 0x014 ∨ o = 0x054 ∨ Claims.EngineInput o

/-- R152, R155: address bits 1..0 are ignored, and a write to a read-only or reserved word is ignored. R700: while `rst_n` is 0
every write is dropped, and a command in flight takes no step (the second is the model's reading: log entry 7). -/
def Obligations.OffsetsAreWordOffsetsAndOtherWritesAreIgnored : Prop :=
  (∀ (a b : Offset) (v : Word) (s : State), a &&& 0xFFC = b &&& 0xFFC →
    hostRead a s = hostRead b s ∧ hostWrite a v s = hostWrite b v s) ∧
  (∀ (a : Offset) (v : Word) (s : State), ¬ Claims.Writable (a &&& 0xFFC).toNat → hostWrite a v s = s) ∧
  ∀ s : State, s.rstN = false →
    (∀ (a : Offset) (v : Word), hostWrite a v s = s) ∧
      (s.cfg.Admitted → (s.schedule = [] → step s = .next s) ∧
        ∀ rest, s.schedule = .engineTurn :: rest → step s = .next { s with schedule := rest })

/-- R60, R63, R65, R621: an idle CMD write latches the word and sets BUSY, an idle DLEN write keeps the low byte, and a CTRL
write, also while BUSY = 1, sets IE to bit 0 and with it the `irq` output; each changes nothing else. R161: a host access is
one step of its own. -/
def Obligations.RegisterWritesTakeTheirFields : Prop :=
  ∀ (a : Offset) (v : Word) (s : State), s.rstN = true →
    (a &&& 0xFFC = 0x010 →
      hostWrite a v s = { s with ie := v.getLsbD 0 } ∧ irqPin (hostWrite a v s) = (s.irq && v.getLsbD 0)) ∧
    (s.busy = false → a &&& 0xFFC = 0x018 → hostWrite a v s = { s with pending := v, busy := true }) ∧
    (s.busy = false → a &&& 0xFFC = 0x020 → hostWrite a v s = { s with dlen := v.extractLsb' 0 8 }) ∧
    ∀ rest, s.cfg.Admitted →
      (s.schedule = .write a v :: rest → step s = .next (hostWrite a v { s with schedule := rest })) ∧
      (s.schedule = .read a :: rest → step s = .next (hostRead a { s with schedule := rest }))

/-- The words whose reads are stable while BUSY = 1: R160(d), and the words that read 0 at all times. -/
def Claims.StableRead (o : Nat) : Prop :=
  o ≤ 0x020 ∨ o = 0x054 ∨ (0x100 ≤ o ∧ o ≤ 0x17C) ∨ (0x400 ≤ o ∧ o ≤ 0x7FC) ∨
    o = 0x05C ∨ (0x084 ≤ o ∧ o ≤ 0x0FC) ∨ (0x200 ≤ o ∧ o ≤ 0x3FC)

/-- What an idle read at a byte offset answers. -/
def Claims.busValue (s : State) (a : Nat) : Word := readWord s (decodeOffset (BitVec.ofNat 12 a))

/-- Where R55 puts the registers and the read-only windows, and their layouts (R60, R63 to R73, R75, R76, R92 to R94). The
configuration registers, STATUS, QDATA, DATA, MODROW and FNROW have statements of their own. -/
def Claims.RegistersReadTheirFields (s : State) : Prop :=
  Claims.busValue s 0x010 = (BitVec.ofBool s.ie).setWidth 32 ∧ Claims.busValue s 0x018 = 0 ∧
    Claims.busValue s 0x01C = s.errInfo ∧ Claims.busValue s 0x020 = s.dlen.setWidth 32 ∧
    Claims.busValue s 0x024 = s.result.setWidth 32 ∧ Claims.busValue s 0x028 = s.mask.setWidth 32 ∧
    Claims.busValue s 0x02C = s.penalty ∧ Claims.busValue s 0x030 = s.penRun ∧ Claims.busValue s 0x034 = s.penBlock ∧
    Claims.busValue s 0x038 = s.penFinder ∧ Claims.busValue s 0x03C = s.penBalance ∧
    (Claims.busValue s 0x040).extractLsb' 0 16 = s.darkCount ∧ (Claims.busValue s 0x040).extractLsb' 16 4 = s.darkK ∧
    (Claims.busValue s 0x040).extractLsb' 20 12 = 0 ∧
    (Claims.busValue s 0x044).extractLsb' 0 3 = s.best ∧ (Claims.busValue s 0x044).extractLsb' 3 5 = 0 ∧
    (Claims.busValue s 0x044).getLsbD 8 = s.bestValid ∧ (Claims.busValue s 0x044).extractLsb' 9 23 = 0 ∧
    Claims.busValue s 0x048 = s.bestPen ∧ Claims.busValue s 0x04C = s.fmt.setWidth 32 ∧
    Claims.busValue s 0x050 = s.bits.setWidth 32 ∧
    (Claims.busValue s 0x054).extractLsb' 0 16 = s.qx ∧ (Claims.busValue s 0x054).extractLsb' 16 16 = s.qy ∧
    (∀ m < 8, Claims.busValue s (0x060 + 4 * m) = s.trialPen[m]?.getD 0) ∧
    Claims.busValue s 0x080 = s.trialValid.setWidth 32 ∧
    (∀ i < 32, Claims.busValue s (0x100 + 4 * i) = (genAt s.cfg i).setWidth 32 ∧
      Claims.busValue s (0x180 + 4 * i) = (s.rem[i]?.getD 0).setWidth 32) ∧
    (∀ i < 256, Claims.busValue s (0x800 + 4 * i) = (cwAt s i).setWidth 32 ∧
      (s.cfg.rawCodewords ≤ i → Claims.busValue s (0x800 + 4 * i) = 0)) ∧
    ∀ o : Nat, (0x05C ≤ o ∧ o ≤ 0x05F) ∨ (0x084 ≤ o ∧ o ≤ 0x0FF) ∨ (0x200 ≤ o ∧ o ≤ 0x3FF) → Claims.busValue s o = 0

/-- R154, R160: a read changes no state of the block; it answers the word's value while the Engine is idle and, for the
stable words, while it is busy; every other read while BUSY = 1, and every read in reset (R700), is a fresh unspecified value.
The word's value is what R55 and the rules of the registers put at its offset, field by field, and 0 at the reserved offsets.
(The words that read 0 at all times are stable too: log entry 9; the form of a fresh value: log entry 5.) -/
def Obligations.ReadsAnswerTheRegistersWithoutSideEffect : Prop :=
  (∀ (a : Offset) (s : State),
    { hostRead a s with rdata := s.rdata, draws := s.draws } = s ∧
    (s.rstN = true → (s.busy = false ∨ Claims.StableRead (a &&& 0xFFC).toNat) →
      hostRead a s = { s with rdata := readWord s (decodeOffset a) }) ∧
    ((s.rstN = false ∨ (s.busy = true ∧ ¬ Claims.StableRead (a &&& 0xFFC).toNat)) →
      hostRead a s = { s with rdata := Config.busDraw s.draws, draws := s.draws + 1 })) ∧
  ∀ s : State, Claims.RegistersReadTheirFields s

/-- R56 to R59: the identity and the configuration registers, field by field, for every admitted configuration. -/
def Obligations.ConfigurationRegistersShowTheConfiguration : Prop :=
  ∀ s : State, s.cfg.Admitted →
    Claims.busValue s 0x000 = 0x51520001 ∧
    ((Claims.busValue s 0x004).extractLsb' 0 4).toNat = s.cfg.version ∧
    (Claims.busValue s 0x004).extractLsb' 4 2 = s.cfg.ecl.bits ∧ (Claims.busValue s 0x004).extractLsb' 6 2 = 0 ∧
    ((Claims.busValue s 0x004).extractLsb' 8 8).toNat = s.cfg.size ∧
    ((Claims.busValue s 0x004).extractLsb' 16 8).toNat = s.cfg.numBlocks ∧
    ((Claims.busValue s 0x004).extractLsb' 24 8).toNat = s.cfg.eccLen ∧
    ((Claims.busValue s 0x008).extractLsb' 0 8).toNat = s.cfg.rawCodewords ∧
    ((Claims.busValue s 0x008).extractLsb' 8 8).toNat = s.cfg.dataCodewords ∧
    ((Claims.busValue s 0x008).extractLsb' 16 8).toNat = s.cfg.numShortBlocks ∧
    ((Claims.busValue s 0x008).extractLsb' 24 8).toNat = s.cfg.shortBlockLen ∧
    ((Claims.busValue s 0x00C).extractLsb' 0 8).toNat = s.cfg.n1 ∧
    ((Claims.busValue s 0x00C).extractLsb' 8 8).toNat = s.cfg.n2 ∧
    ((Claims.busValue s 0x00C).extractLsb' 16 8).toNat = s.cfg.n3 ∧
    ((Claims.busValue s 0x00C).extractLsb' 24 8).toNat = s.cfg.n4

/-- R61, R62, R601: STATUS as it is read, bit by bit, with the encoding of PHASE and the error codes. -/
def Obligations.StatusReadsItsFieldsAtTheirBits : Prop :=
  ∀ s : State,
    let w := Claims.busValue s 0x014
    w.getLsbD 0 = s.busy ∧
      w.extractLsb' 1 3 = (match s.phase with
        | .idle => 0 | .init => 1 | .func => 2 | .eccd => 3 | .placed => 4 | .done => 5 | .fault => 7) ∧
      w.getLsbD 4 = s.err ∧ w.getLsbD 5 = s.errOvf ∧
      w.getLsbD 6 = s.irq ∧ w.getLsbD 7 = s.fnValid ∧ w.getLsbD 8 = s.maskValid ∧ w.extractLsb' 9 3 = 0 ∧
      w.extractLsb' 12 4 = (match s.errCode with
        | none => 0 | some .illegal => 1 | some .sequence => 2 | some .maskRange => 3 | some .dataLength => 4
        | some .interleaveCount => 5 | some .bitCount => 6 | some .penaltyBound => 7 | some .busy => 8) ∧
      w.extractLsb' 16 16 = 0

/-- R73, R74: a QUERY write sets both coordinates, also while BUSY = 1, and an idle QDATA read then answers the module at
them, or 0 outside the matrix. -/
def Obligations.QueryReadsOneModule : Prop :=
  ∀ (s : State) (v : Word), s.rstN = true →
    let t := hostWrite 0x054 v s
    t = { s with qx := v.extractLsb' 0 16, qy := v.extractLsb' 16 16 } ∧
    (∀ x < s.cfg.size, ∀ y < s.cfg.size, (v.extractLsb' 0 16).toInt = x → (v.extractLsb' 16 16).toInt = y →
      Claims.busValue t 0x058 = if modAt s y x then 1 else 0) ∧
    (((v.extractLsb' 0 16).toInt < 0 ∨ (s.cfg.size : Int) ≤ (v.extractLsb' 0 16).toInt ∨
        (v.extractLsb' 16 16).toInt < 0 ∨ (s.cfg.size : Int) ≤ (v.extractLsb' 16 16).toInt) →
      Claims.busValue t 0x058 = 0)

/-- R95: an idle MODROW write sets exactly the cells of its half-row that exist, to the bits of the word, and touches no
other cell and no other state; the word then reads back its bits below SIZE. -/
def Obligations.ModRowWriteSetsItsCells : Prop :=
  ∀ (s : State) (v : Word) (y h : Nat), s.cfg.Admitted → s.rstN = true → s.busy = false → y < 64 → h < 2 →
    let t := hostWrite (BitVec.ofNat 12 (0xC00 + 8 * y + 4 * h)) v s
    { t with modPlane := s.modPlane } = s ∧
    (∀ y' < s.cfg.size, ∀ x' < s.cfg.size,
      modAt t y' x' = if y' = y ∧ 32 * h ≤ x' ∧ x' < 32 * h + 32 then v.getLsbD (x' - 32 * h) else modAt s y' x') ∧
    ∀ b < 32, (Claims.busValue t (0xC00 + 8 * y + 4 * h)).getLsbD b =
      (v.getLsbD b && decide (y < s.cfg.size ∧ 32 * h + b < s.cfg.size))

/-- R96: no bus access changes the function plane; FNROW reads the plane's cells while FNVALID = 1 and 0 while FNVALID = 0. -/
def Obligations.FunctionPlaneIsReadOnlyOnTheBus : Prop :=
  ∀ s : State,
    (∀ (a : Offset) (v : Word), (hostWrite a v s).fnPlane = s.fnPlane ∧ (hostRead a s).fnPlane = s.fnPlane) ∧
    ∀ y < 64, ∀ h < 2, ∀ b < 32, (Claims.busValue s (0xE00 + 8 * y + 4 * h)).getLsbD b =
      (s.fnValid && fnAt s y (32 * h + b))

/-- R91: an idle write to DATA[i] stores the low byte there and nowhere else, and it reads back with zeros above; no command
changes an entry of DATA. -/
def Obligations.OnlyHostWritesChangeData : Prop :=
  (∀ (s : State) (v : Word) (i : Nat), s.rstN = true → s.busy = false → i < 256 →
    let t := hostWrite (BitVec.ofNat 12 (0x400 + 4 * i)) v s
    { t with data := s.data } = s ∧ (∀ k, dataAt t k = if k = i then v.setWidth 8 else dataAt s k) ∧
      Claims.busValue t (0x400 + 4 * i) = (v.setWidth 8).setWidth 32) ∧
  ∀ (i : Instr) (s t : State), exec i s = .next t → ∀ k, dataAt t k = dataAt s k

/-! ### The Reed–Solomon unit -/

/-- The product of two polynomials over GF(2), unreduced (R250). -/
def Claims.carrylessProduct (x y : Byte) : BitVec 16 :=
  [0, 1, 2, 3, 4, 5, 6, 7].foldl
    (fun (acc : BitVec 16) (i : Nat) => if y.getLsbD i then acc ^^^ (x.setWidth 16 <<< i) else acc) 0

/-- The remainder of a polynomial of degree at most 14 modulo t^8 + t^4 + t^3 + t^2 + 1 (R250), from the highest power down. -/
def Claims.modPrimitive (p : BitVec 16) : Byte :=
  ([14, 13, 12, 11, 10, 9, 8].foldl
    (fun (acc : BitVec 16) (i : Nat) => if acc.getLsbD i then acc ^^^ (0x11D#16 <<< (i - 8)) else acc) p).setWidth 8

/-- R250, R251: `gf_mul` is the product of polynomials modulo 0x11D, and its laws. -/
def Obligations.GfMulIsTheFieldProduct : Prop :=
  (∀ x y : Byte, gfMul x y = Claims.modPrimitive (Claims.carrylessProduct x y)) ∧
  (∀ x y z : Byte, gfMul (gfMul x y) z = gfMul x (gfMul y z)) ∧ (∀ x y : Byte, gfMul x y = gfMul y x) ∧
  (∀ y : Byte, gfMul 0 y = 0 ∧ gfMul 1 y = y) ∧
  (∀ x y z : Byte, gfMul x y ^^^ gfMul x z = gfMul x (y ^^^ z)) ∧ gfMul 0x02 0x80 = 0x1D ∧ gfMul 0x80 0x80 = 0x13

/-- R253: the powers of α, and its order 255. -/
def Obligations.AlphaHasOrder255 : Prop :=
  gfAlphaPow 0 = 0x01 ∧ (∀ i < 255, gfAlphaPow (i + 1) = gfMul (gfAlphaPow i) 0x02) ∧ gfAlphaPow 255 = 0x01 ∧
    (∀ i < 255, 0 < i → gfAlphaPow i ≠ 0x01) ∧
    (List.range 16).map gfAlphaPow =
      [0x01, 0x02, 0x04, 0x08, 0x10, 0x20, 0x40, 0x80, 0x1D, 0x3A, 0x74, 0xE8, 0xCD, 0x87, 0x13, 0x26]

/-- R252: GFMUL sets RESULT to the product in every phase and for every pair of operands, and changes nothing else. -/
def Obligations.GfmulSetsResult : Prop :=
  ∀ (a b : Byte) (s : State),
    exec (.gfmul a b) s =
      .next { s with result := Claims.modPrimitive (Claims.carrylessProduct a b), irq := true, busy := false }

/-- The value at `x` of the polynomial whose coefficients are listed from the highest power down. -/
def Claims.evalPoly (x : Byte) (coeffs : List Byte) : Byte := coeffs.foldl (fun acc c => gfMul acc x ^^^ c) 0

/-- R255: the divisor of degree `d`, with its leading coefficient 1, vanishes at the roots α^0 to α^(d-1), and the ROM holds
its `d` stored coefficients and zeros after them (R93). -/
def Obligations.GeneratorDivisorHasItsRoots : Prop :=
  ∀ c : Cfg, 1 ≤ c.eccLen → c.eccLen ≤ 30 →
    (genDivisor c.eccLen).length = c.eccLen ∧ (∀ i < c.eccLen, Claims.evalPoly (gfAlphaPow i) (0x01 :: genDivisor c.eccLen) = 0) ∧
      (∀ j < c.eccLen, genAt c j = (genDivisor c.eccLen).getD j 0) ∧ ∀ j, c.eccLen ≤ j → genAt c j = 0

/-- R258, R255: data followed by its remainder vanishes at every root of the generator divisor, so g divides the codeword. -/
def Obligations.CodewordVanishesAtTheRoots : Prop :=
  ∀ (c : Cfg) (ds : List Byte), 1 ≤ c.eccLen → c.eccLen ≤ 30 →
    (rsRemainder c ds).length = c.eccLen ∧
      ∀ i < c.eccLen, Claims.evalPoly (gfAlphaPow i) (ds ++ rsRemainder c ds) = 0

/-- R260: dividing data followed by its remainder again gives remainder 0 in every entry. -/
def Obligations.RemainderOfACodewordIsZero : Prop :=
  ∀ (c : Cfg) (ds : List Byte), rsRemainder c (ds ++ rsRemainder c ds) = List.replicate c.eccLen 0

/-- R259: RSREM sets REM to the remainder of the first DLEN entries of DATA and zeros above ECC_LEN, in every phase and
whatever DLEN is, and changes nothing else. -/
def Obligations.RsremSetsRem : Prop :=
  ∀ s : State, s.cfg.eccLen ≤ 32 →
    ∃ r : Vector Byte 32, exec .rsrem s = .next { s with rem := r, irq := true, busy := false } ∧
      ∀ i < 32, r[i]?.getD 0 =
        if i < s.cfg.eccLen then (rsRemainder s.cfg ((List.range s.dlen.toNat).map (dataAt s))).getD i 0 else 0

/-- R263: the blocks cover the data codewords without a gap, the short blocks first. -/
def Obligations.BlocksCoverTheData : Prop :=
  ∀ c : Cfg, c.Admitted →
    blockStart c 0 = 0 ∧ blockStart c c.numBlocks = c.dataCodewords ∧
      (∀ j < c.numBlocks, blockStart c (j + 1) = blockStart c j + blockLen c j ∧
        blockLen c j = if j < c.numShortBlocks then c.shortDataLen else c.shortDataLen + 1) ∧
      1 ≤ c.numShortBlocks ∧ c.numShortBlocks ≤ c.numBlocks

/-- R262 to R266: ECC, accepted, writes CW and PHASE only. Where each byte goes: data column by column over the blocks, the
last data byte of the long blocks after them, then the ECC bytes column by column; the entries from RAW_CODEWORDS up still
read 0. -/
def Obligations.EccInterleavesTheBlocks : Prop :=
  ∀ s : State, s.cfg.Admitted → s.phase = .func → s.dlen.toNat = s.cfg.dataCodewords →
    ∃ m : Memory, exec .ecc s = .next { s with cw := m, phase := .eccd, irq := true, busy := false } ∧
      let t := { s with cw := m }
      (∀ j < s.cfg.numBlocks, ∀ k < s.cfg.shortDataLen,
        cwAt t (k * s.cfg.numBlocks + j) = dataAt s (blockStart s.cfg j + k)) ∧
      (∀ j < s.cfg.numBlocks, s.cfg.numShortBlocks ≤ j →
        cwAt t (s.cfg.shortDataLen * s.cfg.numBlocks + (j - s.cfg.numShortBlocks)) =
          dataAt s (blockStart s.cfg j + s.cfg.shortDataLen)) ∧
      (∀ j < s.cfg.numBlocks, ∀ k < s.cfg.eccLen,
        cwAt t (s.cfg.dataCodewords + k * s.cfg.numBlocks + j) =
          (rsRemainder s.cfg (dataSlice s (blockStart s.cfg j) (blockLen s.cfg j))).getD k 0) ∧
      ∀ i, s.cfg.rawCodewords ≤ i → cwAt t i = 0

/-! ### Function patterns, format information, placement -/

/-- The function cells after DRAWFN, by their regions (R309, R312, R315, R477): the finders with their separators, row 6 and
column 6, the alignment pattern, the format cells and the dark module. -/
def Claims.functionCell (c : Cfg) (x y : Nat) : Bool :=
  (x < 8 && y < 8) || (c.size - 8 ≤ x && y < 8) || (x < 8 && c.size - 8 ≤ y) || x == 6 || y == 6 ||
    (2 ≤ c.version && c.size - 9 ≤ x && x ≤ c.size - 5 && c.size - 9 ≤ y && y ≤ c.size - 5) ||
    (x == 8 && (y ≤ 8 || c.size - 8 ≤ y)) || (y == 8 && (x ≤ 8 || c.size - 8 ≤ x))

/-- The distance of two coordinates. -/
def Claims.dist (a b : Nat) : Nat := (a - b) + (b - a)

/-- Whether the finder or separator cell at `(x, y)` is dark, by its ring around `(cx, cy)` (R308). -/
def Claims.finderDark (cx cy x y : Nat) : Bool :=
  let d := max (Claims.dist x cx) (Claims.dist y cy)
  d != 2 && d != 4

/-- Whether the function cell at `(x, y)` is dark when format word `bits` is drawn (R306, R308, R310, R477, R479). -/
def Claims.functionDark (c : Cfg) (bits : BitVec 15) (x y : Nat) : Bool :=
  if x < 8 && y < 8 then Claims.finderDark 3 3 x y
  else if c.size - 8 ≤ x && y < 8 then Claims.finderDark (c.size - 4) 3 x y
  else if x < 8 && c.size - 8 ≤ y then Claims.finderDark 3 (c.size - 4) x y
  else if x == 6 then y % 2 == 0
  else if y == 6 then x % 2 == 0
  else if x == 8 && y ≤ 5 then bits.getLsbD y
  else if x == 8 && y == 7 then bits.getLsbD 6
  else if x == 8 && y == 8 then bits.getLsbD 7
  else if x == 7 && y == 8 then bits.getLsbD 8
  else if y == 8 && x ≤ 5 then bits.getLsbD (14 - x)
  else if y == 8 && c.size - 8 ≤ x then bits.getLsbD (c.size - 1 - x)
  else if x == 8 && y == c.size - 8 then true
  else if x == 8 && c.size - 7 ≤ y then bits.getLsbD (y + 15 - c.size)
  else max (Claims.dist x (c.size - 7)) (Claims.dist y (c.size - 7)) != 1

/-- R543: INIT makes every cell of both planes light, resets the per-construction registers, sets FNVALID, and leaves every
other register and buffer alone, in every phase. -/
def Obligations.InitStartsAConstruction : Prop :=
  ∀ s : State, ∃ (p q : Plane) (tp : Vector Word 8),
    exec .init s = .next { s with
      modPlane := p, fnPlane := q, trialPen := tp, trialValid := 0, fnValid := true, maskValid := false, mask := 0, best := 0,
      bestValid := false, bestPen := 0, fmt := 0, bits := 0, phase := .init, irq := true, busy := false } ∧
    (∀ y < 64, ∀ x < 64, p.get y x = false ∧ q.get y x = false) ∧ ∀ m < 8, tp[m]?.getD 1 = 0

/-- R305, R315: DRAWFN, accepted, writes FMT, PHASE and the planes only. FN is 1 exactly at the function cells; a function
cell of MOD is dark as its pattern says, with the placeholder format word of mask 0; every other cell of MOD is as before. -/
def Obligations.DrawfnDrawsTheFunctionPatterns : Prop :=
  ∀ s : State, s.Inv → s.phase = .init →
    ∃ p q : Plane, exec .drawfn s = .next { s with
      modPlane := p, fnPlane := q, fmt := formatWord s.cfg.ecl 0, phase := .func, irq := true, busy := false } ∧
    ∀ y < s.cfg.size, ∀ x < s.cfg.size, q.get y x = Claims.functionCell s.cfg x y ∧
      p.get y x =
        if Claims.functionCell s.cfg x y then Claims.functionDark s.cfg (formatWord s.cfg.ecl 0) x y else modAt s y x

/-- R316, R18: the number of data cells after DRAWFN, counted, for every version. -/
def Obligations.DataCellCountsPerVersion : Prop :=
  ∀ c : Cfg, 1 ≤ c.version → c.version ≤ 6 →
    ((List.range c.size).map fun y => ((List.range c.size).filter fun x => !Claims.functionCell c x y).length).sum =
        c.rawDataModules ∧
      c.rawDataModules = [208, 359, 567, 807, 1079, 1383].getD (c.version - 1) 0 ∧
      c.rawCodewords = [26, 44, 70, 100, 134, 172].getD (c.version - 1) 0 ∧ c.remainderBits = if c.version = 1 then 0 else 7

/-- R474: the thirty-two format words, and their distance: any two differ in at least 7 bit positions. -/
def Obligations.FormatWordTable : Prop :=
  (allMasks.map (formatWord .l) = [0x77C4, 0x72F3, 0x7DAA, 0x789D, 0x662F, 0x6318, 0x6C41, 0x6976]) ∧
  (allMasks.map (formatWord .m) = [0x5412, 0x5125, 0x5E7C, 0x5B4B, 0x45F9, 0x40CE, 0x4F97, 0x4AA0]) ∧
  (allMasks.map (formatWord .q) = [0x355F, 0x3068, 0x3F31, 0x3A06, 0x24B4, 0x2183, 0x2EDA, 0x2BED]) ∧
  (allMasks.map (formatWord .h) = [0x1689, 0x13BE, 0x1CE7, 0x19D0, 0x0762, 0x0255, 0x0D0C, 0x083B]) ∧
  ∀ (e f : Ecl) (m n : BitVec 3), (e, m) ≠ (f, n) →
    7 ≤ ((List.range 15).filter fun i => (formatWord e m).getLsbD i != (formatWord f n).getLsbD i).length

/-- R478: every `draw_format` writes the same 31 cells, so a later one overwrites all that an earlier one drew, and it sets no
new function cell. -/
def Obligations.LaterFormatDrawOverwritesTheEarlier : Prop :=
  (∀ (c : Cfg) (b d : BitVec 15), c.Admitted →
    (formatWrites c.size b).map (fun w => (w.x, w.y)) = (formatWrites c.size d).map (fun w => (w.x, w.y)) ∧
      ((formatWrites c.size b).map fun w => (w.x, w.y)).Nodup ∧ (formatWrites c.size b).length = 31) ∧
  ∀ (m n : BitVec 3) (s : State), s.cfg.Admitted →
    drawFormat n (drawFormat m s) = drawFormat n s ∧
      (drawFormat n (drawFormat m s)).fnPlane = (drawFormat m s).fnPlane

/-- The data cells in scan order, as `(x, y)`. -/
def Claims.dataCells (c : Cfg) : List (Nat × Nat) := (scanCells c.size).filter fun cell => !Claims.functionCell c cell.1 cell.2

/-- R352, R354, R355: the strips and their directions, and the scan cell by cell: strip `i` takes `SIZE` vertical steps, upward
if `i` is even and downward if it is odd, and at each step visits the right column and then the left. It visits every cell
outside column 6 exactly once. -/
def Obligations.ScanVisitsEveryCellOnce : Prop :=
  ∀ c : Cfg, 1 ≤ c.version → c.version ≤ 6 →
    strips c.size = ((List.range ((c.size - 7) / 2)).map fun i => c.size - 1 - 2 * i) ++ [5, 3, 1] ∧
      (strips c.size).length = (c.size - 1) / 2 ∧
      (∀ i r, (strips c.size)[i]? = some r → ((r + 1) &&& 2 = 0 ↔ i % 2 = 0) ∧
        ∀ v < c.size, ∀ j < 2,
          (scanCells c.size)[2 * c.size * i + 2 * v + j]? = some (r - j, if i % 2 = 0 then c.size - 1 - v else v)) ∧
      (scanCells c.size).length = 2 * c.size * ((c.size - 1) / 2) ∧ (scanCells c.size).Nodup ∧
      (∀ x < c.size, ∀ y < c.size, (x, y) ∈ scanCells c.size ↔ x ≠ 6) ∧
      ∀ cell ∈ scanCells c.size, cell.1 < c.size ∧ cell.2 < c.size

/-- R351, R353, R356, R357: PLACE, accepted, writes MOD, BITS and PHASE only. The k-th data cell of the scan takes bit k of the
codeword stream, most-significant bit of each codeword first; function cells and remainder cells are not written; BITS is
8 times RAW_CODEWORDS. -/
def Obligations.PlaceWritesTheCodewordBits : Prop :=
  ∀ s : State, s.Inv → s.phase = .eccd →
    ∃ p : Plane, exec .place s = .next { s with
      modPlane := p, bits := BitVec.ofNat 16 (8 * s.cfg.rawCodewords), phase := .placed, irq := true, busy := false } ∧
    8 * s.cfg.rawCodewords + s.cfg.remainderBits = (Claims.dataCells s.cfg).length ∧
    (∀ k < 8 * s.cfg.rawCodewords, ∀ x y, (Claims.dataCells s.cfg)[k]? = some (x, y) →
      p.get y x = (cwAt s (k / 8)).getLsbD (7 - k % 8)) ∧
    ∀ x < s.cfg.size, ∀ y < s.cfg.size,
      (x, y) ∉ (Claims.dataCells s.cfg).take (8 * s.cfg.rawCodewords) → p.get y x = modAt s y x

/-! ### Masking -/

/-- The cell at `(x, y)` holds bit `i` of the format word (R477). -/
def Claims.holdsFormatBit (c : Cfg) (i x y : Nat) : Prop := formatCopy1[i]? = some (x, y) ∨ (formatCopy2 c.size)[i]? = some (x, y)

/-- The cells `draw_format` writes: the format cells and the dark module (R476, R478). -/
def Claims.formatCell (c : Cfg) (x y : Nat) : Prop := (∃ i < 15, Claims.holdsFormatBit c i x y) ∨ (x = 8 ∧ y = c.size - 8)

/-- R383, R384: `applyMask(m)` inverts exactly the data cells where the predicate holds and changes nothing else, and applied
twice it restores the state. -/
def Obligations.MaskIsSelfInverse : Prop :=
  ∀ (m : BitVec 3) (s : State), s.cfg.Admitted →
    { applyMask m s with modPlane := s.modPlane } = s ∧
    (∀ y < s.cfg.size, ∀ x < s.cfg.size,
      modAt (applyMask m s) y x = (modAt s y x ^^ (maskPred m x y && !fnAt s y x))) ∧
    applyMask m (applyMask m s) = s

/-- R382: the tiles of the eight predicates, row by row from the top, and their periods. -/
def Obligations.MaskPredicateTiles : Prop :=
  (allMasks.map fun m => (List.range 6).map fun y => bitsOf 6 6 fun b => maskPred m (5 - b) y) =
    [[0b101010, 0b010101, 0b101010, 0b010101, 0b101010, 0b010101],
     [0b111111, 0b000000, 0b111111, 0b000000, 0b111111, 0b000000],
     [0b100100, 0b100100, 0b100100, 0b100100, 0b100100, 0b100100],
     [0b100100, 0b001001, 0b010010, 0b100100, 0b001001, 0b010010],
     [0b111000, 0b111000, 0b000111, 0b000111, 0b111000, 0b111000],
     [0b111111, 0b100000, 0b100100, 0b101010, 0b100100, 0b100000],
     [0b111111, 0b111000, 0b110110, 0b101010, 0b101101, 0b100011],
     [0b101010, 0b000111, 0b100011, 0b010101, 0b111000, 0b011100]] ∧
  ∀ x y : Nat,
    (∀ m : BitVec 3, maskPred m (x + 6) y = maskPred m x y ∧ (m ≠ 4 → maskPred m x (y + 6) = maskPred m x y)) ∧
    (∀ m : BitVec 3, m = 0 ∨ m = 1 → maskPred m (x + 2) y = maskPred m x y ∧ maskPred m x (y + 2) = maskPred m x y) ∧
    (∀ m : BitVec 3, m = 2 ∨ m = 3 → maskPred m (x + 3) y = maskPred m x y ∧ maskPred m x (y + 3) = maskPred m x y) ∧
    maskPred 4 x (y + 4) = maskPred 4 x y

/-- The module plane that is scored for mask `m`: masked, with the format word of `m` drawn (R385). -/
def Claims.trialPlane (m : BitVec 3) (s : State) : Plane := (drawFormat m (applyMask m s)).modPlane

/-- The total penalty of the trial of mask `m` from `s` (R385, R421). -/
def Claims.trialTotal (m : BitVec 3) (s : State) : Nat := (penaltyParts s.cfg (Claims.trialPlane m s)).total

/-- R385, R386, R387: TRIAL, accepted, leaves all of FN and every cell of MOD as before but the format cells and the dark module,
which hold the format word of m and dark; the penalty registers hold the score of the masked plane with that word; TRIALPEN, TRIALVALID and BEST take it in;
nothing else changes. -/
def Obligations.TrialScoresWithoutCommitting : Prop :=
  ∀ (m : BitVec 4) (k : BitVec 3) (s : State), s.Inv → s.phase = .placed → m.toNat = k.toNat →
    let q := penaltyParts s.cfg (Claims.trialPlane k s)
    let total : Word := BitVec.ofNat 32 q.total
    let better : Bool := !s.bestValid || decide (total < s.bestPen) || (decide (total = s.bestPen) && decide (k < s.best))
    ∃ (p : Plane) (tp : Vector Word 8) (tv : BitVec 8), exec (.trial m) s = .next { s with
      modPlane := p, fmt := formatWord s.cfg.ecl k, penalty := total, penRun := BitVec.ofNat 32 q.p1,
      penBlock := BitVec.ofNat 32 q.p2, penFinder := BitVec.ofNat 32 q.p3, penBalance := BitVec.ofNat 32 q.p4,
      darkCount := BitVec.ofNat 16 q.dark, darkK := BitVec.ofNat 4 q.k, trialPen := tp, trialValid := tv,
      best := if better then k else s.best, bestValid := true, bestPen := if better then total else s.bestPen,
      irq := true, busy := false } ∧
    q.total < 2 ^ 32 ∧
    (∀ j < 8, tp[j]?.getD 0 = if j = k.toNat then total else s.trialPen[j]?.getD 0) ∧
    (∀ j < 8, tv.getLsbD j = (decide (j = k.toNat) || s.trialValid.getLsbD j)) ∧
    p.get (s.cfg.size - 8) 8 = true ∧
    ∀ y < s.cfg.size, ∀ x < s.cfg.size,
      (¬ Claims.formatCell s.cfg x y → p.get y x = modAt s y x) ∧
      ∀ i < 15, Claims.holdsFormatBit s.cfg i x y → p.get y x = (formatWord s.cfg.ecl k).getLsbD i

/-- R387: two trials' results taken into BEST in either order give the same BEST, BESTVALID and BESTPEN. -/
def Obligations.BestDoesNotDependOnTheOrderOfTrials : Prop :=
  ∀ (m n : BitVec 3) (p q : Word) (s : State), updateBest m p (updateBest n q s) = updateBest n q (updateBest m p s)

/-- R390: explicit COMMIT, accepted, masks the data cells with m, draws the format word of m and the dark module, leaves the other
function cells as they are, sets MASK and MASKVALID, frees the
function plane and ends in DONE; no penalty register, TRIALPEN, TRIALVALID or BEST changes. -/
def Obligations.ExplicitCommitAppliesTheMask : Prop :=
  ∀ (m : BitVec 4) (k : BitVec 3) (s : State), s.Inv → s.phase = .placed → m.toNat = k.toNat →
    ∃ p : Plane, exec (.commit m) s = .next { s with
      modPlane := p, fmt := formatWord s.cfg.ecl k, mask := k, maskValid := true, fnValid := false, phase := .done,
      irq := true, busy := false } ∧
    p.get (s.cfg.size - 8) 8 = true ∧
    ∀ y < s.cfg.size, ∀ x < s.cfg.size,
      (¬ Claims.formatCell s.cfg x y →
        p.get y x = (modAt s y x ^^ (maskPred k x y && !Claims.functionCell s.cfg x y))) ∧
      ∀ i < 15, Claims.holdsFormatBit s.cfg i x y → p.get y x = (formatWord s.cfg.ecl k).getLsbD i

/-- R391, R388: auto COMMIT commits the mask with the least penalty of the eight, and of equal ones the smallest index; all
eight trials are recorded, each with the penalty of its own masked plane; PENALTY holds the last one's; nothing but what COMMIT
and the trials write changes. -/
def Obligations.AutoCommitPicksTheLeastPenalty : Prop :=
  ∀ s : State, s.Inv → s.phase = .placed →
    ∃ (t : State), exec (.commit 15) s = .next t ∧ t.phase = .done ∧ t.maskValid = true ∧ t.fnValid = false ∧
      t.mask = t.best ∧ t.bestValid = true ∧ t.trialValid = 0xFF ∧ t.fmt = formatWord s.cfg.ecl t.mask ∧
      (∀ m : BitVec 3, t.trialPen[m.toNat]?.getD 0 = BitVec.ofNat 32 (Claims.trialTotal m s)) ∧
      t.bestPen = BitVec.ofNat 32 (Claims.trialTotal t.mask s) ∧ t.penalty = BitVec.ofNat 32 (Claims.trialTotal 7 s) ∧
      (∀ m : BitVec 3, Claims.trialTotal t.mask s ≤ Claims.trialTotal m s ∧
        (Claims.trialTotal m s = Claims.trialTotal t.mask s → t.mask ≤ m)) ∧
      (∀ y < s.cfg.size, ∀ x < s.cfg.size, modAt t y x = (Claims.trialPlane t.mask s).get y x) ∧
      { t with
        modPlane := s.modPlane, fmt := s.fmt, mask := s.mask, maskValid := s.maskValid, fnValid := s.fnValid, phase := s.phase,
        penalty := s.penalty, penRun := s.penRun, penBlock := s.penBlock, penFinder := s.penFinder,
        penBalance := s.penBalance, darkCount := s.darkCount, darkK := s.darkK, trialPen := s.trialPen,
        trialValid := s.trialValid, best := s.best, bestValid := s.bestValid, bestPen := s.bestPen, irq := s.irq,
        busy := s.busy } = s

/-- R445: after auto COMMIT, the command PENALTY scores the final symbol at exactly BESTPEN. -/
def Obligations.PenaltyAfterAutoCommitIsBestpen : Prop :=
  ∀ s : State, s.Inv → s.phase = .placed →
    ∃ t u : State, exec (.commit 15) s = .next t ∧ exec .penalty t = .next u ∧ u.penalty = t.bestPen ∧
      u.phase = .done ∧ u.modPlane = t.modPlane

/-- R393, R479: after COMMIT with any mask the module at (8, SIZE-8) is dark. -/
def Obligations.DarkModuleIsDarkAfterCommit : Prop :=
  ∀ (m : BitVec 4) (s : State), s.Inv → Accepts (.commit m) s →
    ∃ t, exec (.commit m) s = .next t ∧ modAt t (s.cfg.size - 8) 8 = true

/-! ### The penalty -/

/-- R440: no module plane's penalty exceeds PENALTY_BOUND, for any configuration, component by component; its largest value
over the admitted configurations is below 2^22. -/
def Obligations.PenaltyIsBounded : Prop :=
  (∀ (c : Cfg) (p : Plane),
    (penaltyParts c p).p1 ≤ 2 * c.size * c.size * (1 + c.n1) ∧ (penaltyParts c p).p2 ≤ (c.size - 1) ^ 2 * c.n2 ∧
      (penaltyParts c p).p3 ≤ 2 * c.size * (c.size + 2) * 2 * c.n3 ∧ (penaltyParts c p).p4 ≤ 9 * c.n4 ∧
      (penaltyParts c p).total ≤ 2 * c.size ^ 2 * (1 + c.n1) + (c.size - 1) ^ 2 * c.n2 + 4 * c.size * (c.size + 2) * c.n3 + 9 * c.n4) ∧
    (∀ c : Cfg, c.n1 = 3 → c.n2 = 3 → c.n3 = 40 → c.n4 = 10 →
      (c.version = 1 → c.penaltyBound = 82098) ∧ (c.version = 6 → c.penaltyBound = 300418)) ∧
    ∀ c : Cfg, c.Admitted → c.penaltyBound < 2 ^ 22

/-- The lengths of the maximal runs of equal modules of a line. -/
def Claims.runLengths (line : List Bool) : List Nat := (line.splitBy (· == ·)).map List.length

/-- The runs of a line, light first and light last, the first and the last lengthened by SIZE (R428, R430): the maximal runs
once the light border is written on both sides. -/
def Claims.borderedRuns (size : Nat) (line : List Bool) : List Nat :=
  Claims.runLengths (List.replicate size false ++ line ++ List.replicate size false)

/-- How often seven runs that begin and end light match: dark, light, dark, light, dark as 1:1:3:1:1, with 4 units of light on
one side and 1 on the other (R429). -/
def Claims.finderMatches (r : Nat → Nat) : Nat :=
  if 0 < r 1 ∧ r 2 = r 1 ∧ r 3 = 3 * r 1 ∧ r 4 = r 1 ∧ r 5 = r 1 then
    (if 4 * r 1 ≤ r 0 ∧ r 1 ≤ r 6 then 1 else 0) + (if 4 * r 1 ≤ r 6 ∧ r 1 ≤ r 0 then 1 else 0)
  else 0

/-- R426, R427: a line's run sub-score is the sum over its maximal runs, of either colour, of 0 below length 5 and
N1 + (L - 5) from 5 up. What R428 to R430 come to: its finder score is N3 for every match of seven consecutive runs, the first
of them light, among the runs with the border's SIZE added to the first and to the last. -/
def Obligations.LineScoresFollowTheMaximalRuns : Prop :=
  ∀ (c : Cfg) (line : List Bool),
    (lineScore c line).1 = ((Claims.runLengths line).map fun len => if len < 5 then 0 else c.n1 + (len - 5)).sum ∧
      let runs := Claims.borderedRuns c.size line
      (lineScore c line).2 =
        c.n3 * ((List.range runs.length).map fun i =>
          if 2 * i + 6 < runs.length then Claims.finderMatches fun j => runs.getD (2 * i + j) 0 else 0).sum

/-- R436: the balance index is the least k with the dark share within 45 - 5k and 55 + 5k per cent, ends included; it is at
most 9. (R436 also says that k = 9 exactly when every module has one colour; its own inequality gives 9 to every share below
5 or above 95 per cent. The model follows the inequality, and this statement says what that gives: log entry 16.) -/
def Obligations.BalanceIndexIsTheLeast : Prop :=
  ∀ dark total : Nat, 0 < total → dark ≤ total →
    let k := balanceIndex dark total
    (45 - 5 * (k : Int)) * total ≤ 100 * dark ∧ 100 * (dark : Int) ≤ (55 + 5 * k) * total ∧
      (∀ j : Nat, (45 - 5 * (j : Int)) * total ≤ 100 * dark → 100 * (dark : Int) ≤ (55 + 5 * j) * total → k ≤ j) ∧
      k ≤ 9 ∧ (k = 9 ↔ 20 * dark < total ∨ 19 * total < 20 * dark)

/-- R420: the penalty is a function of the modules of the matrix and the configuration alone, whatever else the states
hold; and its evaluation writes no cell. -/
def Obligations.PenaltyReadsOnlyTheModules : Prop :=
  (∀ s u : State, u.cfg = s.cfg → (∀ y < s.cfg.size, ∀ x < s.cfg.size, modAt u y x = modAt s y x) →
    penaltyParts u.cfg u.modPlane = penaltyParts s.cfg s.modPlane) ∧
  ∀ s : State, s.cfg.Admitted → ∃ t, evaluatePenalty s = .done t ∧ t.modPlane = s.modPlane ∧ t.fnPlane = s.fnPlane

/-- The cells `(x, y)` with both coordinates below `n`. -/
def Claims.cellsBelow (n : Nat) : List (Nat × Nat) :=
  (List.range n).flatMap fun y => (List.range n).map fun x => (x, y)

/-- The 2×2 window with its top-left cell at `(x, y)` has one colour (R433). -/
def Claims.oneColour (p : Plane) (x y : Nat) : Prop :=
  p.get y x = p.get y (x + 1) ∧ p.get y x = p.get (y + 1) x ∧ p.get y x = p.get (y + 1) (x + 1)

/-- R421, R433, R435: the components of every plane's penalty. P1 and P3 are sums over the rows and columns, P2 is N2 for each
2×2 window of one colour, P4 is N4 for each step of the balance index of the number of dark cells. R421, R445: PENALTY,
accepted, writes the penalty of the current module plane and its components to the result registers, their sum to PENALTY, and
nothing else; no cell changes. -/
def Obligations.PenaltyScoresTheModulePlane : Prop :=
  (∀ (c : Cfg) (p : Plane),
    let q := penaltyParts c p
    let lines := ((List.range c.size).map fun y => (List.range c.size).map fun x => p.get y x) ++
      ((List.range c.size).map fun x => (List.range c.size).map fun y => p.get y x)
    q.p1 = (lines.map fun line => (lineScore c line).1).sum ∧ q.p3 = (lines.map fun line => (lineScore c line).2).sum ∧
      (∃ windows : List (Nat × Nat), windows.Nodup ∧ q.p2 = c.n2 * windows.length ∧
        ∀ x y, (x, y) ∈ windows ↔ x + 1 < c.size ∧ y + 1 < c.size ∧ Claims.oneColour p x y) ∧
      q.dark = ((Claims.cellsBelow c.size).filter fun cell => p.get cell.2 cell.1).length ∧
      q.k = balanceIndex q.dark (c.size * c.size) ∧ q.p4 = q.k * c.n4) ∧
  ∀ s : State, s.cfg.Admitted → s.phase ∈ [Phase.init, .func, .eccd, .placed, .done] →
    let q := penaltyParts s.cfg s.modPlane
    exec .penalty s = .next { s with
      penalty := BitVec.ofNat 32 (q.p1 + q.p2 + q.p3 + q.p4), penRun := BitVec.ofNat 32 q.p1, penBlock := BitVec.ofNat 32 q.p2,
      penFinder := BitVec.ofNat 32 q.p3, penBalance := BitVec.ofNat 32 q.p4, darkCount := BitVec.ofNat 16 q.dark,
      darkK := BitVec.ofNat 4 q.k, irq := true, busy := false }

/-! ### Control and frames -/

/-- R542: NOP changes nothing but IRQ and BUSY, in every phase. -/
def Obligations.NopOnlyCompletes : Prop :=
  ∀ s : State, exec .nop s = .next { s with irq := true, busy := false }

/-- R545: an accepted ENCODE gives the state that INIT, DRAWFN, ECC, PLACE and COMMIT with the same operand give one after the
other, and each of the five completes. -/
def Obligations.EncodeEqualsTheStepwiseSequence : Prop :=
  ∀ (m : BitVec 4) (s : State), s.cfg.Admitted → Accepts (.encode m) s →
    ∃ s1 s2 s3 s4 t : State, exec .init s = .next s1 ∧ exec .drawfn s1 = .next s2 ∧ exec .ecc s2 = .next s3 ∧
      exec .place s3 = .next s4 ∧ exec (.commit m) s4 = .next t ∧ exec (.encode m) s = .next t ∧ t.phase = .done ∧
      t.err = s.err

/-- R51, R544, R547, R66, R92, R94: no command changes the host's inputs (CTRL, DLEN, QUERY, DATA, PENDING, the configuration,
the pins, the events still to come), only GFMUL writes RESULT, only RSREM writes REM, and only ECC and ENCODE write CW. (That
PENDING keeps the word after completion is the model's reading: log entry 15.) -/
def Obligations.CommandsWriteOnlyTheirOwnRegisters : Prop :=
  ∀ (i : Instr) (s t : State), exec i s = .next t →
    (t.cfg = s.cfg ∧ t.ie = s.ie ∧ t.dlen = s.dlen ∧ t.qx = s.qx ∧ t.qy = s.qy ∧ t.data = s.data ∧ t.pending = s.pending ∧
      t.rstN = s.rstN ∧ t.rdata = s.rdata ∧ t.schedule = s.schedule ∧ t.draws = s.draws ∧ t.resets = s.resets) ∧
    ((∀ a b, i ≠ .gfmul a b) → t.result = s.result) ∧ (i ≠ .rsrem → t.rem = s.rem) ∧
    (i ≠ .ecc → (∀ m, i ≠ .encode m) → ∀ k, cwAt t k = cwAt s k)

/-- R97: after DRAWFN, until the next INIT (ENCODE begins with one), no command changes a cell of the function plane: DRAWFN
itself is rejected, and the format redraws of TRIAL and COMMIT set cells that are set. -/
def Obligations.FunctionCellsAreImmutableAfterDrawfn : Prop :=
  ∀ (i : Instr) (s t : State), s.cfg.Admitted → s.FunctionsWf → s.phase ≠ .init → i ≠ .init → (∀ m, i ≠ .encode m) →
    exec i s = .next t → t.fnPlane = s.fnPlane

/-- R506 (a function of the host, outside the block: log entry 18): the host's reference function fits exactly the byte strings
of at most min(255, DATA_CODEWORDS - 2) bytes, and its result has DATA_CODEWORDS bytes. With fewer than 2 data codewords it fits
none, the empty string included, where R507 says otherwise (the model's choice: log entry 21). -/
def Obligations.HostCodewordsFillTheCapacity : Prop :=
  ∀ (c : Cfg) (text : List Byte),
    (2 ≤ c.dataCodewords →
      (text.length ≤ min 255 (c.dataCodewords - 2) ↔ ∃ ds, hostCodewordsOf c text = some ds)) ∧
      (c.dataCodewords < 2 → hostCodewordsOf c text = none) ∧
      ∀ ds, hostCodewordsOf c text = some ds → ds.length = c.dataCodewords
end

