-- ==== Sys2Proof/Laws/Memory.lean ====
section
/-! SUPPORT. The laws of the RAMs: read after write, other entries unchanged, and the canonical form is kept. -/

namespace Sys2Proof.Machine

@[simp] theorem read?_nil (a : Nat) : Memory.read? [] a = none := rfl

/-- Reading an entry just written gives the value; every other entry reads as before. -/
theorem read?_write (m : Memory) (a b : Nat) (v : Byte) :
    (m.write a v).read? b = if b = a then some v else m.read? b := by
  induction m with
  | nil => by_cases h : a = b <;> simp [Memory.write, Memory.read?, h, Ne.symm]
  | cons cell m ih =>
    obtain ⟨k, w⟩ := cell
    simp only [Memory.write]
    split
    · simp only [Memory.read?, eq_comm (a := a)]
    · split
      · rename_i heq
        subst heq
        by_cases h : a = b <;> simp [Memory.read?, h, Ne.symm]
      · rename_i hne
        simp only [Memory.read?, ih]
        by_cases hk : k = b
        · subst hk; simp [Ne.symm hne]
        · simp [hk]

@[simp] theorem read?_write_same (m : Memory) (a : Nat) (v : Byte) : (m.write a v).read? a = some v := by simp [read?_write]

theorem read?_write_other (m : Memory) {a b : Nat} (v : Byte) (h : b ≠ a) : (m.write a v).read? b = m.read? b := by
  simp [read?_write, h]

/-- What a run of writes leaves: the values, in turn, from the first entry up, and every other entry as before. -/
theorem read?_writeFrom (vs : List Byte) (m : Memory) (a b : Nat) :
    (m.writeFrom a vs).read? b = if a ≤ b ∧ b < a + vs.length then vs[b - a]? else m.read? b := by
  induction vs generalizing m a with
  | nil =>
    have h : ¬(a ≤ b ∧ b < a + ([] : List Byte).length) := by simp
    rw [if_neg h]; rfl
  | cons v vs ih =>
    rw [Memory.writeFrom, ih, read?_write]
    rcases Nat.lt_trichotomy b a with h | h | h
    · have h1 : ¬(a + 1 ≤ b ∧ b < a + 1 + vs.length) := by omega
      have h2 : ¬(a ≤ b ∧ b < a + (v :: vs).length) := by omega
      simp only [h1, h2, if_false]
      simp [Nat.ne_of_lt h]
    · subst h
      simp
    · obtain ⟨d, rfl⟩ : ∃ d, b = a + 1 + d := ⟨b - a - 1, by omega⟩
      have e1 : a + 1 + d - a = d + 1 := by omega
      have e2 : a + 1 + d - (a + 1) = d := by omega
      have e3 : a + 1 + d ≠ a := by omega
      simp only [e1, e2, e3, if_false, List.getElem?_cons_succ, List.length_cons]
      congr 1
      apply propext
      omega

/-- A cell of a written memory is the one written or an old one. -/
theorem mem_write {m : Memory} {a : Nat} {v : Byte} {cell : Host.Cell} (h : cell ∈ m.write a v) :
    cell = (a, v) ∨ cell ∈ m := by
  induction m with
  | nil => simpa [Memory.write] using h
  | cons c m ih =>
    obtain ⟨k, w⟩ := c
    simp only [Memory.write] at h
    split at h
    · simpa using h
    · split at h
      · rcases List.mem_cons.1 h with h | h
        · exact .inl h
        · exact .inr (List.mem_cons_of_mem _ h)
      · rcases List.mem_cons.1 h with h | h
        · exact .inr (by simp [h])
        · exact (ih h).imp id (List.mem_cons_of_mem _)

/-- The canonical form in terms of the first cell and the rest. -/
theorem wf_cons (k : Nat) (w : Byte) (m : Memory) :
    Memory.wf ((k, w) :: m) = true ↔ (∀ cell ∈ m, k < cell.1) ∧ m.wf = true := by
  induction m generalizing k w with
  | nil => simp [Memory.wf]
  | cons c m ih =>
    obtain ⟨j, u⟩ := c
    simp only [Memory.wf, Bool.and_eq_true, decide_eq_true_eq, ih, List.mem_cons, forall_eq_or_imp]
    constructor
    · rintro ⟨h, hm, hw⟩
      exact ⟨⟨h, fun c hc => h.trans (hm c hc)⟩, hm, hw⟩
    · rintro ⟨⟨h, -⟩, hm, hw⟩
      exact ⟨h, hm, hw⟩

/-- A write keeps the canonical form. -/
theorem wf_write {m : Memory} (h : m.wf = true) (a : Nat) (v : Byte) : (m.write a v).wf = true := by
  induction m with
  | nil => rfl
  | cons c m ih =>
    obtain ⟨k, w⟩ := c
    obtain ⟨hm, hw⟩ := (wf_cons k w m).1 h
    simp only [Memory.write]
    split
    · rename_i hlt
      refine (wf_cons a v _).2 ⟨?_, h⟩
      intro cell hc
      rcases List.mem_cons.1 hc with rfl | hc
      · exact hlt
      · exact hlt.trans (hm cell hc)
    · split
      · rename_i heq
        subst heq
        exact (wf_cons a v m).2 ⟨hm, hw⟩
      · refine (wf_cons k w _).2 ⟨?_, ih hw⟩
        intro cell hc
        rcases mem_write hc with rfl | hc
        · simp only; omega
        · exact hm cell hc

/-- A run of writes keeps the canonical form. -/
theorem wf_writeFrom (vs : List Byte) {m : Memory} (h : m.wf = true) (a : Nat) : (m.writeFrom a vs).wf = true := by
  induction vs generalizing m a with
  | nil => exact h
  | cons v vs ih => exact ih (wf_write h a v) (a + 1)

/-- The cells of a memory after a run of writes have an index of the run or an old index. -/
theorem mem_writeFrom {vs : List Byte} {m : Memory} {a : Nat} {cell : Host.Cell} (h : cell ∈ m.writeFrom a vs) :
    (a ≤ cell.1 ∧ cell.1 < a + vs.length) ∨ cell ∈ m := by
  induction vs generalizing m a with
  | nil => exact .inr h
  | cons v vs ih =>
    rcases ih (m := m.write a v) h with h | h
    · left; simp only [List.length_cons]; omega
    · rcases mem_write h with rfl | h
      · left; simp
      · exact .inr h

end Sys2Proof.Machine
end

