-- ==== Sys2Proof/Laws/State.lean ====
section
/-! SUPPORT. What each update of the state leaves in each field: one lemma per field per update. -/

namespace Sys2Proof.Machine

/-! `complete` -/

@[simp] theorem complete_cfg (s : State) : (complete s).cfg = s.cfg := rfl
@[simp] theorem complete_ie (s : State) : (complete s).ie = s.ie := rfl
@[simp] theorem complete_busy (s : State) : (complete s).busy = false := rfl
@[simp] theorem complete_phase (s : State) : (complete s).phase = s.phase := rfl
@[simp] theorem complete_err (s : State) : (complete s).err = s.err := rfl
@[simp] theorem complete_errOvf (s : State) : (complete s).errOvf = s.errOvf := rfl
@[simp] theorem complete_irq (s : State) : (complete s).irq = true := rfl
@[simp] theorem complete_fnValid (s : State) : (complete s).fnValid = s.fnValid := rfl
@[simp] theorem complete_maskValid (s : State) : (complete s).maskValid = s.maskValid := rfl
@[simp] theorem complete_errCode (s : State) : (complete s).errCode = s.errCode := rfl
@[simp] theorem complete_errInfo (s : State) : (complete s).errInfo = s.errInfo := rfl
@[simp] theorem complete_pending (s : State) : (complete s).pending = s.pending := rfl
@[simp] theorem complete_dlen (s : State) : (complete s).dlen = s.dlen := rfl
@[simp] theorem complete_result (s : State) : (complete s).result = s.result := rfl
@[simp] theorem complete_mask (s : State) : (complete s).mask = s.mask := rfl
@[simp] theorem complete_penalty (s : State) : (complete s).penalty = s.penalty := rfl
@[simp] theorem complete_penRun (s : State) : (complete s).penRun = s.penRun := rfl
@[simp] theorem complete_penBlock (s : State) : (complete s).penBlock = s.penBlock := rfl
@[simp] theorem complete_penFinder (s : State) : (complete s).penFinder = s.penFinder := rfl
@[simp] theorem complete_penBalance (s : State) : (complete s).penBalance = s.penBalance := rfl
@[simp] theorem complete_darkCount (s : State) : (complete s).darkCount = s.darkCount := rfl
@[simp] theorem complete_darkK (s : State) : (complete s).darkK = s.darkK := rfl
@[simp] theorem complete_best (s : State) : (complete s).best = s.best := rfl
@[simp] theorem complete_bestValid (s : State) : (complete s).bestValid = s.bestValid := rfl
@[simp] theorem complete_bestPen (s : State) : (complete s).bestPen = s.bestPen := rfl
@[simp] theorem complete_fmt (s : State) : (complete s).fmt = s.fmt := rfl
@[simp] theorem complete_bits (s : State) : (complete s).bits = s.bits := rfl
@[simp] theorem complete_qx (s : State) : (complete s).qx = s.qx := rfl
@[simp] theorem complete_qy (s : State) : (complete s).qy = s.qy := rfl
@[simp] theorem complete_trialPen (s : State) : (complete s).trialPen = s.trialPen := rfl
@[simp] theorem complete_trialValid (s : State) : (complete s).trialValid = s.trialValid := rfl
@[simp] theorem complete_rem (s : State) : (complete s).rem = s.rem := rfl
@[simp] theorem complete_data (s : State) : (complete s).data = s.data := rfl
@[simp] theorem complete_cw (s : State) : (complete s).cw = s.cw := rfl
@[simp] theorem complete_modPlane (s : State) : (complete s).modPlane = s.modPlane := rfl
@[simp] theorem complete_fnPlane (s : State) : (complete s).fnPlane = s.fnPlane := rfl
@[simp] theorem complete_rstN (s : State) : (complete s).rstN = s.rstN := rfl
@[simp] theorem complete_rdata (s : State) : (complete s).rdata = s.rdata := rfl
@[simp] theorem complete_schedule (s : State) : (complete s).schedule = s.schedule := rfl
@[simp] theorem complete_draws (s : State) : (complete s).draws = s.draws := rfl
@[simp] theorem complete_resets (s : State) : (complete s).resets = s.resets := rfl

/-! `clearFlags` -/

@[simp] theorem clearFlags_cfg (v : Word) (s : State) : (clearFlags v s).cfg = s.cfg := rfl
@[simp] theorem clearFlags_ie (v : Word) (s : State) : (clearFlags v s).ie = s.ie := rfl
@[simp] theorem clearFlags_busy (v : Word) (s : State) : (clearFlags v s).busy = s.busy := rfl
@[simp] theorem clearFlags_phase (v : Word) (s : State) : (clearFlags v s).phase = s.phase := rfl
@[simp] theorem clearFlags_err (v : Word) (s : State) : (clearFlags v s).err = (s.err && !v.getLsbD 4) := rfl
@[simp] theorem clearFlags_errOvf (v : Word) (s : State) : (clearFlags v s).errOvf = (s.errOvf && !v.getLsbD 5) := rfl
@[simp] theorem clearFlags_irq (v : Word) (s : State) : (clearFlags v s).irq = (s.irq && !v.getLsbD 6) := rfl
@[simp] theorem clearFlags_fnValid (v : Word) (s : State) : (clearFlags v s).fnValid = s.fnValid := rfl
@[simp] theorem clearFlags_maskValid (v : Word) (s : State) : (clearFlags v s).maskValid = s.maskValid := rfl
@[simp] theorem clearFlags_errCode (v : Word) (s : State) : (clearFlags v s).errCode = if v.getLsbD 4 then none else s.errCode := rfl
@[simp] theorem clearFlags_errInfo (v : Word) (s : State) : (clearFlags v s).errInfo = s.errInfo := rfl
@[simp] theorem clearFlags_pending (v : Word) (s : State) : (clearFlags v s).pending = s.pending := rfl
@[simp] theorem clearFlags_dlen (v : Word) (s : State) : (clearFlags v s).dlen = s.dlen := rfl
@[simp] theorem clearFlags_result (v : Word) (s : State) : (clearFlags v s).result = s.result := rfl
@[simp] theorem clearFlags_mask (v : Word) (s : State) : (clearFlags v s).mask = s.mask := rfl
@[simp] theorem clearFlags_penalty (v : Word) (s : State) : (clearFlags v s).penalty = s.penalty := rfl
@[simp] theorem clearFlags_penRun (v : Word) (s : State) : (clearFlags v s).penRun = s.penRun := rfl
@[simp] theorem clearFlags_penBlock (v : Word) (s : State) : (clearFlags v s).penBlock = s.penBlock := rfl
@[simp] theorem clearFlags_penFinder (v : Word) (s : State) : (clearFlags v s).penFinder = s.penFinder := rfl
@[simp] theorem clearFlags_penBalance (v : Word) (s : State) : (clearFlags v s).penBalance = s.penBalance := rfl
@[simp] theorem clearFlags_darkCount (v : Word) (s : State) : (clearFlags v s).darkCount = s.darkCount := rfl
@[simp] theorem clearFlags_darkK (v : Word) (s : State) : (clearFlags v s).darkK = s.darkK := rfl
@[simp] theorem clearFlags_best (v : Word) (s : State) : (clearFlags v s).best = s.best := rfl
@[simp] theorem clearFlags_bestValid (v : Word) (s : State) : (clearFlags v s).bestValid = s.bestValid := rfl
@[simp] theorem clearFlags_bestPen (v : Word) (s : State) : (clearFlags v s).bestPen = s.bestPen := rfl
@[simp] theorem clearFlags_fmt (v : Word) (s : State) : (clearFlags v s).fmt = s.fmt := rfl
@[simp] theorem clearFlags_bits (v : Word) (s : State) : (clearFlags v s).bits = s.bits := rfl
@[simp] theorem clearFlags_qx (v : Word) (s : State) : (clearFlags v s).qx = s.qx := rfl
@[simp] theorem clearFlags_qy (v : Word) (s : State) : (clearFlags v s).qy = s.qy := rfl
@[simp] theorem clearFlags_trialPen (v : Word) (s : State) : (clearFlags v s).trialPen = s.trialPen := rfl
@[simp] theorem clearFlags_trialValid (v : Word) (s : State) : (clearFlags v s).trialValid = s.trialValid := rfl
@[simp] theorem clearFlags_rem (v : Word) (s : State) : (clearFlags v s).rem = s.rem := rfl
@[simp] theorem clearFlags_data (v : Word) (s : State) : (clearFlags v s).data = s.data := rfl
@[simp] theorem clearFlags_cw (v : Word) (s : State) : (clearFlags v s).cw = s.cw := rfl
@[simp] theorem clearFlags_modPlane (v : Word) (s : State) : (clearFlags v s).modPlane = s.modPlane := rfl
@[simp] theorem clearFlags_fnPlane (v : Word) (s : State) : (clearFlags v s).fnPlane = s.fnPlane := rfl
@[simp] theorem clearFlags_rstN (v : Word) (s : State) : (clearFlags v s).rstN = s.rstN := rfl
@[simp] theorem clearFlags_rdata (v : Word) (s : State) : (clearFlags v s).rdata = s.rdata := rfl
@[simp] theorem clearFlags_schedule (v : Word) (s : State) : (clearFlags v s).schedule = s.schedule := rfl
@[simp] theorem clearFlags_draws (v : Word) (s : State) : (clearFlags v s).draws = s.draws := rfl
@[simp] theorem clearFlags_resets (v : Word) (s : State) : (clearFlags v s).resets = s.resets := rfl

/-! `draw` -/

@[simp] theorem draw_cfg (ws : List FnWrite) (s : State) : (draw ws s).cfg = s.cfg := rfl
@[simp] theorem draw_ie (ws : List FnWrite) (s : State) : (draw ws s).ie = s.ie := rfl
@[simp] theorem draw_busy (ws : List FnWrite) (s : State) : (draw ws s).busy = s.busy := rfl
@[simp] theorem draw_phase (ws : List FnWrite) (s : State) : (draw ws s).phase = s.phase := rfl
@[simp] theorem draw_err (ws : List FnWrite) (s : State) : (draw ws s).err = s.err := rfl
@[simp] theorem draw_errOvf (ws : List FnWrite) (s : State) : (draw ws s).errOvf = s.errOvf := rfl
@[simp] theorem draw_irq (ws : List FnWrite) (s : State) : (draw ws s).irq = s.irq := rfl
@[simp] theorem draw_fnValid (ws : List FnWrite) (s : State) : (draw ws s).fnValid = s.fnValid := rfl
@[simp] theorem draw_maskValid (ws : List FnWrite) (s : State) : (draw ws s).maskValid = s.maskValid := rfl
@[simp] theorem draw_errCode (ws : List FnWrite) (s : State) : (draw ws s).errCode = s.errCode := rfl
@[simp] theorem draw_errInfo (ws : List FnWrite) (s : State) : (draw ws s).errInfo = s.errInfo := rfl
@[simp] theorem draw_pending (ws : List FnWrite) (s : State) : (draw ws s).pending = s.pending := rfl
@[simp] theorem draw_dlen (ws : List FnWrite) (s : State) : (draw ws s).dlen = s.dlen := rfl
@[simp] theorem draw_result (ws : List FnWrite) (s : State) : (draw ws s).result = s.result := rfl
@[simp] theorem draw_mask (ws : List FnWrite) (s : State) : (draw ws s).mask = s.mask := rfl
@[simp] theorem draw_penalty (ws : List FnWrite) (s : State) : (draw ws s).penalty = s.penalty := rfl
@[simp] theorem draw_penRun (ws : List FnWrite) (s : State) : (draw ws s).penRun = s.penRun := rfl
@[simp] theorem draw_penBlock (ws : List FnWrite) (s : State) : (draw ws s).penBlock = s.penBlock := rfl
@[simp] theorem draw_penFinder (ws : List FnWrite) (s : State) : (draw ws s).penFinder = s.penFinder := rfl
@[simp] theorem draw_penBalance (ws : List FnWrite) (s : State) : (draw ws s).penBalance = s.penBalance := rfl
@[simp] theorem draw_darkCount (ws : List FnWrite) (s : State) : (draw ws s).darkCount = s.darkCount := rfl
@[simp] theorem draw_darkK (ws : List FnWrite) (s : State) : (draw ws s).darkK = s.darkK := rfl
@[simp] theorem draw_best (ws : List FnWrite) (s : State) : (draw ws s).best = s.best := rfl
@[simp] theorem draw_bestValid (ws : List FnWrite) (s : State) : (draw ws s).bestValid = s.bestValid := rfl
@[simp] theorem draw_bestPen (ws : List FnWrite) (s : State) : (draw ws s).bestPen = s.bestPen := rfl
@[simp] theorem draw_fmt (ws : List FnWrite) (s : State) : (draw ws s).fmt = s.fmt := rfl
@[simp] theorem draw_bits (ws : List FnWrite) (s : State) : (draw ws s).bits = s.bits := rfl
@[simp] theorem draw_qx (ws : List FnWrite) (s : State) : (draw ws s).qx = s.qx := rfl
@[simp] theorem draw_qy (ws : List FnWrite) (s : State) : (draw ws s).qy = s.qy := rfl
@[simp] theorem draw_trialPen (ws : List FnWrite) (s : State) : (draw ws s).trialPen = s.trialPen := rfl
@[simp] theorem draw_trialValid (ws : List FnWrite) (s : State) : (draw ws s).trialValid = s.trialValid := rfl
@[simp] theorem draw_rem (ws : List FnWrite) (s : State) : (draw ws s).rem = s.rem := rfl
@[simp] theorem draw_data (ws : List FnWrite) (s : State) : (draw ws s).data = s.data := rfl
@[simp] theorem draw_cw (ws : List FnWrite) (s : State) : (draw ws s).cw = s.cw := rfl
@[simp] theorem draw_modPlane (ws : List FnWrite) (s : State) : (draw ws s).modPlane = (drawAll ws (planesOf s)).modules := rfl
@[simp] theorem draw_fnPlane (ws : List FnWrite) (s : State) : (draw ws s).fnPlane = (drawAll ws (planesOf s)).functions := rfl
@[simp] theorem draw_rstN (ws : List FnWrite) (s : State) : (draw ws s).rstN = s.rstN := rfl
@[simp] theorem draw_rdata (ws : List FnWrite) (s : State) : (draw ws s).rdata = s.rdata := rfl
@[simp] theorem draw_schedule (ws : List FnWrite) (s : State) : (draw ws s).schedule = s.schedule := rfl
@[simp] theorem draw_draws (ws : List FnWrite) (s : State) : (draw ws s).draws = s.draws := rfl
@[simp] theorem draw_resets (ws : List FnWrite) (s : State) : (draw ws s).resets = s.resets := rfl

/-! `drawFormat` -/

@[simp] theorem drawFormat_cfg (m : BitVec 3) (s : State) : (drawFormat m s).cfg = s.cfg := rfl
@[simp] theorem drawFormat_ie (m : BitVec 3) (s : State) : (drawFormat m s).ie = s.ie := rfl
@[simp] theorem drawFormat_busy (m : BitVec 3) (s : State) : (drawFormat m s).busy = s.busy := rfl
@[simp] theorem drawFormat_phase (m : BitVec 3) (s : State) : (drawFormat m s).phase = s.phase := rfl
@[simp] theorem drawFormat_err (m : BitVec 3) (s : State) : (drawFormat m s).err = s.err := rfl
@[simp] theorem drawFormat_errOvf (m : BitVec 3) (s : State) : (drawFormat m s).errOvf = s.errOvf := rfl
@[simp] theorem drawFormat_irq (m : BitVec 3) (s : State) : (drawFormat m s).irq = s.irq := rfl
@[simp] theorem drawFormat_fnValid (m : BitVec 3) (s : State) : (drawFormat m s).fnValid = s.fnValid := rfl
@[simp] theorem drawFormat_maskValid (m : BitVec 3) (s : State) : (drawFormat m s).maskValid = s.maskValid := rfl
@[simp] theorem drawFormat_errCode (m : BitVec 3) (s : State) : (drawFormat m s).errCode = s.errCode := rfl
@[simp] theorem drawFormat_errInfo (m : BitVec 3) (s : State) : (drawFormat m s).errInfo = s.errInfo := rfl
@[simp] theorem drawFormat_pending (m : BitVec 3) (s : State) : (drawFormat m s).pending = s.pending := rfl
@[simp] theorem drawFormat_dlen (m : BitVec 3) (s : State) : (drawFormat m s).dlen = s.dlen := rfl
@[simp] theorem drawFormat_result (m : BitVec 3) (s : State) : (drawFormat m s).result = s.result := rfl
@[simp] theorem drawFormat_mask (m : BitVec 3) (s : State) : (drawFormat m s).mask = s.mask := rfl
@[simp] theorem drawFormat_penalty (m : BitVec 3) (s : State) : (drawFormat m s).penalty = s.penalty := rfl
@[simp] theorem drawFormat_penRun (m : BitVec 3) (s : State) : (drawFormat m s).penRun = s.penRun := rfl
@[simp] theorem drawFormat_penBlock (m : BitVec 3) (s : State) : (drawFormat m s).penBlock = s.penBlock := rfl
@[simp] theorem drawFormat_penFinder (m : BitVec 3) (s : State) : (drawFormat m s).penFinder = s.penFinder := rfl
@[simp] theorem drawFormat_penBalance (m : BitVec 3) (s : State) : (drawFormat m s).penBalance = s.penBalance := rfl
@[simp] theorem drawFormat_darkCount (m : BitVec 3) (s : State) : (drawFormat m s).darkCount = s.darkCount := rfl
@[simp] theorem drawFormat_darkK (m : BitVec 3) (s : State) : (drawFormat m s).darkK = s.darkK := rfl
@[simp] theorem drawFormat_best (m : BitVec 3) (s : State) : (drawFormat m s).best = s.best := rfl
@[simp] theorem drawFormat_bestValid (m : BitVec 3) (s : State) : (drawFormat m s).bestValid = s.bestValid := rfl
@[simp] theorem drawFormat_bestPen (m : BitVec 3) (s : State) : (drawFormat m s).bestPen = s.bestPen := rfl
@[simp] theorem drawFormat_fmt (m : BitVec 3) (s : State) : (drawFormat m s).fmt = formatWord s.cfg.ecl m := rfl
@[simp] theorem drawFormat_bits (m : BitVec 3) (s : State) : (drawFormat m s).bits = s.bits := rfl
@[simp] theorem drawFormat_qx (m : BitVec 3) (s : State) : (drawFormat m s).qx = s.qx := rfl
@[simp] theorem drawFormat_qy (m : BitVec 3) (s : State) : (drawFormat m s).qy = s.qy := rfl
@[simp] theorem drawFormat_trialPen (m : BitVec 3) (s : State) : (drawFormat m s).trialPen = s.trialPen := rfl
@[simp] theorem drawFormat_trialValid (m : BitVec 3) (s : State) : (drawFormat m s).trialValid = s.trialValid := rfl
@[simp] theorem drawFormat_rem (m : BitVec 3) (s : State) : (drawFormat m s).rem = s.rem := rfl
@[simp] theorem drawFormat_data (m : BitVec 3) (s : State) : (drawFormat m s).data = s.data := rfl
@[simp] theorem drawFormat_cw (m : BitVec 3) (s : State) : (drawFormat m s).cw = s.cw := rfl
@[simp] theorem drawFormat_modPlane (m : BitVec 3) (s : State) : (drawFormat m s).modPlane = (drawAll (formatWrites s.cfg.size (formatWord s.cfg.ecl m)) (planesOf s)).modules := rfl
@[simp] theorem drawFormat_fnPlane (m : BitVec 3) (s : State) : (drawFormat m s).fnPlane = (drawAll (formatWrites s.cfg.size (formatWord s.cfg.ecl m)) (planesOf s)).functions := rfl
@[simp] theorem drawFormat_rstN (m : BitVec 3) (s : State) : (drawFormat m s).rstN = s.rstN := rfl
@[simp] theorem drawFormat_rdata (m : BitVec 3) (s : State) : (drawFormat m s).rdata = s.rdata := rfl
@[simp] theorem drawFormat_schedule (m : BitVec 3) (s : State) : (drawFormat m s).schedule = s.schedule := rfl
@[simp] theorem drawFormat_draws (m : BitVec 3) (s : State) : (drawFormat m s).draws = s.draws := rfl
@[simp] theorem drawFormat_resets (m : BitVec 3) (s : State) : (drawFormat m s).resets = s.resets := rfl

/-! `applyMask` -/

@[simp] theorem applyMask_cfg (m : BitVec 3) (s : State) : (applyMask m s).cfg = s.cfg := rfl
@[simp] theorem applyMask_ie (m : BitVec 3) (s : State) : (applyMask m s).ie = s.ie := rfl
@[simp] theorem applyMask_busy (m : BitVec 3) (s : State) : (applyMask m s).busy = s.busy := rfl
@[simp] theorem applyMask_phase (m : BitVec 3) (s : State) : (applyMask m s).phase = s.phase := rfl
@[simp] theorem applyMask_err (m : BitVec 3) (s : State) : (applyMask m s).err = s.err := rfl
@[simp] theorem applyMask_errOvf (m : BitVec 3) (s : State) : (applyMask m s).errOvf = s.errOvf := rfl
@[simp] theorem applyMask_irq (m : BitVec 3) (s : State) : (applyMask m s).irq = s.irq := rfl
@[simp] theorem applyMask_fnValid (m : BitVec 3) (s : State) : (applyMask m s).fnValid = s.fnValid := rfl
@[simp] theorem applyMask_maskValid (m : BitVec 3) (s : State) : (applyMask m s).maskValid = s.maskValid := rfl
@[simp] theorem applyMask_errCode (m : BitVec 3) (s : State) : (applyMask m s).errCode = s.errCode := rfl
@[simp] theorem applyMask_errInfo (m : BitVec 3) (s : State) : (applyMask m s).errInfo = s.errInfo := rfl
@[simp] theorem applyMask_pending (m : BitVec 3) (s : State) : (applyMask m s).pending = s.pending := rfl
@[simp] theorem applyMask_dlen (m : BitVec 3) (s : State) : (applyMask m s).dlen = s.dlen := rfl
@[simp] theorem applyMask_result (m : BitVec 3) (s : State) : (applyMask m s).result = s.result := rfl
@[simp] theorem applyMask_mask (m : BitVec 3) (s : State) : (applyMask m s).mask = s.mask := rfl
@[simp] theorem applyMask_penalty (m : BitVec 3) (s : State) : (applyMask m s).penalty = s.penalty := rfl
@[simp] theorem applyMask_penRun (m : BitVec 3) (s : State) : (applyMask m s).penRun = s.penRun := rfl
@[simp] theorem applyMask_penBlock (m : BitVec 3) (s : State) : (applyMask m s).penBlock = s.penBlock := rfl
@[simp] theorem applyMask_penFinder (m : BitVec 3) (s : State) : (applyMask m s).penFinder = s.penFinder := rfl
@[simp] theorem applyMask_penBalance (m : BitVec 3) (s : State) : (applyMask m s).penBalance = s.penBalance := rfl
@[simp] theorem applyMask_darkCount (m : BitVec 3) (s : State) : (applyMask m s).darkCount = s.darkCount := rfl
@[simp] theorem applyMask_darkK (m : BitVec 3) (s : State) : (applyMask m s).darkK = s.darkK := rfl
@[simp] theorem applyMask_best (m : BitVec 3) (s : State) : (applyMask m s).best = s.best := rfl
@[simp] theorem applyMask_bestValid (m : BitVec 3) (s : State) : (applyMask m s).bestValid = s.bestValid := rfl
@[simp] theorem applyMask_bestPen (m : BitVec 3) (s : State) : (applyMask m s).bestPen = s.bestPen := rfl
@[simp] theorem applyMask_fmt (m : BitVec 3) (s : State) : (applyMask m s).fmt = s.fmt := rfl
@[simp] theorem applyMask_bits (m : BitVec 3) (s : State) : (applyMask m s).bits = s.bits := rfl
@[simp] theorem applyMask_qx (m : BitVec 3) (s : State) : (applyMask m s).qx = s.qx := rfl
@[simp] theorem applyMask_qy (m : BitVec 3) (s : State) : (applyMask m s).qy = s.qy := rfl
@[simp] theorem applyMask_trialPen (m : BitVec 3) (s : State) : (applyMask m s).trialPen = s.trialPen := rfl
@[simp] theorem applyMask_trialValid (m : BitVec 3) (s : State) : (applyMask m s).trialValid = s.trialValid := rfl
@[simp] theorem applyMask_rem (m : BitVec 3) (s : State) : (applyMask m s).rem = s.rem := rfl
@[simp] theorem applyMask_data (m : BitVec 3) (s : State) : (applyMask m s).data = s.data := rfl
@[simp] theorem applyMask_cw (m : BitVec 3) (s : State) : (applyMask m s).cw = s.cw := rfl
@[simp] theorem applyMask_modPlane (m : BitVec 3) (s : State) : (applyMask m s).modPlane = maskPlane m s.cfg.size s.fnPlane s.modPlane := rfl
@[simp] theorem applyMask_fnPlane (m : BitVec 3) (s : State) : (applyMask m s).fnPlane = s.fnPlane := rfl
@[simp] theorem applyMask_rstN (m : BitVec 3) (s : State) : (applyMask m s).rstN = s.rstN := rfl
@[simp] theorem applyMask_rdata (m : BitVec 3) (s : State) : (applyMask m s).rdata = s.rdata := rfl
@[simp] theorem applyMask_schedule (m : BitVec 3) (s : State) : (applyMask m s).schedule = s.schedule := rfl
@[simp] theorem applyMask_draws (m : BitVec 3) (s : State) : (applyMask m s).draws = s.draws := rfl
@[simp] theorem applyMask_resets (m : BitVec 3) (s : State) : (applyMask m s).resets = s.resets := rfl

/-! `recordTrial` -/

@[simp] theorem recordTrial_cfg (m : BitVec 3) (p : Word) (s : State) : (recordTrial m p s).cfg = s.cfg := rfl
@[simp] theorem recordTrial_ie (m : BitVec 3) (p : Word) (s : State) : (recordTrial m p s).ie = s.ie := rfl
@[simp] theorem recordTrial_busy (m : BitVec 3) (p : Word) (s : State) : (recordTrial m p s).busy = s.busy := rfl
@[simp] theorem recordTrial_phase (m : BitVec 3) (p : Word) (s : State) : (recordTrial m p s).phase = s.phase := rfl
@[simp] theorem recordTrial_err (m : BitVec 3) (p : Word) (s : State) : (recordTrial m p s).err = s.err := rfl
@[simp] theorem recordTrial_errOvf (m : BitVec 3) (p : Word) (s : State) : (recordTrial m p s).errOvf = s.errOvf := rfl
@[simp] theorem recordTrial_irq (m : BitVec 3) (p : Word) (s : State) : (recordTrial m p s).irq = s.irq := rfl
@[simp] theorem recordTrial_fnValid (m : BitVec 3) (p : Word) (s : State) : (recordTrial m p s).fnValid = s.fnValid := rfl
@[simp] theorem recordTrial_maskValid (m : BitVec 3) (p : Word) (s : State) : (recordTrial m p s).maskValid = s.maskValid := rfl
@[simp] theorem recordTrial_errCode (m : BitVec 3) (p : Word) (s : State) : (recordTrial m p s).errCode = s.errCode := rfl
@[simp] theorem recordTrial_errInfo (m : BitVec 3) (p : Word) (s : State) : (recordTrial m p s).errInfo = s.errInfo := rfl
@[simp] theorem recordTrial_pending (m : BitVec 3) (p : Word) (s : State) : (recordTrial m p s).pending = s.pending := rfl
@[simp] theorem recordTrial_dlen (m : BitVec 3) (p : Word) (s : State) : (recordTrial m p s).dlen = s.dlen := rfl
@[simp] theorem recordTrial_result (m : BitVec 3) (p : Word) (s : State) : (recordTrial m p s).result = s.result := rfl
@[simp] theorem recordTrial_mask (m : BitVec 3) (p : Word) (s : State) : (recordTrial m p s).mask = s.mask := rfl
@[simp] theorem recordTrial_penalty (m : BitVec 3) (p : Word) (s : State) : (recordTrial m p s).penalty = s.penalty := rfl
@[simp] theorem recordTrial_penRun (m : BitVec 3) (p : Word) (s : State) : (recordTrial m p s).penRun = s.penRun := rfl
@[simp] theorem recordTrial_penBlock (m : BitVec 3) (p : Word) (s : State) : (recordTrial m p s).penBlock = s.penBlock := rfl
@[simp] theorem recordTrial_penFinder (m : BitVec 3) (p : Word) (s : State) : (recordTrial m p s).penFinder = s.penFinder := rfl
@[simp] theorem recordTrial_penBalance (m : BitVec 3) (p : Word) (s : State) : (recordTrial m p s).penBalance = s.penBalance := rfl
@[simp] theorem recordTrial_darkCount (m : BitVec 3) (p : Word) (s : State) : (recordTrial m p s).darkCount = s.darkCount := rfl
@[simp] theorem recordTrial_darkK (m : BitVec 3) (p : Word) (s : State) : (recordTrial m p s).darkK = s.darkK := rfl
@[simp] theorem recordTrial_best (m : BitVec 3) (p : Word) (s : State) : (recordTrial m p s).best = s.best := rfl
@[simp] theorem recordTrial_bestValid (m : BitVec 3) (p : Word) (s : State) : (recordTrial m p s).bestValid = s.bestValid := rfl
@[simp] theorem recordTrial_bestPen (m : BitVec 3) (p : Word) (s : State) : (recordTrial m p s).bestPen = s.bestPen := rfl
@[simp] theorem recordTrial_fmt (m : BitVec 3) (p : Word) (s : State) : (recordTrial m p s).fmt = s.fmt := rfl
@[simp] theorem recordTrial_bits (m : BitVec 3) (p : Word) (s : State) : (recordTrial m p s).bits = s.bits := rfl
@[simp] theorem recordTrial_qx (m : BitVec 3) (p : Word) (s : State) : (recordTrial m p s).qx = s.qx := rfl
@[simp] theorem recordTrial_qy (m : BitVec 3) (p : Word) (s : State) : (recordTrial m p s).qy = s.qy := rfl
@[simp] theorem recordTrial_trialPen (m : BitVec 3) (p : Word) (s : State) : (recordTrial m p s).trialPen = s.trialPen.setIfInBounds m.toNat p := rfl
@[simp] theorem recordTrial_trialValid (m : BitVec 3) (p : Word) (s : State) : (recordTrial m p s).trialValid = putBit s.trialValid m.toNat true := rfl
@[simp] theorem recordTrial_rem (m : BitVec 3) (p : Word) (s : State) : (recordTrial m p s).rem = s.rem := rfl
@[simp] theorem recordTrial_data (m : BitVec 3) (p : Word) (s : State) : (recordTrial m p s).data = s.data := rfl
@[simp] theorem recordTrial_cw (m : BitVec 3) (p : Word) (s : State) : (recordTrial m p s).cw = s.cw := rfl
@[simp] theorem recordTrial_modPlane (m : BitVec 3) (p : Word) (s : State) : (recordTrial m p s).modPlane = s.modPlane := rfl
@[simp] theorem recordTrial_fnPlane (m : BitVec 3) (p : Word) (s : State) : (recordTrial m p s).fnPlane = s.fnPlane := rfl
@[simp] theorem recordTrial_rstN (m : BitVec 3) (p : Word) (s : State) : (recordTrial m p s).rstN = s.rstN := rfl
@[simp] theorem recordTrial_rdata (m : BitVec 3) (p : Word) (s : State) : (recordTrial m p s).rdata = s.rdata := rfl
@[simp] theorem recordTrial_schedule (m : BitVec 3) (p : Word) (s : State) : (recordTrial m p s).schedule = s.schedule := rfl
@[simp] theorem recordTrial_draws (m : BitVec 3) (p : Word) (s : State) : (recordTrial m p s).draws = s.draws := rfl
@[simp] theorem recordTrial_resets (m : BitVec 3) (p : Word) (s : State) : (recordTrial m p s).resets = s.resets := rfl

/-! `clearBest` -/

@[simp] theorem clearBest_cfg (s : State) : (clearBest s).cfg = s.cfg := rfl
@[simp] theorem clearBest_ie (s : State) : (clearBest s).ie = s.ie := rfl
@[simp] theorem clearBest_busy (s : State) : (clearBest s).busy = s.busy := rfl
@[simp] theorem clearBest_phase (s : State) : (clearBest s).phase = s.phase := rfl
@[simp] theorem clearBest_err (s : State) : (clearBest s).err = s.err := rfl
@[simp] theorem clearBest_errOvf (s : State) : (clearBest s).errOvf = s.errOvf := rfl
@[simp] theorem clearBest_irq (s : State) : (clearBest s).irq = s.irq := rfl
@[simp] theorem clearBest_fnValid (s : State) : (clearBest s).fnValid = s.fnValid := rfl
@[simp] theorem clearBest_maskValid (s : State) : (clearBest s).maskValid = s.maskValid := rfl
@[simp] theorem clearBest_errCode (s : State) : (clearBest s).errCode = s.errCode := rfl
@[simp] theorem clearBest_errInfo (s : State) : (clearBest s).errInfo = s.errInfo := rfl
@[simp] theorem clearBest_pending (s : State) : (clearBest s).pending = s.pending := rfl
@[simp] theorem clearBest_dlen (s : State) : (clearBest s).dlen = s.dlen := rfl
@[simp] theorem clearBest_result (s : State) : (clearBest s).result = s.result := rfl
@[simp] theorem clearBest_mask (s : State) : (clearBest s).mask = s.mask := rfl
@[simp] theorem clearBest_penalty (s : State) : (clearBest s).penalty = s.penalty := rfl
@[simp] theorem clearBest_penRun (s : State) : (clearBest s).penRun = s.penRun := rfl
@[simp] theorem clearBest_penBlock (s : State) : (clearBest s).penBlock = s.penBlock := rfl
@[simp] theorem clearBest_penFinder (s : State) : (clearBest s).penFinder = s.penFinder := rfl
@[simp] theorem clearBest_penBalance (s : State) : (clearBest s).penBalance = s.penBalance := rfl
@[simp] theorem clearBest_darkCount (s : State) : (clearBest s).darkCount = s.darkCount := rfl
@[simp] theorem clearBest_darkK (s : State) : (clearBest s).darkK = s.darkK := rfl
@[simp] theorem clearBest_best (s : State) : (clearBest s).best = 0 := rfl
@[simp] theorem clearBest_bestValid (s : State) : (clearBest s).bestValid = false := rfl
@[simp] theorem clearBest_bestPen (s : State) : (clearBest s).bestPen = 0 := rfl
@[simp] theorem clearBest_fmt (s : State) : (clearBest s).fmt = s.fmt := rfl
@[simp] theorem clearBest_bits (s : State) : (clearBest s).bits = s.bits := rfl
@[simp] theorem clearBest_qx (s : State) : (clearBest s).qx = s.qx := rfl
@[simp] theorem clearBest_qy (s : State) : (clearBest s).qy = s.qy := rfl
@[simp] theorem clearBest_trialPen (s : State) : (clearBest s).trialPen = s.trialPen := rfl
@[simp] theorem clearBest_trialValid (s : State) : (clearBest s).trialValid = 0 := rfl
@[simp] theorem clearBest_rem (s : State) : (clearBest s).rem = s.rem := rfl
@[simp] theorem clearBest_data (s : State) : (clearBest s).data = s.data := rfl
@[simp] theorem clearBest_cw (s : State) : (clearBest s).cw = s.cw := rfl
@[simp] theorem clearBest_modPlane (s : State) : (clearBest s).modPlane = s.modPlane := rfl
@[simp] theorem clearBest_fnPlane (s : State) : (clearBest s).fnPlane = s.fnPlane := rfl
@[simp] theorem clearBest_rstN (s : State) : (clearBest s).rstN = s.rstN := rfl
@[simp] theorem clearBest_rdata (s : State) : (clearBest s).rdata = s.rdata := rfl
@[simp] theorem clearBest_schedule (s : State) : (clearBest s).schedule = s.schedule := rfl
@[simp] theorem clearBest_draws (s : State) : (clearBest s).draws = s.draws := rfl
@[simp] theorem clearBest_resets (s : State) : (clearBest s).resets = s.resets := rfl

/-! `setPenalties` -/

@[simp] theorem setPenalties_cfg (p : PenaltyParts) (s : State) : (setPenalties p s).cfg = s.cfg := rfl
@[simp] theorem setPenalties_ie (p : PenaltyParts) (s : State) : (setPenalties p s).ie = s.ie := rfl
@[simp] theorem setPenalties_busy (p : PenaltyParts) (s : State) : (setPenalties p s).busy = s.busy := rfl
@[simp] theorem setPenalties_phase (p : PenaltyParts) (s : State) : (setPenalties p s).phase = s.phase := rfl
@[simp] theorem setPenalties_err (p : PenaltyParts) (s : State) : (setPenalties p s).err = s.err := rfl
@[simp] theorem setPenalties_errOvf (p : PenaltyParts) (s : State) : (setPenalties p s).errOvf = s.errOvf := rfl
@[simp] theorem setPenalties_irq (p : PenaltyParts) (s : State) : (setPenalties p s).irq = s.irq := rfl
@[simp] theorem setPenalties_fnValid (p : PenaltyParts) (s : State) : (setPenalties p s).fnValid = s.fnValid := rfl
@[simp] theorem setPenalties_maskValid (p : PenaltyParts) (s : State) : (setPenalties p s).maskValid = s.maskValid := rfl
@[simp] theorem setPenalties_errCode (p : PenaltyParts) (s : State) : (setPenalties p s).errCode = s.errCode := rfl
@[simp] theorem setPenalties_errInfo (p : PenaltyParts) (s : State) : (setPenalties p s).errInfo = s.errInfo := rfl
@[simp] theorem setPenalties_pending (p : PenaltyParts) (s : State) : (setPenalties p s).pending = s.pending := rfl
@[simp] theorem setPenalties_dlen (p : PenaltyParts) (s : State) : (setPenalties p s).dlen = s.dlen := rfl
@[simp] theorem setPenalties_result (p : PenaltyParts) (s : State) : (setPenalties p s).result = s.result := rfl
@[simp] theorem setPenalties_mask (p : PenaltyParts) (s : State) : (setPenalties p s).mask = s.mask := rfl
@[simp] theorem setPenalties_penalty (p : PenaltyParts) (s : State) : (setPenalties p s).penalty = BitVec.ofNat 32 p.total := rfl
@[simp] theorem setPenalties_penRun (p : PenaltyParts) (s : State) : (setPenalties p s).penRun = BitVec.ofNat 32 p.p1 := rfl
@[simp] theorem setPenalties_penBlock (p : PenaltyParts) (s : State) : (setPenalties p s).penBlock = BitVec.ofNat 32 p.p2 := rfl
@[simp] theorem setPenalties_penFinder (p : PenaltyParts) (s : State) : (setPenalties p s).penFinder = BitVec.ofNat 32 p.p3 := rfl
@[simp] theorem setPenalties_penBalance (p : PenaltyParts) (s : State) : (setPenalties p s).penBalance = BitVec.ofNat 32 p.p4 := rfl
@[simp] theorem setPenalties_darkCount (p : PenaltyParts) (s : State) : (setPenalties p s).darkCount = BitVec.ofNat 16 p.dark := rfl
@[simp] theorem setPenalties_darkK (p : PenaltyParts) (s : State) : (setPenalties p s).darkK = BitVec.ofNat 4 p.k := rfl
@[simp] theorem setPenalties_best (p : PenaltyParts) (s : State) : (setPenalties p s).best = s.best := rfl
@[simp] theorem setPenalties_bestValid (p : PenaltyParts) (s : State) : (setPenalties p s).bestValid = s.bestValid := rfl
@[simp] theorem setPenalties_bestPen (p : PenaltyParts) (s : State) : (setPenalties p s).bestPen = s.bestPen := rfl
@[simp] theorem setPenalties_fmt (p : PenaltyParts) (s : State) : (setPenalties p s).fmt = s.fmt := rfl
@[simp] theorem setPenalties_bits (p : PenaltyParts) (s : State) : (setPenalties p s).bits = s.bits := rfl
@[simp] theorem setPenalties_qx (p : PenaltyParts) (s : State) : (setPenalties p s).qx = s.qx := rfl
@[simp] theorem setPenalties_qy (p : PenaltyParts) (s : State) : (setPenalties p s).qy = s.qy := rfl
@[simp] theorem setPenalties_trialPen (p : PenaltyParts) (s : State) : (setPenalties p s).trialPen = s.trialPen := rfl
@[simp] theorem setPenalties_trialValid (p : PenaltyParts) (s : State) : (setPenalties p s).trialValid = s.trialValid := rfl
@[simp] theorem setPenalties_rem (p : PenaltyParts) (s : State) : (setPenalties p s).rem = s.rem := rfl
@[simp] theorem setPenalties_data (p : PenaltyParts) (s : State) : (setPenalties p s).data = s.data := rfl
@[simp] theorem setPenalties_cw (p : PenaltyParts) (s : State) : (setPenalties p s).cw = s.cw := rfl
@[simp] theorem setPenalties_modPlane (p : PenaltyParts) (s : State) : (setPenalties p s).modPlane = s.modPlane := rfl
@[simp] theorem setPenalties_fnPlane (p : PenaltyParts) (s : State) : (setPenalties p s).fnPlane = s.fnPlane := rfl
@[simp] theorem setPenalties_rstN (p : PenaltyParts) (s : State) : (setPenalties p s).rstN = s.rstN := rfl
@[simp] theorem setPenalties_rdata (p : PenaltyParts) (s : State) : (setPenalties p s).rdata = s.rdata := rfl
@[simp] theorem setPenalties_schedule (p : PenaltyParts) (s : State) : (setPenalties p s).schedule = s.schedule := rfl
@[simp] theorem setPenalties_draws (p : PenaltyParts) (s : State) : (setPenalties p s).draws = s.draws := rfl
@[simp] theorem setPenalties_resets (p : PenaltyParts) (s : State) : (setPenalties p s).resets = s.resets := rfl

/-! `commitMask` -/

@[simp] theorem commitMask_cfg (m : BitVec 3) (s : State) : (commitMask m s).cfg = s.cfg := rfl
@[simp] theorem commitMask_ie (m : BitVec 3) (s : State) : (commitMask m s).ie = s.ie := rfl
@[simp] theorem commitMask_busy (m : BitVec 3) (s : State) : (commitMask m s).busy = s.busy := rfl
@[simp] theorem commitMask_phase (m : BitVec 3) (s : State) : (commitMask m s).phase = .done := rfl
@[simp] theorem commitMask_err (m : BitVec 3) (s : State) : (commitMask m s).err = s.err := rfl
@[simp] theorem commitMask_errOvf (m : BitVec 3) (s : State) : (commitMask m s).errOvf = s.errOvf := rfl
@[simp] theorem commitMask_irq (m : BitVec 3) (s : State) : (commitMask m s).irq = s.irq := rfl
@[simp] theorem commitMask_fnValid (m : BitVec 3) (s : State) : (commitMask m s).fnValid = false := rfl
@[simp] theorem commitMask_maskValid (m : BitVec 3) (s : State) : (commitMask m s).maskValid = true := rfl
@[simp] theorem commitMask_errCode (m : BitVec 3) (s : State) : (commitMask m s).errCode = s.errCode := rfl
@[simp] theorem commitMask_errInfo (m : BitVec 3) (s : State) : (commitMask m s).errInfo = s.errInfo := rfl
@[simp] theorem commitMask_pending (m : BitVec 3) (s : State) : (commitMask m s).pending = s.pending := rfl
@[simp] theorem commitMask_dlen (m : BitVec 3) (s : State) : (commitMask m s).dlen = s.dlen := rfl
@[simp] theorem commitMask_result (m : BitVec 3) (s : State) : (commitMask m s).result = s.result := rfl
@[simp] theorem commitMask_mask (m : BitVec 3) (s : State) : (commitMask m s).mask = m := rfl
@[simp] theorem commitMask_penalty (m : BitVec 3) (s : State) : (commitMask m s).penalty = s.penalty := rfl
@[simp] theorem commitMask_penRun (m : BitVec 3) (s : State) : (commitMask m s).penRun = s.penRun := rfl
@[simp] theorem commitMask_penBlock (m : BitVec 3) (s : State) : (commitMask m s).penBlock = s.penBlock := rfl
@[simp] theorem commitMask_penFinder (m : BitVec 3) (s : State) : (commitMask m s).penFinder = s.penFinder := rfl
@[simp] theorem commitMask_penBalance (m : BitVec 3) (s : State) : (commitMask m s).penBalance = s.penBalance := rfl
@[simp] theorem commitMask_darkCount (m : BitVec 3) (s : State) : (commitMask m s).darkCount = s.darkCount := rfl
@[simp] theorem commitMask_darkK (m : BitVec 3) (s : State) : (commitMask m s).darkK = s.darkK := rfl
@[simp] theorem commitMask_best (m : BitVec 3) (s : State) : (commitMask m s).best = s.best := rfl
@[simp] theorem commitMask_bestValid (m : BitVec 3) (s : State) : (commitMask m s).bestValid = s.bestValid := rfl
@[simp] theorem commitMask_bestPen (m : BitVec 3) (s : State) : (commitMask m s).bestPen = s.bestPen := rfl
@[simp] theorem commitMask_fmt (m : BitVec 3) (s : State) : (commitMask m s).fmt = formatWord s.cfg.ecl m := rfl
@[simp] theorem commitMask_bits (m : BitVec 3) (s : State) : (commitMask m s).bits = s.bits := rfl
@[simp] theorem commitMask_qx (m : BitVec 3) (s : State) : (commitMask m s).qx = s.qx := rfl
@[simp] theorem commitMask_qy (m : BitVec 3) (s : State) : (commitMask m s).qy = s.qy := rfl
@[simp] theorem commitMask_trialPen (m : BitVec 3) (s : State) : (commitMask m s).trialPen = s.trialPen := rfl
@[simp] theorem commitMask_trialValid (m : BitVec 3) (s : State) : (commitMask m s).trialValid = s.trialValid := rfl
@[simp] theorem commitMask_rem (m : BitVec 3) (s : State) : (commitMask m s).rem = s.rem := rfl
@[simp] theorem commitMask_data (m : BitVec 3) (s : State) : (commitMask m s).data = s.data := rfl
@[simp] theorem commitMask_cw (m : BitVec 3) (s : State) : (commitMask m s).cw = s.cw := rfl
@[simp] theorem commitMask_modPlane (m : BitVec 3) (s : State) : (commitMask m s).modPlane = (drawFormat m (applyMask m s)).modPlane := rfl
@[simp] theorem commitMask_fnPlane (m : BitVec 3) (s : State) : (commitMask m s).fnPlane = (drawFormat m (applyMask m s)).fnPlane := rfl
@[simp] theorem commitMask_rstN (m : BitVec 3) (s : State) : (commitMask m s).rstN = s.rstN := rfl
@[simp] theorem commitMask_rdata (m : BitVec 3) (s : State) : (commitMask m s).rdata = s.rdata := rfl
@[simp] theorem commitMask_schedule (m : BitVec 3) (s : State) : (commitMask m s).schedule = s.schedule := rfl
@[simp] theorem commitMask_draws (m : BitVec 3) (s : State) : (commitMask m s).draws = s.draws := rfl
@[simp] theorem commitMask_resets (m : BitVec 3) (s : State) : (commitMask m s).resets = s.resets := rfl

/-! `gfmulBody` -/

@[simp] theorem gfmulBody_cfg (a b : Byte) (s : State) : (gfmulBody a b s).cfg = s.cfg := rfl
@[simp] theorem gfmulBody_ie (a b : Byte) (s : State) : (gfmulBody a b s).ie = s.ie := rfl
@[simp] theorem gfmulBody_busy (a b : Byte) (s : State) : (gfmulBody a b s).busy = s.busy := rfl
@[simp] theorem gfmulBody_phase (a b : Byte) (s : State) : (gfmulBody a b s).phase = s.phase := rfl
@[simp] theorem gfmulBody_err (a b : Byte) (s : State) : (gfmulBody a b s).err = s.err := rfl
@[simp] theorem gfmulBody_errOvf (a b : Byte) (s : State) : (gfmulBody a b s).errOvf = s.errOvf := rfl
@[simp] theorem gfmulBody_irq (a b : Byte) (s : State) : (gfmulBody a b s).irq = s.irq := rfl
@[simp] theorem gfmulBody_fnValid (a b : Byte) (s : State) : (gfmulBody a b s).fnValid = s.fnValid := rfl
@[simp] theorem gfmulBody_maskValid (a b : Byte) (s : State) : (gfmulBody a b s).maskValid = s.maskValid := rfl
@[simp] theorem gfmulBody_errCode (a b : Byte) (s : State) : (gfmulBody a b s).errCode = s.errCode := rfl
@[simp] theorem gfmulBody_errInfo (a b : Byte) (s : State) : (gfmulBody a b s).errInfo = s.errInfo := rfl
@[simp] theorem gfmulBody_pending (a b : Byte) (s : State) : (gfmulBody a b s).pending = s.pending := rfl
@[simp] theorem gfmulBody_dlen (a b : Byte) (s : State) : (gfmulBody a b s).dlen = s.dlen := rfl
@[simp] theorem gfmulBody_result (a b : Byte) (s : State) : (gfmulBody a b s).result = gfMul a b := rfl
@[simp] theorem gfmulBody_mask (a b : Byte) (s : State) : (gfmulBody a b s).mask = s.mask := rfl
@[simp] theorem gfmulBody_penalty (a b : Byte) (s : State) : (gfmulBody a b s).penalty = s.penalty := rfl
@[simp] theorem gfmulBody_penRun (a b : Byte) (s : State) : (gfmulBody a b s).penRun = s.penRun := rfl
@[simp] theorem gfmulBody_penBlock (a b : Byte) (s : State) : (gfmulBody a b s).penBlock = s.penBlock := rfl
@[simp] theorem gfmulBody_penFinder (a b : Byte) (s : State) : (gfmulBody a b s).penFinder = s.penFinder := rfl
@[simp] theorem gfmulBody_penBalance (a b : Byte) (s : State) : (gfmulBody a b s).penBalance = s.penBalance := rfl
@[simp] theorem gfmulBody_darkCount (a b : Byte) (s : State) : (gfmulBody a b s).darkCount = s.darkCount := rfl
@[simp] theorem gfmulBody_darkK (a b : Byte) (s : State) : (gfmulBody a b s).darkK = s.darkK := rfl
@[simp] theorem gfmulBody_best (a b : Byte) (s : State) : (gfmulBody a b s).best = s.best := rfl
@[simp] theorem gfmulBody_bestValid (a b : Byte) (s : State) : (gfmulBody a b s).bestValid = s.bestValid := rfl
@[simp] theorem gfmulBody_bestPen (a b : Byte) (s : State) : (gfmulBody a b s).bestPen = s.bestPen := rfl
@[simp] theorem gfmulBody_fmt (a b : Byte) (s : State) : (gfmulBody a b s).fmt = s.fmt := rfl
@[simp] theorem gfmulBody_bits (a b : Byte) (s : State) : (gfmulBody a b s).bits = s.bits := rfl
@[simp] theorem gfmulBody_qx (a b : Byte) (s : State) : (gfmulBody a b s).qx = s.qx := rfl
@[simp] theorem gfmulBody_qy (a b : Byte) (s : State) : (gfmulBody a b s).qy = s.qy := rfl
@[simp] theorem gfmulBody_trialPen (a b : Byte) (s : State) : (gfmulBody a b s).trialPen = s.trialPen := rfl
@[simp] theorem gfmulBody_trialValid (a b : Byte) (s : State) : (gfmulBody a b s).trialValid = s.trialValid := rfl
@[simp] theorem gfmulBody_rem (a b : Byte) (s : State) : (gfmulBody a b s).rem = s.rem := rfl
@[simp] theorem gfmulBody_data (a b : Byte) (s : State) : (gfmulBody a b s).data = s.data := rfl
@[simp] theorem gfmulBody_cw (a b : Byte) (s : State) : (gfmulBody a b s).cw = s.cw := rfl
@[simp] theorem gfmulBody_modPlane (a b : Byte) (s : State) : (gfmulBody a b s).modPlane = s.modPlane := rfl
@[simp] theorem gfmulBody_fnPlane (a b : Byte) (s : State) : (gfmulBody a b s).fnPlane = s.fnPlane := rfl
@[simp] theorem gfmulBody_rstN (a b : Byte) (s : State) : (gfmulBody a b s).rstN = s.rstN := rfl
@[simp] theorem gfmulBody_rdata (a b : Byte) (s : State) : (gfmulBody a b s).rdata = s.rdata := rfl
@[simp] theorem gfmulBody_schedule (a b : Byte) (s : State) : (gfmulBody a b s).schedule = s.schedule := rfl
@[simp] theorem gfmulBody_draws (a b : Byte) (s : State) : (gfmulBody a b s).draws = s.draws := rfl
@[simp] theorem gfmulBody_resets (a b : Byte) (s : State) : (gfmulBody a b s).resets = s.resets := rfl

/-! `rsremBody` -/

@[simp] theorem rsremBody_cfg (s : State) : (rsremBody s).cfg = s.cfg := rfl
@[simp] theorem rsremBody_ie (s : State) : (rsremBody s).ie = s.ie := rfl
@[simp] theorem rsremBody_busy (s : State) : (rsremBody s).busy = s.busy := rfl
@[simp] theorem rsremBody_phase (s : State) : (rsremBody s).phase = s.phase := rfl
@[simp] theorem rsremBody_err (s : State) : (rsremBody s).err = s.err := rfl
@[simp] theorem rsremBody_errOvf (s : State) : (rsremBody s).errOvf = s.errOvf := rfl
@[simp] theorem rsremBody_irq (s : State) : (rsremBody s).irq = s.irq := rfl
@[simp] theorem rsremBody_fnValid (s : State) : (rsremBody s).fnValid = s.fnValid := rfl
@[simp] theorem rsremBody_maskValid (s : State) : (rsremBody s).maskValid = s.maskValid := rfl
@[simp] theorem rsremBody_errCode (s : State) : (rsremBody s).errCode = s.errCode := rfl
@[simp] theorem rsremBody_errInfo (s : State) : (rsremBody s).errInfo = s.errInfo := rfl
@[simp] theorem rsremBody_pending (s : State) : (rsremBody s).pending = s.pending := rfl
@[simp] theorem rsremBody_dlen (s : State) : (rsremBody s).dlen = s.dlen := rfl
@[simp] theorem rsremBody_result (s : State) : (rsremBody s).result = s.result := rfl
@[simp] theorem rsremBody_mask (s : State) : (rsremBody s).mask = s.mask := rfl
@[simp] theorem rsremBody_penalty (s : State) : (rsremBody s).penalty = s.penalty := rfl
@[simp] theorem rsremBody_penRun (s : State) : (rsremBody s).penRun = s.penRun := rfl
@[simp] theorem rsremBody_penBlock (s : State) : (rsremBody s).penBlock = s.penBlock := rfl
@[simp] theorem rsremBody_penFinder (s : State) : (rsremBody s).penFinder = s.penFinder := rfl
@[simp] theorem rsremBody_penBalance (s : State) : (rsremBody s).penBalance = s.penBalance := rfl
@[simp] theorem rsremBody_darkCount (s : State) : (rsremBody s).darkCount = s.darkCount := rfl
@[simp] theorem rsremBody_darkK (s : State) : (rsremBody s).darkK = s.darkK := rfl
@[simp] theorem rsremBody_best (s : State) : (rsremBody s).best = s.best := rfl
@[simp] theorem rsremBody_bestValid (s : State) : (rsremBody s).bestValid = s.bestValid := rfl
@[simp] theorem rsremBody_bestPen (s : State) : (rsremBody s).bestPen = s.bestPen := rfl
@[simp] theorem rsremBody_fmt (s : State) : (rsremBody s).fmt = s.fmt := rfl
@[simp] theorem rsremBody_bits (s : State) : (rsremBody s).bits = s.bits := rfl
@[simp] theorem rsremBody_qx (s : State) : (rsremBody s).qx = s.qx := rfl
@[simp] theorem rsremBody_qy (s : State) : (rsremBody s).qy = s.qy := rfl
@[simp] theorem rsremBody_trialPen (s : State) : (rsremBody s).trialPen = s.trialPen := rfl
@[simp] theorem rsremBody_trialValid (s : State) : (rsremBody s).trialValid = s.trialValid := rfl
@[simp] theorem rsremBody_rem (s : State) : (rsremBody s).rem = remEntries (rsRemainder s.cfg (dataSlice s 0 s.dlen.toNat)) := rfl
@[simp] theorem rsremBody_data (s : State) : (rsremBody s).data = s.data := rfl
@[simp] theorem rsremBody_cw (s : State) : (rsremBody s).cw = s.cw := rfl
@[simp] theorem rsremBody_modPlane (s : State) : (rsremBody s).modPlane = s.modPlane := rfl
@[simp] theorem rsremBody_fnPlane (s : State) : (rsremBody s).fnPlane = s.fnPlane := rfl
@[simp] theorem rsremBody_rstN (s : State) : (rsremBody s).rstN = s.rstN := rfl
@[simp] theorem rsremBody_rdata (s : State) : (rsremBody s).rdata = s.rdata := rfl
@[simp] theorem rsremBody_schedule (s : State) : (rsremBody s).schedule = s.schedule := rfl
@[simp] theorem rsremBody_draws (s : State) : (rsremBody s).draws = s.draws := rfl
@[simp] theorem rsremBody_resets (s : State) : (rsremBody s).resets = s.resets := rfl

/-! `drawfnBody` -/

@[simp] theorem drawfnBody_cfg (s : State) : (drawfnBody s).cfg = s.cfg := rfl
@[simp] theorem drawfnBody_ie (s : State) : (drawfnBody s).ie = s.ie := rfl
@[simp] theorem drawfnBody_busy (s : State) : (drawfnBody s).busy = s.busy := rfl
@[simp] theorem drawfnBody_phase (s : State) : (drawfnBody s).phase = .func := rfl
@[simp] theorem drawfnBody_err (s : State) : (drawfnBody s).err = s.err := rfl
@[simp] theorem drawfnBody_errOvf (s : State) : (drawfnBody s).errOvf = s.errOvf := rfl
@[simp] theorem drawfnBody_irq (s : State) : (drawfnBody s).irq = s.irq := rfl
@[simp] theorem drawfnBody_fnValid (s : State) : (drawfnBody s).fnValid = s.fnValid := rfl
@[simp] theorem drawfnBody_maskValid (s : State) : (drawfnBody s).maskValid = s.maskValid := rfl
@[simp] theorem drawfnBody_errCode (s : State) : (drawfnBody s).errCode = s.errCode := rfl
@[simp] theorem drawfnBody_errInfo (s : State) : (drawfnBody s).errInfo = s.errInfo := rfl
@[simp] theorem drawfnBody_pending (s : State) : (drawfnBody s).pending = s.pending := rfl
@[simp] theorem drawfnBody_dlen (s : State) : (drawfnBody s).dlen = s.dlen := rfl
@[simp] theorem drawfnBody_result (s : State) : (drawfnBody s).result = s.result := rfl
@[simp] theorem drawfnBody_mask (s : State) : (drawfnBody s).mask = s.mask := rfl
@[simp] theorem drawfnBody_penalty (s : State) : (drawfnBody s).penalty = s.penalty := rfl
@[simp] theorem drawfnBody_penRun (s : State) : (drawfnBody s).penRun = s.penRun := rfl
@[simp] theorem drawfnBody_penBlock (s : State) : (drawfnBody s).penBlock = s.penBlock := rfl
@[simp] theorem drawfnBody_penFinder (s : State) : (drawfnBody s).penFinder = s.penFinder := rfl
@[simp] theorem drawfnBody_penBalance (s : State) : (drawfnBody s).penBalance = s.penBalance := rfl
@[simp] theorem drawfnBody_darkCount (s : State) : (drawfnBody s).darkCount = s.darkCount := rfl
@[simp] theorem drawfnBody_darkK (s : State) : (drawfnBody s).darkK = s.darkK := rfl
@[simp] theorem drawfnBody_best (s : State) : (drawfnBody s).best = s.best := rfl
@[simp] theorem drawfnBody_bestValid (s : State) : (drawfnBody s).bestValid = s.bestValid := rfl
@[simp] theorem drawfnBody_bestPen (s : State) : (drawfnBody s).bestPen = s.bestPen := rfl
@[simp] theorem drawfnBody_fmt (s : State) : (drawfnBody s).fmt = formatWord s.cfg.ecl 0 := rfl
@[simp] theorem drawfnBody_bits (s : State) : (drawfnBody s).bits = s.bits := rfl
@[simp] theorem drawfnBody_qx (s : State) : (drawfnBody s).qx = s.qx := rfl
@[simp] theorem drawfnBody_qy (s : State) : (drawfnBody s).qy = s.qy := rfl
@[simp] theorem drawfnBody_trialPen (s : State) : (drawfnBody s).trialPen = s.trialPen := rfl
@[simp] theorem drawfnBody_trialValid (s : State) : (drawfnBody s).trialValid = s.trialValid := rfl
@[simp] theorem drawfnBody_rem (s : State) : (drawfnBody s).rem = s.rem := rfl
@[simp] theorem drawfnBody_data (s : State) : (drawfnBody s).data = s.data := rfl
@[simp] theorem drawfnBody_cw (s : State) : (drawfnBody s).cw = s.cw := rfl
@[simp] theorem drawfnBody_modPlane (s : State) : (drawfnBody s).modPlane = (drawFormat 0 (draw (patternWrites s.cfg) s)).modPlane := rfl
@[simp] theorem drawfnBody_fnPlane (s : State) : (drawfnBody s).fnPlane = (drawFormat 0 (draw (patternWrites s.cfg) s)).fnPlane := rfl
@[simp] theorem drawfnBody_rstN (s : State) : (drawfnBody s).rstN = s.rstN := rfl
@[simp] theorem drawfnBody_rdata (s : State) : (drawfnBody s).rdata = s.rdata := rfl
@[simp] theorem drawfnBody_schedule (s : State) : (drawfnBody s).schedule = s.schedule := rfl
@[simp] theorem drawfnBody_draws (s : State) : (drawfnBody s).draws = s.draws := rfl
@[simp] theorem drawfnBody_resets (s : State) : (drawfnBody s).resets = s.resets := rfl

/-! `initBody` -/

@[simp] theorem initBody_cfg (s : State) : (initBody s).cfg = s.cfg := rfl
@[simp] theorem initBody_ie (s : State) : (initBody s).ie = s.ie := rfl
@[simp] theorem initBody_busy (s : State) : (initBody s).busy = s.busy := rfl
@[simp] theorem initBody_phase (s : State) : (initBody s).phase = .init := rfl
@[simp] theorem initBody_err (s : State) : (initBody s).err = s.err := rfl
@[simp] theorem initBody_errOvf (s : State) : (initBody s).errOvf = s.errOvf := rfl
@[simp] theorem initBody_irq (s : State) : (initBody s).irq = s.irq := rfl
@[simp] theorem initBody_fnValid (s : State) : (initBody s).fnValid = true := rfl
@[simp] theorem initBody_maskValid (s : State) : (initBody s).maskValid = false := rfl
@[simp] theorem initBody_errCode (s : State) : (initBody s).errCode = s.errCode := rfl
@[simp] theorem initBody_errInfo (s : State) : (initBody s).errInfo = s.errInfo := rfl
@[simp] theorem initBody_pending (s : State) : (initBody s).pending = s.pending := rfl
@[simp] theorem initBody_dlen (s : State) : (initBody s).dlen = s.dlen := rfl
@[simp] theorem initBody_result (s : State) : (initBody s).result = s.result := rfl
@[simp] theorem initBody_mask (s : State) : (initBody s).mask = 0 := rfl
@[simp] theorem initBody_penalty (s : State) : (initBody s).penalty = s.penalty := rfl
@[simp] theorem initBody_penRun (s : State) : (initBody s).penRun = s.penRun := rfl
@[simp] theorem initBody_penBlock (s : State) : (initBody s).penBlock = s.penBlock := rfl
@[simp] theorem initBody_penFinder (s : State) : (initBody s).penFinder = s.penFinder := rfl
@[simp] theorem initBody_penBalance (s : State) : (initBody s).penBalance = s.penBalance := rfl
@[simp] theorem initBody_darkCount (s : State) : (initBody s).darkCount = s.darkCount := rfl
@[simp] theorem initBody_darkK (s : State) : (initBody s).darkK = s.darkK := rfl
@[simp] theorem initBody_best (s : State) : (initBody s).best = 0 := rfl
@[simp] theorem initBody_bestValid (s : State) : (initBody s).bestValid = false := rfl
@[simp] theorem initBody_bestPen (s : State) : (initBody s).bestPen = 0 := rfl
@[simp] theorem initBody_fmt (s : State) : (initBody s).fmt = 0 := rfl
@[simp] theorem initBody_bits (s : State) : (initBody s).bits = 0 := rfl
@[simp] theorem initBody_qx (s : State) : (initBody s).qx = s.qx := rfl
@[simp] theorem initBody_qy (s : State) : (initBody s).qy = s.qy := rfl
@[simp] theorem initBody_trialPen (s : State) : (initBody s).trialPen = Vector.replicate 8 0 := rfl
@[simp] theorem initBody_trialValid (s : State) : (initBody s).trialValid = 0 := rfl
@[simp] theorem initBody_rem (s : State) : (initBody s).rem = s.rem := rfl
@[simp] theorem initBody_data (s : State) : (initBody s).data = s.data := rfl
@[simp] theorem initBody_cw (s : State) : (initBody s).cw = s.cw := rfl
@[simp] theorem initBody_modPlane (s : State) : (initBody s).modPlane = Plane.light := rfl
@[simp] theorem initBody_fnPlane (s : State) : (initBody s).fnPlane = Plane.light := rfl
@[simp] theorem initBody_rstN (s : State) : (initBody s).rstN = s.rstN := rfl
@[simp] theorem initBody_rdata (s : State) : (initBody s).rdata = s.rdata := rfl
@[simp] theorem initBody_schedule (s : State) : (initBody s).schedule = s.schedule := rfl
@[simp] theorem initBody_draws (s : State) : (initBody s).draws = s.draws := rfl
@[simp] theorem initBody_resets (s : State) : (initBody s).resets = s.resets := rfl

/-! `recordError` -/

@[simp] theorem recordError_cfg (c : ErrCode) (info : Word) (s : State) : (recordError c info s).cfg = s.cfg := by unfold recordError; split <;> rfl
@[simp] theorem recordError_ie (c : ErrCode) (info : Word) (s : State) : (recordError c info s).ie = s.ie := by unfold recordError; split <;> rfl
@[simp] theorem recordError_busy (c : ErrCode) (info : Word) (s : State) : (recordError c info s).busy = s.busy := by unfold recordError; split <;> rfl
@[simp] theorem recordError_phase (c : ErrCode) (info : Word) (s : State) : (recordError c info s).phase = s.phase := by unfold recordError; split <;> rfl
@[simp] theorem recordError_err (c : ErrCode) (info : Word) (s : State) : (recordError c info s).err = true := by unfold recordError; split <;> simp_all
@[simp] theorem recordError_errOvf (c : ErrCode) (info : Word) (s : State) : (recordError c info s).errOvf = (s.errOvf || s.err) := by unfold recordError; split <;> simp_all
@[simp] theorem recordError_irq (c : ErrCode) (info : Word) (s : State) : (recordError c info s).irq = s.irq := by unfold recordError; split <;> rfl
@[simp] theorem recordError_fnValid (c : ErrCode) (info : Word) (s : State) : (recordError c info s).fnValid = s.fnValid := by unfold recordError; split <;> rfl
@[simp] theorem recordError_maskValid (c : ErrCode) (info : Word) (s : State) : (recordError c info s).maskValid = s.maskValid := by unfold recordError; split <;> rfl
@[simp] theorem recordError_errCode (c : ErrCode) (info : Word) (s : State) : (recordError c info s).errCode = if s.err then s.errCode else some c := by unfold recordError; split <;> simp_all
@[simp] theorem recordError_errInfo (c : ErrCode) (info : Word) (s : State) : (recordError c info s).errInfo = if s.err then s.errInfo else info := by unfold recordError; split <;> simp_all
@[simp] theorem recordError_pending (c : ErrCode) (info : Word) (s : State) : (recordError c info s).pending = s.pending := by unfold recordError; split <;> rfl
@[simp] theorem recordError_dlen (c : ErrCode) (info : Word) (s : State) : (recordError c info s).dlen = s.dlen := by unfold recordError; split <;> rfl
@[simp] theorem recordError_result (c : ErrCode) (info : Word) (s : State) : (recordError c info s).result = s.result := by unfold recordError; split <;> rfl
@[simp] theorem recordError_mask (c : ErrCode) (info : Word) (s : State) : (recordError c info s).mask = s.mask := by unfold recordError; split <;> rfl
@[simp] theorem recordError_penalty (c : ErrCode) (info : Word) (s : State) : (recordError c info s).penalty = s.penalty := by unfold recordError; split <;> rfl
@[simp] theorem recordError_penRun (c : ErrCode) (info : Word) (s : State) : (recordError c info s).penRun = s.penRun := by unfold recordError; split <;> rfl
@[simp] theorem recordError_penBlock (c : ErrCode) (info : Word) (s : State) : (recordError c info s).penBlock = s.penBlock := by unfold recordError; split <;> rfl
@[simp] theorem recordError_penFinder (c : ErrCode) (info : Word) (s : State) : (recordError c info s).penFinder = s.penFinder := by unfold recordError; split <;> rfl
@[simp] theorem recordError_penBalance (c : ErrCode) (info : Word) (s : State) : (recordError c info s).penBalance = s.penBalance := by unfold recordError; split <;> rfl
@[simp] theorem recordError_darkCount (c : ErrCode) (info : Word) (s : State) : (recordError c info s).darkCount = s.darkCount := by unfold recordError; split <;> rfl
@[simp] theorem recordError_darkK (c : ErrCode) (info : Word) (s : State) : (recordError c info s).darkK = s.darkK := by unfold recordError; split <;> rfl
@[simp] theorem recordError_best (c : ErrCode) (info : Word) (s : State) : (recordError c info s).best = s.best := by unfold recordError; split <;> rfl
@[simp] theorem recordError_bestValid (c : ErrCode) (info : Word) (s : State) : (recordError c info s).bestValid = s.bestValid := by unfold recordError; split <;> rfl
@[simp] theorem recordError_bestPen (c : ErrCode) (info : Word) (s : State) : (recordError c info s).bestPen = s.bestPen := by unfold recordError; split <;> rfl
@[simp] theorem recordError_fmt (c : ErrCode) (info : Word) (s : State) : (recordError c info s).fmt = s.fmt := by unfold recordError; split <;> rfl
@[simp] theorem recordError_bits (c : ErrCode) (info : Word) (s : State) : (recordError c info s).bits = s.bits := by unfold recordError; split <;> rfl
@[simp] theorem recordError_qx (c : ErrCode) (info : Word) (s : State) : (recordError c info s).qx = s.qx := by unfold recordError; split <;> rfl
@[simp] theorem recordError_qy (c : ErrCode) (info : Word) (s : State) : (recordError c info s).qy = s.qy := by unfold recordError; split <;> rfl
@[simp] theorem recordError_trialPen (c : ErrCode) (info : Word) (s : State) : (recordError c info s).trialPen = s.trialPen := by unfold recordError; split <;> rfl
@[simp] theorem recordError_trialValid (c : ErrCode) (info : Word) (s : State) : (recordError c info s).trialValid = s.trialValid := by unfold recordError; split <;> rfl
@[simp] theorem recordError_rem (c : ErrCode) (info : Word) (s : State) : (recordError c info s).rem = s.rem := by unfold recordError; split <;> rfl
@[simp] theorem recordError_data (c : ErrCode) (info : Word) (s : State) : (recordError c info s).data = s.data := by unfold recordError; split <;> rfl
@[simp] theorem recordError_cw (c : ErrCode) (info : Word) (s : State) : (recordError c info s).cw = s.cw := by unfold recordError; split <;> rfl
@[simp] theorem recordError_modPlane (c : ErrCode) (info : Word) (s : State) : (recordError c info s).modPlane = s.modPlane := by unfold recordError; split <;> rfl
@[simp] theorem recordError_fnPlane (c : ErrCode) (info : Word) (s : State) : (recordError c info s).fnPlane = s.fnPlane := by unfold recordError; split <;> rfl
@[simp] theorem recordError_rstN (c : ErrCode) (info : Word) (s : State) : (recordError c info s).rstN = s.rstN := by unfold recordError; split <;> rfl
@[simp] theorem recordError_rdata (c : ErrCode) (info : Word) (s : State) : (recordError c info s).rdata = s.rdata := by unfold recordError; split <;> rfl
@[simp] theorem recordError_schedule (c : ErrCode) (info : Word) (s : State) : (recordError c info s).schedule = s.schedule := by unfold recordError; split <;> rfl
@[simp] theorem recordError_draws (c : ErrCode) (info : Word) (s : State) : (recordError c info s).draws = s.draws := by unfold recordError; split <;> rfl
@[simp] theorem recordError_resets (c : ErrCode) (info : Word) (s : State) : (recordError c info s).resets = s.resets := by unfold recordError; split <;> rfl

/-! `updateBest` -/

@[simp] theorem updateBest_cfg (m : BitVec 3) (p : Word) (s : State) : (updateBest m p s).cfg = s.cfg := by unfold updateBest; split <;> rfl
@[simp] theorem updateBest_ie (m : BitVec 3) (p : Word) (s : State) : (updateBest m p s).ie = s.ie := by unfold updateBest; split <;> rfl
@[simp] theorem updateBest_busy (m : BitVec 3) (p : Word) (s : State) : (updateBest m p s).busy = s.busy := by unfold updateBest; split <;> rfl
@[simp] theorem updateBest_phase (m : BitVec 3) (p : Word) (s : State) : (updateBest m p s).phase = s.phase := by unfold updateBest; split <;> rfl
@[simp] theorem updateBest_err (m : BitVec 3) (p : Word) (s : State) : (updateBest m p s).err = s.err := by unfold updateBest; split <;> rfl
@[simp] theorem updateBest_errOvf (m : BitVec 3) (p : Word) (s : State) : (updateBest m p s).errOvf = s.errOvf := by unfold updateBest; split <;> rfl
@[simp] theorem updateBest_irq (m : BitVec 3) (p : Word) (s : State) : (updateBest m p s).irq = s.irq := by unfold updateBest; split <;> rfl
@[simp] theorem updateBest_fnValid (m : BitVec 3) (p : Word) (s : State) : (updateBest m p s).fnValid = s.fnValid := by unfold updateBest; split <;> rfl
@[simp] theorem updateBest_maskValid (m : BitVec 3) (p : Word) (s : State) : (updateBest m p s).maskValid = s.maskValid := by unfold updateBest; split <;> rfl
@[simp] theorem updateBest_errCode (m : BitVec 3) (p : Word) (s : State) : (updateBest m p s).errCode = s.errCode := by unfold updateBest; split <;> rfl
@[simp] theorem updateBest_errInfo (m : BitVec 3) (p : Word) (s : State) : (updateBest m p s).errInfo = s.errInfo := by unfold updateBest; split <;> rfl
@[simp] theorem updateBest_pending (m : BitVec 3) (p : Word) (s : State) : (updateBest m p s).pending = s.pending := by unfold updateBest; split <;> rfl
@[simp] theorem updateBest_dlen (m : BitVec 3) (p : Word) (s : State) : (updateBest m p s).dlen = s.dlen := by unfold updateBest; split <;> rfl
@[simp] theorem updateBest_result (m : BitVec 3) (p : Word) (s : State) : (updateBest m p s).result = s.result := by unfold updateBest; split <;> rfl
@[simp] theorem updateBest_mask (m : BitVec 3) (p : Word) (s : State) : (updateBest m p s).mask = s.mask := by unfold updateBest; split <;> rfl
@[simp] theorem updateBest_penalty (m : BitVec 3) (p : Word) (s : State) : (updateBest m p s).penalty = s.penalty := by unfold updateBest; split <;> rfl
@[simp] theorem updateBest_penRun (m : BitVec 3) (p : Word) (s : State) : (updateBest m p s).penRun = s.penRun := by unfold updateBest; split <;> rfl
@[simp] theorem updateBest_penBlock (m : BitVec 3) (p : Word) (s : State) : (updateBest m p s).penBlock = s.penBlock := by unfold updateBest; split <;> rfl
@[simp] theorem updateBest_penFinder (m : BitVec 3) (p : Word) (s : State) : (updateBest m p s).penFinder = s.penFinder := by unfold updateBest; split <;> rfl
@[simp] theorem updateBest_penBalance (m : BitVec 3) (p : Word) (s : State) : (updateBest m p s).penBalance = s.penBalance := by unfold updateBest; split <;> rfl
@[simp] theorem updateBest_darkCount (m : BitVec 3) (p : Word) (s : State) : (updateBest m p s).darkCount = s.darkCount := by unfold updateBest; split <;> rfl
@[simp] theorem updateBest_darkK (m : BitVec 3) (p : Word) (s : State) : (updateBest m p s).darkK = s.darkK := by unfold updateBest; split <;> rfl
@[simp] theorem updateBest_bestValid (m : BitVec 3) (p : Word) (s : State) : (updateBest m p s).bestValid = true := by unfold updateBest; split <;> simp_all
@[simp] theorem updateBest_fmt (m : BitVec 3) (p : Word) (s : State) : (updateBest m p s).fmt = s.fmt := by unfold updateBest; split <;> rfl
@[simp] theorem updateBest_bits (m : BitVec 3) (p : Word) (s : State) : (updateBest m p s).bits = s.bits := by unfold updateBest; split <;> rfl
@[simp] theorem updateBest_qx (m : BitVec 3) (p : Word) (s : State) : (updateBest m p s).qx = s.qx := by unfold updateBest; split <;> rfl
@[simp] theorem updateBest_qy (m : BitVec 3) (p : Word) (s : State) : (updateBest m p s).qy = s.qy := by unfold updateBest; split <;> rfl
@[simp] theorem updateBest_trialPen (m : BitVec 3) (p : Word) (s : State) : (updateBest m p s).trialPen = s.trialPen := by unfold updateBest; split <;> rfl
@[simp] theorem updateBest_trialValid (m : BitVec 3) (p : Word) (s : State) : (updateBest m p s).trialValid = s.trialValid := by unfold updateBest; split <;> rfl
@[simp] theorem updateBest_rem (m : BitVec 3) (p : Word) (s : State) : (updateBest m p s).rem = s.rem := by unfold updateBest; split <;> rfl
@[simp] theorem updateBest_data (m : BitVec 3) (p : Word) (s : State) : (updateBest m p s).data = s.data := by unfold updateBest; split <;> rfl
@[simp] theorem updateBest_cw (m : BitVec 3) (p : Word) (s : State) : (updateBest m p s).cw = s.cw := by unfold updateBest; split <;> rfl
@[simp] theorem updateBest_modPlane (m : BitVec 3) (p : Word) (s : State) : (updateBest m p s).modPlane = s.modPlane := by unfold updateBest; split <;> rfl
@[simp] theorem updateBest_fnPlane (m : BitVec 3) (p : Word) (s : State) : (updateBest m p s).fnPlane = s.fnPlane := by unfold updateBest; split <;> rfl
@[simp] theorem updateBest_rstN (m : BitVec 3) (p : Word) (s : State) : (updateBest m p s).rstN = s.rstN := by unfold updateBest; split <;> rfl
@[simp] theorem updateBest_rdata (m : BitVec 3) (p : Word) (s : State) : (updateBest m p s).rdata = s.rdata := by unfold updateBest; split <;> rfl
@[simp] theorem updateBest_schedule (m : BitVec 3) (p : Word) (s : State) : (updateBest m p s).schedule = s.schedule := by unfold updateBest; split <;> rfl
@[simp] theorem updateBest_draws (m : BitVec 3) (p : Word) (s : State) : (updateBest m p s).draws = s.draws := by unfold updateBest; split <;> rfl
@[simp] theorem updateBest_resets (m : BitVec 3) (p : Word) (s : State) : (updateBest m p s).resets = s.resets := by unfold updateBest; split <;> rfl

end Sys2Proof.Machine
end

