-- ==== Sys2Proof/Laws/Ops.lean ====
section
/-! SUPPORT. What the shared operations can do, said once each: recording an error, ending a command, the checks before a
command's body, and taking a trial into BEST. -/

namespace Sys2Proof.Machine

/-- Recording an error touches the four fields of the error record only. -/
theorem recordError_eq (c : ErrCode) (info : Word) (s : State) :
    recordError c info s = { s with
      err := true
      errCode := if s.err then s.errCode else some c
      errInfo := if s.err then s.errInfo else info
      errOvf := s.err || s.errOvf } := by
  unfold recordError
  split
  · rename_i h; cases s; simp_all
  · rename_i h; cases s; simp_all

/-- A Reject touches the error record, IRQ and BUSY only. -/
theorem raiseReject_eq (c : ErrCode) (s : State) :
    raiseReject c s = { s with
      err := true
      errCode := if s.err then s.errCode else some c
      errInfo := if s.err then s.errInfo else s.pending
      errOvf := s.err || s.errOvf
      irq := true
      busy := false } := by
  simp [raiseReject, recordError_eq, complete]

/-- A Fault is the same record, and PHASE is FAULT. -/
theorem raiseFault_eq (c : ErrCode) (s : State) : raiseFault c s = { raiseReject c s with phase := .fault } := by
  simp [raiseFault, raiseReject_eq, recordError_eq, complete]

@[simp] theorem andThen_done (s : State) (f : State → CmdResult) : (CmdResult.done s).andThen f = f s := rfl
@[simp] theorem andThen_reject (c : ErrCode) (f : State → CmdResult) : (CmdResult.reject c).andThen f = .reject c := rfl
@[simp] theorem andThen_fault (c : ErrCode) (s : State) (f : State → CmdResult) :
    (CmdResult.fault c s).andThen f = .fault c s := rfl

/-- A body that runs on to a last write: both of its parts did. -/
theorem andThen_eq_done {r : CmdResult} {f : State → CmdResult} {t : State} :
    r.andThen f = .done t ↔ ∃ u, r = .done u ∧ f u = .done t := by
  cases r <;> simp

@[simp] theorem finish_done (s t : State) : finish s (.done t) = .next (complete t) := rfl
@[simp] theorem finish_reject (s : State) (c : ErrCode) : finish s (.reject c) = .next (raiseReject c s) := rfl
@[simp] theorem finish_fault (s t : State) (c : ErrCode) : finish s (.fault c t) = .next (raiseFault c t) := rfl

/-- However a command ends, it answers a next state with IRQ set and BUSY clear. -/
theorem finish_completes (s : State) (r : CmdResult) : ∃ t, finish s r = .next t ∧ t.irq = true ∧ t.busy = false := by
  cases r <;> simp [raiseReject_eq, raiseFault_eq]

theorem requirePhase_pos {ps : List Phase} {s : State} (h : s.phase ∈ ps) (b : CmdResult) : requirePhase ps s b = b := by
  simp [requirePhase, h]

theorem requirePhase_neg {ps : List Phase} {s : State} (h : s.phase ∉ ps) (b : CmdResult) :
    requirePhase ps s b = .reject .sequence := by
  simp [requirePhase, h]

theorem requireDataLength_pos {s : State} (h : s.dlen.toNat = s.cfg.dataCodewords) (b : CmdResult) :
    requireDataLength s b = b := by
  simp [requireDataLength, h]

theorem requireDataLength_neg {s : State} (h : s.dlen.toNat ≠ s.cfg.dataCodewords) (b : CmdResult) :
    requireDataLength s b = .reject .dataLength := by
  simp [requireDataLength, h]

/-- The body each meaning ends (R540). -/
def bodyOf (i : Instr) (s : State) : CmdResult :=
  match i with
  | .nop => .done s
  | .init => .done (initBody s)
  | .drawfn => requirePhase [.init] s (.done (drawfnBody s))
  | .ecc => requirePhase [.func] s (requireDataLength s (eccBody s))
  | .place => requirePhase [.eccd] s (placeBody s)
  | .trial m => requirePhase [.placed] s
      (match maskOperand m with
        | .mask m' => trialBody m' s
        | .auto => .reject .maskRange
        | .outOfRange => .reject .maskRange)
  | .commit m => requirePhase [.placed] s (commitBody m s)
  | .penalty => requirePhase [.init, .func, .eccd, .placed, .done] s (evaluatePenalty s)
  | .encode m => encodeBody m s
  | .gfmul a b => .done (gfmulBody a b s)
  | .rsrem => .done (rsremBody s)

/-- Each meaning ends its body and does nothing else. -/
theorem exec_eq_finish (i : Instr) (s : State) : exec i s = finish s (bodyOf i s) := by
  cases i <;> rfl

/-- What the field M names, case by case. -/
theorem maskOperand_cases (m : BitVec 4) :
    (m.toNat ≤ 7 ∧ maskOperand m = .mask (m.setWidth 3)) ∨ (m = 15 ∧ maskOperand m = .auto) ∨
      (8 ≤ m.toNat ∧ m.toNat ≤ 14 ∧ maskOperand m = .outOfRange) := by
  revert m; decide

/-- The field M names mask `k`. -/
theorem maskOperand_mask {m : BitVec 4} {k : BitVec 3} (h : m.toNat = k.toNat) : maskOperand m = .mask k := by
  revert m k; decide

/-- Taking a result into BEST touches BEST, BESTVALID and BESTPEN only. -/
theorem updateBest_eq (m : BitVec 3) (p : Word) (s : State) :
    updateBest m p s = { s with
      best := if s.bestValid = false ∨ p < s.bestPen ∨ (p = s.bestPen ∧ m < s.best) then m else s.best
      bestValid := true
      bestPen := if s.bestValid = false ∨ p < s.bestPen ∨ (p = s.bestPen ∧ m < s.best) then p else s.bestPen } := by
  unfold updateBest
  split
  · rfl
  · rename_i h
    have hv : s.bestValid = true := by
      cases hb : s.bestValid
      · exact absurd (.inl hb) h
      · rfl
    cases s; simp_all

end Sys2Proof.Machine
end

