-- ==== Sys2Proof/Laws/Plane.lean ====
section
/-! SUPPORT. The laws of the planes and of the bit-field helpers: what each writes and what it leaves. -/

namespace Sys2Proof.Machine

/-- The bits of `bitsOf`: `f` below `n`, 0 from there up. -/
theorem getLsbD_bitsOf (w n : Nat) (f : Nat → Bool) (i : Nat) :
    (bitsOf w n f).getLsbD i = (decide (i < n ∧ i < w) && f i) := by
  induction n with
  | zero => simp [bitsOf]
  | succ n ih =>
    have hone : ∀ hi : i < w, (1#w <<< n).getLsbD i = decide (i = n) := by
      intro hi
      rw [BitVec.getLsbD_shiftLeft]
      by_cases h : i < n
      · have : i ≠ n := by omega
        simp [h, this]
      · by_cases h2 : i = n
        · subst h2; simp; omega
        · have : i - n ≠ 0 := by omega
          simp [h2, BitVec.getLsbD_one, this]
    simp only [bitsOf]
    by_cases hi : i < w
    · split
      · rename_i hf
        rw [BitVec.getLsbD_or, ih, hone hi]
        by_cases h2 : i = n
        · subst h2; simp [hi, hf]
        · simp only [h2, decide_false, Bool.or_false]
          congr 2
          apply propext; omega
      · rename_i hf
        rw [ih]
        by_cases h2 : i = n
        · subst h2; simp [hf]
        · congr 2
          apply propext; omega
    · have h1 : ∀ v : BitVec w, v.getLsbD i = false := fun v => BitVec.getLsbD_of_ge v i (by omega)
      simp [h1, hi]

/-- `putBit` sets the one bit and leaves the others. -/
theorem getLsbD_putBit {w : Nat} (v : BitVec w) (i j : Nat) (b : Bool) (hi : i < w) :
    (putBit v i b).getLsbD j = if j = i then b else v.getLsbD j := by
  have hone : j < w → (1#w <<< i).getLsbD j = decide (j = i) := by
    intro hj
    rw [BitVec.getLsbD_shiftLeft]
    by_cases h : j < i
    · have : j ≠ i := by omega
      simp [h, this]
    · by_cases h2 : j = i
      · subst h2; simp; omega
      · have : j - i ≠ 0 := by omega
        simp [h2, BitVec.getLsbD_one, this]
  by_cases hj : j < w
  · unfold putBit
    cases b
    · by_cases h : j = i
      · subst h; simp [hone hj]
      · simp [hj, h]; omega
    · by_cases h : j = i
      · subst h; simp [hone hj]
      · simp [hone hj, h]
  · have h1 : ∀ v : BitVec w, v.getLsbD j = false := fun v => BitVec.getLsbD_of_ge v j (by omega)
    have h2 : j ≠ i := by omega
    simp [h1, h2]

@[simp] theorem row_ofRows (f : Nat → Row) {y : Nat} (h : y < 64) : (Plane.ofRows f).row y = f y := by
  unfold Plane.ofRows Plane.row
  simp [h]

/-- A cell of `ofRows`. -/
theorem get_ofRows (f : Nat → Row) {y : Nat} (x : Nat) (h : y < 64) : (Plane.ofRows f).get y x = (f y).getLsbD x := by
  simp [Plane.get, h]

/-- A row beyond the window reads as 0. -/
theorem row_of_ge (p : Plane) {y : Nat} (h : 64 ≤ y) : p.row y = 0 := by
  unfold Plane.row
  rw [Vector.getElem?_eq_none (by omega)]
  rfl

/-- A cell beyond the window reads as light. -/
theorem get_of_ge (p : Plane) {y x : Nat} (h : 64 ≤ y ∨ 64 ≤ x) : p.get y x = false := by
  unfold Plane.get
  rcases h with h | h
  · simp [row_of_ge p h]
  · exact BitVec.getLsbD_of_ge _ _ h

/-- The cells of `ofCells`. -/
theorem get_ofCells (size : Nat) (f : Nat → Nat → Bool) (y x : Nat) :
    (Plane.ofCells size f).get y x = (decide ((y < size ∧ y < 64) ∧ x < size ∧ x < 64) && f y x) := by
  by_cases hy : y < 64
  · rw [Plane.ofCells, get_ofRows _ _ hy]
    by_cases h : y < size
    · simp [h, hy, getLsbD_bitsOf]
    · simp [h]
  · rw [get_of_ge _ (.inl (by omega))]
    simp [hy]

@[simp] theorem get_light (y x : Nat) : Plane.light.get y x = false := by
  by_cases hy : y < 64
  · simp [Plane.light, get_ofRows _ _ hy]
  · exact get_of_ge _ (.inl (by omega))

/-- Setting a row that is in the window. -/
theorem row_setIfInBounds (p : Plane) (y y' : Nat) (r : Row) :
    Plane.row (p.setIfInBounds y r) y' = if y' = y ∧ y < 64 then r else p.row y' := by
  unfold Plane.row
  rw [Vector.getElem?_setIfInBounds]
  by_cases h : y' = y
  · subst h
    by_cases hy : y' < 64
    · simp [hy]
    · simp [hy]
  · simp [h, Ne.symm h]

/-- `set` writes one cell and leaves every other as it was. -/
theorem get_set (p : Plane) {y x : Nat} (y' x' : Nat) (b : Bool) (hy : y < 64) (hx : x < 64) :
    (p.set y x b).get y' x' = if y' = y ∧ x' = x then b else p.get y' x' := by
  unfold Plane.set Plane.get
  rw [row_setIfInBounds]
  by_cases h : y' = y
  · subst h
    simp [hy, getLsbD_putBit _ _ _ _ hx]
  · simp [h]

/-- Two planes are equal if all their cells are. -/
theorem plane_ext {p q : Plane} (h : ∀ y < 64, ∀ x < 64, p.get y x = q.get y x) : p = q := by
  apply Vector.ext
  intro y hy
  apply BitVec.eq_of_getLsbD_eq
  intro x hx
  have := h y hy x hx
  simpa [Plane.get, Plane.row, hy] using this

/-- Setting a cell to what it holds changes nothing. -/
theorem set_get_self (p : Plane) {y x : Nat} (hy : y < 64) (hx : x < 64) : p.set y x (p.get y x) = p := by
  apply plane_ext
  intro y' _ x' _
  rw [get_set p y' x' _ hy hx]
  split
  · rename_i h; rw [h.1, h.2]
  · rfl

end Sys2Proof.Machine
end

