-- ==== Sys2Proof/Laws/Bus.lean ====
section
/-! SUPPORT. What a bus access and the reset input can do, said once each, and which word each window's offset names. -/

namespace Sys2Proof.Machine

/-- Address bits 1..0 do not matter (R152). -/
theorem decodeOffset_aligned (a : Offset) : decodeOffset (a &&& 0xFFC) = decodeOffset a := by
  unfold decodeOffset
  congr 1
  revert a; decide +kernel

/-- An entry of the DATA window (R91). -/
theorem decodeOffset_data {i : Nat} (h : i < 256) : decodeOffset (BitVec.ofNat 12 (0x400 + 4 * i)) = .data i := by
  revert i; decide +kernel

/-- A word of the MODROW window (R95). -/
theorem decodeOffset_modRow {y h : Nat} (hy : y < 64) (hh : h < 2) :
    decodeOffset (BitVec.ofNat 12 (0xC00 + 8 * y + 4 * h)) = .modRow y h := by
  have key : ∀ y < 64, ∀ h < 2, decodeOffset (BitVec.ofNat 12 (0xC00 + 8 * y + 4 * h)) = .modRow y h := by decide +kernel
  exact key y hy h hh

/-- A word of the FNROW window (R96). -/
theorem decodeOffset_fnRow {y h : Nat} (hy : y < 64) (hh : h < 2) :
    decodeOffset (BitVec.ofNat 12 (0xE00 + 8 * y + 4 * h)) = .fnRow y h := by
  have key : ∀ y < 64, ∀ h < 2, decodeOffset (BitVec.ofNat 12 (0xE00 + 8 * y + 4 * h)) = .fnRow y h := by decide +kernel
  exact key y hy h hh

/-- An entry of a DATA window word is one of 256. -/
theorem decodeOffset_data_bound {a : Offset} {i : Nat} (h : decodeOffset a = .data i) : i < 256 := by
  have key : ∀ a : Offset, (match decodeOffset a with | .data i => decide (i < 256) | _ => true) = true := by decide +kernel
  have := key a
  rw [h] at this
  simpa using this

/-- A half-row's bits are its cells, from column `32 * h` up (R95, R158). -/
theorem getLsbD_rowWord (cell : Nat → Nat → Bool) (y h b : Nat) :
    (rowWord cell y h).getLsbD b = (decide (b < 32) && cell y (32 * h + b)) := by
  unfold rowWord
  rw [getLsbD_bitsOf]
  by_cases hb : b < 32 <;> simp [hb]

/-- A read drives `rdata` and may draw a value; nothing else changes (R154). -/
theorem hostRead_frame (a : Offset) (s : State) : { hostRead a s with rdata := s.rdata, draws := s.draws } = s := by
  unfold hostRead
  split <;> rfl

/-- Bit 0 of STATUS is BUSY (R61). -/
theorem statusWord_busy (s : State) : (statusWord s).getLsbD 0 = s.busy := by
  unfold statusWord
  refine BitVec.getLsbD_append.trans ?_
  simp [flag]

/-- A read of STATUS answers it, also while BUSY = 1 (R160(d)), but not in reset (R700). -/
theorem hostRead_status {s : State} (h : s.rstN = true) : hostRead 0x014 s = { s with rdata := statusWord s } := by
  have hd : decodeOffset 0x014 = .status := by decide +kernel
  unfold hostRead readIsDraw
  rw [hd]
  simp [h, unspecifiedWhileBusy, readWord]

/-- A half-row write to the module plane changes the module plane only. -/
theorem writeModRow_frame (y h : Nat) (v : Word) (s : State) : { writeModRow y h v s with modPlane := s.modPlane } = s := by
  unfold writeModRow
  split <;> rfl

/-- All that a host write can do (R155, R160, R612, R613). -/
theorem hostWrite_cases (a : Offset) (v : Word) (s : State) :
    hostWrite a v s = s ∨
      s.rstN = true ∧
        (hostWrite a v s = { s with ie := v.getLsbD 0 } ∨
          hostWrite a v s = clearFlags v s ∨
          hostWrite a v s = { s with qx := v.extractLsb' 0 16, qy := v.extractLsb' 16 16 } ∨
          (s.busy = true ∧ hostWrite a v s = recordError .busy ((a &&& 0xFFC#12).setWidth 32) s) ∨
          (s.busy = false ∧
            (hostWrite a v s = { s with pending := v, busy := true } ∨
              hostWrite a v s = { s with dlen := v.setWidth 8 } ∨
              (∃ i < 256, hostWrite a v s = { s with data := s.data.write i (v.setWidth 8) }) ∨
              ∃ y h, hostWrite a v s = writeModRow y h v s))) := by
  generalize e : hostWrite a v s = t
  unfold hostWrite unlessBusy at e
  split at e
  · exact .inl e.symm
  · rename_i hr
    rw [Bool.not_eq_false] at hr
    split at e <;> (try split at e) <;> rename_i hw <;>
      first
        | exact .inl e.symm
        | exact .inr ⟨hr, .inl e.symm⟩
        | exact .inr ⟨hr, .inr (.inl e.symm)⟩
        | exact .inr ⟨hr, .inr (.inr (.inl e.symm))⟩
        | exact .inr ⟨hr, .inr (.inr (.inr (.inl ⟨hw, e.symm⟩)))⟩
        | skip
    · exact .inr ⟨hr, .inr (.inr (.inr (.inr ⟨eq_false_of_ne_true hw, .inl e.symm⟩)))⟩
    · exact .inr ⟨hr, .inr (.inr (.inr (.inr ⟨eq_false_of_ne_true hw, .inr (.inl e.symm)⟩)))⟩
    · rename_i hd
      exact .inr ⟨hr, .inr (.inr (.inr (.inr ⟨eq_false_of_ne_true hw, .inr (.inr (.inl ⟨_, decodeOffset_data_bound hd, e.symm⟩))⟩)))⟩
    · exact .inr ⟨hr, .inr (.inr (.inr (.inr ⟨eq_false_of_ne_true hw, .inr (.inr (.inr ⟨_, _, e.symm⟩))⟩)))⟩

/-- What no host write changes: everything but CTRL, the STATUS flags, the error record, QUERY, PENDING, BUSY, DLEN, DATA and
the module plane (R55). -/
theorem hostWrite_frame (a : Offset) (v : Word) (s : State) :
    { hostWrite a v s with
      ie := s.ie, busy := s.busy, err := s.err, errOvf := s.errOvf, irq := s.irq, errCode := s.errCode,
      errInfo := s.errInfo, pending := s.pending, dlen := s.dlen, qx := s.qx, qy := s.qy, data := s.data,
      modPlane := s.modPlane } = s := by
  rcases hostWrite_cases a v s with h | ⟨-, h | h | h | ⟨-, h⟩ | ⟨-, h | h | ⟨i, -, h⟩ | ⟨y, hh, h⟩⟩⟩ <;> rw [h]
  · rfl
  · rw [recordError_eq]
  · unfold writeModRow; split <;> rfl

/-- The reset input: it keeps the configuration, the pins and the events still to come (R110, R700). -/
theorem driveReset_cases (level : Bool) (s : State) :
    (level = true ∧ s.rstN = false ∧ driveReset level s =
      { State.resetOf s.cfg (s.resets + 1) with rdata := s.rdata, schedule := s.schedule, draws := s.draws }) ∨
    (¬ (level = true ∧ s.rstN = false) ∧ driveReset level s = { s with rstN := level }) := by
  unfold driveReset
  split
  · rename_i h; exact .inl ⟨h.1, h.2, rfl⟩
  · rename_i h; exact .inr ⟨h, rfl⟩

/-- A host write keeps DATA in canonical form. -/
theorem hostWrite_data_wf (a : Offset) (v : Word) {s : State} (h : s.data.wf = true) : (hostWrite a v s).data.wf = true := by
  rcases hostWrite_cases a v s with e | ⟨-, e | e | e | ⟨-, e⟩ | ⟨-, e | e | ⟨i, -, e⟩ | ⟨y, hh, e⟩⟩⟩ <;> rw [e] <;>
    first
      | exact h
      | exact wf_write h _ _
      | (rw [recordError_eq]; exact h)
      | (unfold writeModRow; split <;> exact h)

end Sys2Proof.Machine
end

