-- ==== Sys2Proof/Laws/Decode.lean ====
section
/-! SUPPORT. The fields of the words the encoder writes, format by format. -/

namespace Sys2Proof

/-! The bits of a word of each format -/

theorem getLsbD_wordN (o : Byte) (i : Nat) : (wordN o).getLsbD i = if i < 8 then o.getLsbD i else false := by
  have h : (wordN o).getLsbD i = if i < 8 then o.getLsbD i else (0#24).getLsbD (i - 8) := BitVec.getLsbD_append
  simpa using h

theorem getLsbD_wordM (m : BitVec 4) (o : Byte) (i : Nat) :
    (wordM m o).getLsbD i = if i < 8 then o.getLsbD i else if i - 8 < 4 then m.getLsbD (i - 8) else false := by
  have h : (wordM m o).getLsbD i = if i < 8 then o.getLsbD i else (0#20 ++ m).getLsbD (i - 8) := BitVec.getLsbD_append
  rw [h]
  split
  · rfl
  · exact BitVec.getLsbD_append.trans (by simp)

theorem getLsbD_wordG (b a o : Byte) (i : Nat) :
    (wordG b a o).getLsbD i =
      if i < 8 then o.getLsbD i else if i < 16 then false else if i < 24 then a.getLsbD (i - 16) else b.getLsbD (i - 24) := by
  have h : (wordG b a o).getLsbD i = if i < 8 then o.getLsbD i else (b ++ a ++ 0#8).getLsbD (i - 8) := BitVec.getLsbD_append
  rw [h]
  split
  · rfl
  · refine BitVec.getLsbD_append.trans ?_
    by_cases h1 : i < 16
    · have : i - 8 < 8 := by omega
      simp [this, h1]
    · have h2 : ¬ i - 8 < 8 := by omega
      rw [BitVec.getLsbD_append]
      by_cases h3 : i < 24
      · have h4 : i - 8 - 8 < 8 := by omega
        have h5 : i - 8 - 8 = i - 16 := by omega
        rw [if_neg h2, if_pos h4, if_neg h1, if_pos h3, h5]
      · have h4 : ¬ i - 8 - 8 < 8 := by omega
        have h5 : i - 8 - 8 - 8 = i - 24 := by omega
        rw [if_neg h2, if_neg h4, if_neg h1, if_neg h3, h5]

/-! Format N (R202) -/

@[simp] theorem opcField_wordN (o : Byte) : opcField (wordN o) = o := by
  apply BitVec.eq_of_getLsbD_eq
  intro i hi
  simp [opcField, getLsbD_wordN, hi]

@[simp] theorem reservedClear_wordN (o : Byte) : reservedClear .n (wordN o) = true := by
  simp only [reservedClear, beq_iff_eq]
  apply BitVec.eq_of_getLsbD_eq
  intro i hi
  simp [getLsbD_wordN]

/-! Format M (R203) -/

@[simp] theorem opcField_wordM (m : BitVec 4) (o : Byte) : opcField (wordM m o) = o := by
  apply BitVec.eq_of_getLsbD_eq
  intro i hi
  simp [opcField, getLsbD_wordM, hi]

@[simp] theorem mField_wordM (m : BitVec 4) (o : Byte) : mField (wordM m o) = m := by
  apply BitVec.eq_of_getLsbD_eq
  intro i hi
  simp [mField, getLsbD_wordM, hi]

@[simp] theorem reservedClear_wordM (m : BitVec 4) (o : Byte) : reservedClear .m (wordM m o) = true := by
  simp only [reservedClear, beq_iff_eq]
  apply BitVec.eq_of_getLsbD_eq
  intro i hi
  have h1 : ¬ 12 + i < 8 := by omega
  have h2 : ¬ 12 + i - 8 < 4 := by omega
  simp [getLsbD_wordM, h1, h2]

/-! Format G (R204) -/

@[simp] theorem opcField_wordG (b a o : Byte) : opcField (wordG b a o) = o := by
  apply BitVec.eq_of_getLsbD_eq
  intro i hi
  simp [opcField, getLsbD_wordG, hi]

@[simp] theorem aField_wordG (b a o : Byte) : aField (wordG b a o) = a := by
  apply BitVec.eq_of_getLsbD_eq
  intro i hi
  have h1 : ¬ 16 + i < 8 := by omega
  have h2 : 16 + i < 24 := by omega
  simp [aField, getLsbD_wordG, hi, h1, h2]

@[simp] theorem bField_wordG (b a o : Byte) : bField (wordG b a o) = b := by
  apply BitVec.eq_of_getLsbD_eq
  intro i hi
  have h1 : ¬ 24 + i < 8 := by omega
  have h2 : ¬ 24 + i < 16 := by omega
  simp [bField, getLsbD_wordG, hi, h1, h2]

@[simp] theorem reservedClear_wordG (b a o : Byte) : reservedClear .g (wordG b a o) = true := by
  simp only [reservedClear, beq_iff_eq]
  apply BitVec.eq_of_getLsbD_eq
  intro i hi
  have h1 : ¬ 8 + i < 8 := by omega
  have h2 : 8 + i < 16 := by omega
  simp [getLsbD_wordG, h1, h2]

/-- The four bytes of a word, put together again. -/
theorem word_of_bytes (w : Word) :
    (w.extractLsb' 24 8 ++ w.extractLsb' 16 8 ++ w.extractLsb' 8 8 ++ w.extractLsb' 0 8 : BitVec 32) = w := by
  apply BitVec.eq_of_getLsbD_eq
  intro i hi
  have h : (w.extractLsb' 24 8 ++ w.extractLsb' 16 8 ++ w.extractLsb' 8 8 ++ w.extractLsb' 0 8 : BitVec 32).getLsbD i =
      if i < 8 then (w.extractLsb' 0 8).getLsbD i
      else (w.extractLsb' 24 8 ++ w.extractLsb' 16 8 ++ w.extractLsb' 8 8).getLsbD (i - 8) := BitVec.getLsbD_append
  rw [h]
  simp only [BitVec.getLsbD_append, BitVec.getLsbD_extractLsb']
  by_cases h1 : i < 8
  · simp [h1]
  · by_cases h2 : i - 8 < 8
    · have : 8 + (i - 8) = i := by omega
      simp [h1, h2, this]
    · by_cases h3 : i - 8 - 8 < 8
      · have : 16 + (i - 8 - 8) = i := by omega
        simp [h1, h2, h3, this]
      · have h4 : 24 + (i - 8 - 8 - 8) = i := by omega
        have h5 : i - 8 - 8 - 8 < 8 := by omega
        simp [h1, h2, h3, h4, h5]

/-- No two rows of the opcode map share an opcode (R220). -/
theorem opcodeMap_opcodes_distinct : (opcodeMap.map (·.opc)).Nodup := by decide

end Sys2Proof
end

