-- ==== Sys2Proof/Laws/Draw.lean ====
section
/-! SUPPORT. What drawing function modules does to the two planes: the last call at a cell decides its module, and every cell
drawn is a function cell. -/

namespace Sys2Proof.Machine

theorem drawAll_append (ws vs : List FnWrite) (p : Planes) : drawAll (ws ++ vs) p = drawAll vs (drawAll ws p) := by
  unfold drawAll; exact List.foldl_append

@[simp] theorem drawAll_nil (p : Planes) : drawAll [] p = p := by unfold drawAll; rfl

theorem drawAll_cons (w : FnWrite) (ws : List FnWrite) (p : Planes) :
    drawAll (w :: ws) p = drawAll ws (setFunctionModule p w) := by unfold drawAll; rfl

/-- The call writes the cell at column `x` of row `y`. -/
def FnWrite.at (w : FnWrite) (y x : Nat) : Bool := decide (y = w.y ∧ x = w.x)

/-- Every call is to a cell of the window. -/
def InWindow (ws : List FnWrite) : Prop := ∀ w ∈ ws, w.y < 64 ∧ w.x < 64

/-- The function plane after drawing: what it was, and every cell drawn. -/
theorem functions_drawAll (ws : List FnWrite) (p : Planes) (h : InWindow ws) (y x : Nat) :
    (drawAll ws p).functions.get y x = (p.functions.get y x || ws.any (FnWrite.at · y x)) := by
  induction ws generalizing p with
  | nil => simp
  | cons w ws ih =>
    have hw := h w (by simp)
    rw [drawAll_cons, ih _ fun v hv => h v (by simp [hv])]
    simp only [setFunctionModule, get_set _ _ _ _ hw.1 hw.2, List.any_cons, FnWrite.at]
    by_cases hc : y = w.y ∧ x = w.x <;> simp [hc]

/-- The module plane after drawing: the last call at a cell decides it, and a cell without a call stays. -/
theorem modules_drawAll (ws : List FnWrite) (p : Planes) (h : InWindow ws) (y x : Nat) :
    (drawAll ws p).modules.get y x =
      match ws.reverse.find? (FnWrite.at · y x) with
      | some w => w.dark
      | none => p.modules.get y x := by
  induction ws generalizing p with
  | nil => simp
  | cons w ws ih =>
    have hw := h w (by simp)
    rw [drawAll_cons, ih _ fun v hv => h v (by simp [hv])]
    simp only [List.reverse_cons, List.find?_append]
    cases hf : ws.reverse.find? (FnWrite.at · y x) with
    | some v => simp
    | none =>
      simp only [setFunctionModule, get_set _ _ _ _ hw.1 hw.2, Option.none_or, List.find?_singleton, FnWrite.at]
      by_cases hc : y = w.y ∧ x = w.x <;> simp [hc]

/-- A cell that no call writes keeps its module. -/
theorem modules_drawAll_other {ws : List FnWrite} (h : InWindow ws) (p : Planes) {y x : Nat}
    (hn : ∀ w ∈ ws, ¬ (y = w.y ∧ x = w.x)) : (drawAll ws p).modules.get y x = p.modules.get y x := by
  rw [modules_drawAll ws p h]
  have : ws.reverse.find? (FnWrite.at · y x) = none := by
    rw [List.find?_eq_none]
    intro w hw
    simpa [FnWrite.at] using hn w (by simpa using hw)
  rw [this]

/-- Drawing the same calls again changes nothing. -/
theorem drawAll_idem (ws : List FnWrite) (p : Planes) (h : InWindow ws) : drawAll ws (drawAll ws p) = drawAll ws p := by
  have hf : (drawAll ws (drawAll ws p)).functions = (drawAll ws p).functions := plane_ext fun y _ x _ => by
    rw [functions_drawAll ws (drawAll ws p) h, functions_drawAll ws p h]
    cases p.functions.get y x <;> simp
  have hm : (drawAll ws (drawAll ws p)).modules = (drawAll ws p).modules := plane_ext fun y _ x _ => by
    rw [modules_drawAll ws (drawAll ws p) h, modules_drawAll ws p h]
    cases ws.reverse.find? (FnWrite.at · y x) <;> rfl
  cases hp : drawAll ws (drawAll ws p); cases hq : drawAll ws p; simp_all

/-- The sizes the windows hold. -/
theorem size_bounds {c : Cfg} (h : c.Admitted) : 21 ≤ c.size ∧ c.size ≤ 41 := by
  have := h.1
  unfold Cfg.size; omega

/-- The calls of `draw_format`, by their cells: copy 1, copy 2, the dark module (R477, R479). -/
theorem formatWrites_cells (size : Nat) (bits : BitVec 15) :
    (formatWrites size bits).map (fun w => (w.x, w.y)) = formatCopy1 ++ formatCopy2 size ++ [(8, size - 8)] := by
  unfold formatWrites
  simp [formatCopy1, formatCopy2, List.range, List.range.loop]

/-- `draw_format` stays in the window. -/
theorem formatWrites_inWindow {size : Nat} (bits : BitVec 15) (h : 21 ≤ size ∧ size ≤ 41) : InWindow (formatWrites size bits) := by
  intro w hw
  have hm : (w.x, w.y) ∈ formatCopy1 ++ formatCopy2 size ++ [(8, size - 8)] := by
    rw [← formatWrites_cells size bits]; exact List.mem_map.mpr ⟨w, hw, rfl⟩
  simp only [List.mem_append, formatCopy2, List.mem_map, List.mem_range, List.mem_singleton, Prod.mk.injEq] at hm
  rcases hm with (hm | ⟨i, hi, he⟩) | hm
  · have : ∀ p ∈ formatCopy1, p.2 < 64 ∧ p.1 < 64 := by decide
    exact this _ hm
  · split at he <;> simp only [Prod.mk.injEq] at he <;> omega
  · omega

/-- Every call of a clipped pattern is to a cell of the matrix. -/
theorem clippedWrite_bounds {size cx cy : Nat} {dx dy : Int} {d : Bool} {w : FnWrite} (h : clippedWrite size cx cy dx dy d = some w) :
    w.x < size ∧ w.y < size := by
  unfold clippedWrite at h
  simp only [Option.ite_none_right_eq_some, Option.some.injEq] at h
  obtain ⟨hc, rfl⟩ := h
  simp only
  omega

/-- Every call of the patterns is to a cell of the matrix (R305). -/
theorem patternWrites_bounds {c : Cfg} (hs : 7 ≤ c.size) : ∀ w ∈ patternWrites c, w.x < c.size ∧ w.y < c.size := by
  unfold patternWrites
  intro w hw
  simp only [List.mem_append, timingWrites, List.mem_flatMap, List.mem_range] at hw
  rcases hw with (⟨i, hi, hw⟩ | ⟨ce, -, hw⟩) | ⟨ce, -, hw⟩
  · simp only [List.mem_cons, List.not_mem_nil, or_false] at hw
    rcases hw with rfl | rfl <;> exact ⟨by simp only; omega, by simp only; omega⟩
  · simp only [finderWrites, List.mem_flatMap, List.mem_filterMap] at hw
    obtain ⟨dy, -, dx, -, hw⟩ := hw
    exact clippedWrite_bounds hw
  · simp only [alignmentWrites, List.mem_flatMap, List.mem_filterMap] at hw
    obtain ⟨dy, -, dx, -, hw⟩ := hw
    exact clippedWrite_bounds hw

/-- `draw_format` on a state: the planes are drawn to and FMT is set; nothing else changes (R476). -/
theorem drawFormat_eq (m : BitVec 3) (s : State) :
    drawFormat m s = { s with
      fmt := formatWord s.cfg.ecl m
      modPlane := (drawAll (formatWrites s.cfg.size (formatWord s.cfg.ecl m)) (planesOf s)).modules
      fnPlane := (drawAll (formatWrites s.cfg.size (formatWord s.cfg.ecl m)) (planesOf s)).functions } := rfl

end Sys2Proof.Machine
end

