-- ==== Sys2Proof/Laws/PerInstr.lean ====
section
/-! SUPPORT. The statements made for each command as syntax, one lemma per constructor. -/

namespace Sys2Proof.Laws.EncodeHeader

/-- The row of the opcode map a command belongs to (R220): its opcode and its format. -/
def row : Instr → Byte × Format
  | .nop => (0x00, .n)
  | .init => (0x01, .n)
  | .drawfn => (0x02, .n)
  | .ecc => (0x03, .n)
  | .place => (0x04, .n)
  | .trial _ => (0x05, .m)
  | .commit _ => (0x06, .m)
  | .penalty => (0x07, .n)
  | .encode _ => (0x08, .m)
  | .gfmul _ _ => (0x10, .g)
  | .rsrem => (0x11, .n)

/-- A command's word has its opcode in bits 7..0 (R201) and 0 in every reserved bit of its format (R202 to R204). -/
def Statement (i : Instr) : Prop := opcField (encode i) = (row i).1 ∧ reservedClear (row i).2 (encode i) = true

theorem nop : Statement .nop := by simp [Statement, row, encode]
theorem init : Statement .init := by simp [Statement, row, encode]
theorem drawfn : Statement .drawfn := by simp [Statement, row, encode]
theorem ecc : Statement .ecc := by simp [Statement, row, encode]
theorem place : Statement .place := by simp [Statement, row, encode]
theorem trial (m : BitVec 4) : Statement (.trial m) := by simp [Statement, row, encode]
theorem commit (m : BitVec 4) : Statement (.commit m) := by simp [Statement, row, encode]
theorem penalty : Statement .penalty := by simp [Statement, row, encode]
theorem encode (m : BitVec 4) : Statement (.encode m) := by simp [Statement, row, Sys2Proof.encode]
theorem gfmul (a b : Byte) : Statement (.gfmul a b) := by simp [Statement, row, Sys2Proof.encode]
theorem rsrem : Statement .rsrem := by simp [Statement, row, Sys2Proof.encode]

end Sys2Proof.Laws.EncodeHeader
end

