-- ==== Sys2Proof/Laws/Step.lean ====
section
/-! SUPPORT. All that one step can do: one inversion lemma, which later proofs cite in place of unfolding `step`. -/

namespace Sys2Proof.Machine

/-- The Engine's step answers a next state with the command completed (R620). -/
theorem engineStep_completes (s : State) : ∃ t, engineStep s = .next t ∧ t.irq = true ∧ t.busy = false := by
  unfold engineStep
  split
  · rename_i i _
    rw [exec_eq_finish]; exact finish_completes s _
  · exact finish_completes s _

/-- An Engine turn is the Engine's step, or nothing if it has none. -/
theorem engineTurn_cases (s : State) :
    (s.busy = true ∧ s.rstN = true ∧ engineTurn s = engineStep s) ∨
      (¬ (s.busy = true ∧ s.rstN = true) ∧ engineTurn s = .next s) := by
  unfold engineTurn engineReady
  cases hb : s.busy <;> cases hr : s.rstN <;> simp

/-- What one event of a wait can be: the step of the command in flight, once the latency has passed, or a read of STATUS, after
which the wait goes on exactly if bit 0 of the answer is 1 (R232). -/
theorem hostWait_cases (polls : Nat) (s : State) :
    (polls = 0 ∧ s.busy = true ∧ s.rstN = true ∧
        hostWait polls s = engineStep { s with schedule := .waitIdle 0 :: s.schedule }) ∨
      (¬ (polls = 0 ∧ s.busy = true ∧ s.rstN = true) ∧ (hostRead 0x014 s).rdata.getLsbD 0 = true ∧
        hostWait polls s = .next { hostRead 0x014 s with schedule := .waitIdle (polls - 1) :: s.schedule }) ∨
      (¬ (polls = 0 ∧ s.busy = true ∧ s.rstN = true) ∧ (hostRead 0x014 s).rdata.getLsbD 0 = false ∧
        hostWait polls s = .next (hostRead 0x014 s)) := by
  unfold hostWait engineReady
  simp only [Bool.and_eq_true]
  by_cases h : polls = 0 ∧ s.busy = true ∧ s.rstN = true
  · exact .inl ⟨h.1, h.2.1, h.2.2, if_pos h⟩
  · rw [if_neg h]
    cases hb : (hostRead 0x014 s).rdata.getLsbD 0
    · exact .inr (.inr ⟨h, rfl, by simp⟩)
    · exact .inr (.inl ⟨h, rfl, by simp⟩)

/-- The six things a step can be (R50, R161): the Engine's turn, with or without an event for it, an event of a wait, a read, a
write, or a level of the reset input. -/
theorem step_cases {s t : State} (h : step s = .next t) :
    s.cfg.Admitted ∧
      ((s.schedule = [] ∧ engineTurn s = .next t) ∨
        (∃ rest, s.schedule = .engineTurn :: rest ∧ engineTurn { s with schedule := rest } = .next t) ∨
        (∃ polls rest, s.schedule = .waitIdle polls :: rest ∧ hostWait polls { s with schedule := rest } = .next t) ∨
        (∃ a rest, s.schedule = .read a :: rest ∧ t = hostRead a { s with schedule := rest }) ∨
        (∃ a v rest, s.schedule = .write a v :: rest ∧ t = hostWrite a v { s with schedule := rest }) ∨
        ∃ level rest, s.schedule = .rstN level :: rest ∧ t = driveReset level { s with schedule := rest }) := by
  unfold step at h
  split at h
  · rename_i ha
    refine ⟨ha, ?_⟩
    split at h
    · rename_i hs; exact .inl ⟨hs, h⟩
    · rename_i rest hs; exact .inr (.inl ⟨rest, hs, h⟩)
    · rename_i n rest hs; exact .inr (.inr (.inl ⟨n, rest, hs, h⟩))
    · rename_i a rest hs; cases h; exact .inr (.inr (.inr (.inl ⟨a, rest, hs, rfl⟩)))
    · rename_i a v rest hs; cases h; exact .inr (.inr (.inr (.inr (.inl ⟨a, v, rest, hs, rfl⟩))))
    · rename_i l rest hs; cases h; exact .inr (.inr (.inr (.inr (.inr ⟨l, rest, hs, rfl⟩))))
  · cases h

/-- The word `withFetchWord` places is the one in flight, and the Engine moves next. -/
theorem withFetchWord_fields (s : State) (nbits w : Nat) :
    (s.withFetchWord nbits w).pending = BitVec.ofNat 32 (w % 2 ^ nbits) ∧ (s.withFetchWord nbits w).busy = true ∧
      (s.withFetchWord nbits w).rstN = true ∧ (s.withFetchWord nbits w).schedule = .engineTurn :: s.schedule :=
  ⟨rfl, rfl, rfl, rfl⟩

/-- The memory of the state after reset is in canonical form. -/
theorem reset_memories_wf (c : Cfg) (n : Nat) : (State.resetOf c n).data.wf = true ∧ (State.resetOf c n).cw.wf = true :=
  ⟨rfl, rfl⟩

/-- ECC keeps CW in canonical form. -/
theorem eccBody_cw_wf {s t : State} (h : s.cw.wf = true) (he : eccBody s = .done t) : t.cw.wf = true := by
  unfold eccBody at he
  dsimp only at he
  split at he
  · cases he
  · cases he; exact wf_writeFrom _ h 0

end Sys2Proof.Machine
end

