-- ==== Sys2Proof/Machine/HostProgram.lean ====
section
/-! DEFINITION. The host's notation (R230 to R232), printed and read, and the bus accesses its pseudo-instructions
stand for, as events of the schedule. -/

namespace Sys2Proof.Machine

/-- The spelling of the field M: `auto` for 15 (R230). -/
def maskSpelling (m : BitVec 4) : String := if m = 15 then "auto" else toString m.toNat

/-- A command's line: upper-case mnemonic, operands in decimal (R230). -/
def assembly : Instr → String
  | .nop => "NOP"
  | .init => "INIT"
  | .drawfn => "DRAWFN"
  | .ecc => "ECC"
  | .place => "PLACE"
  | .trial m => "TRIAL " ++ maskSpelling m
  | .commit m => "COMMIT " ++ maskSpelling m
  | .penalty => "PENALTY"
  | .encode m => "ENCODE " ++ maskSpelling m
  | .gfmul a b => "GFMUL " ++ toString a.toNat ++ ", " ++ toString b.toNat
  | .rsrem => "RSREM"

/-- `WAIT` (R232): repeat `RD 0x014` until bit 0 reads 0. `polls` is how many of the reads come before the latency of a command
in flight has passed, which R730 leaves open. -/
def waitEvents (polls : Nat) : List Event := [.waitIdle polls]

/-- A command line (R232): the write to CMD, then `WAIT`. -/
def commandEvents (polls : Nat) (i : Instr) : List Event := .write 0x018 (encode i) :: waitEvents polls

/-- `LOAD b0, b1, …` (R232): DLEN, then the entries of DATA. R232 states no width for an operand: here it is the 32-bit word
of the write it stands for (R152), of which the entry keeps bits 7..0 (R91, R155). DESIGN CHOICE, log entry 22. -/
def loadEvents (bs : List (BitVec 32)) : List Event :=
  .write 0x020 (BitVec.ofNat 32 bs.length) :: bs.mapIdx fun i b => .write (BitVec.ofNat 12 (0x400 + 4 * i)) b

/-- `CLRERR` (R232). -/
def clearErrorEvents : List Event := [.write 0x014 0x30]

/-- `ACK` (R232). -/
def ackEvents : List Event := [.write 0x014 0x40]

/-- `QUERY x, y` (R232). -/
def queryEvents (x y : BitVec 16) : List Event := [.write 0x054 (y ++ x), .read 0x058]

/-! ### Reading a line -/

/-- The digits, by rising value. -/
def digitChars : List Char := "0123456789ABCDEF".toList

/-- The number these digits spell in a base (R230); hexadecimal digits of either case, and `_` only groups digits (R30). -/
def readDigits (base : Nat) (cs : List Char) : Option Nat :=
  match cs.filter (· != '_') with
  | [] => none
  | ds => (ds.mapM fun c => (digitChars.take base).idxOf? c.toUpper).map fun values => values.foldl (base * · + ·) 0

/-- A number: decimal, or hexadecimal after `0x` (R230). -/
def readNat (cs : List Char) : Option Nat :=
  if cs.take 2 = ['0', 'x'] then readDigits 16 (cs.drop 2) else readDigits 10 cs

/-- A number that may be negative, as a coordinate of QUERY may be (R73). -/
def readInt (cs : List Char) : Option Int :=
  match cs with
  | '-' :: rest => (readNat rest).map fun n => -(n : Int)
  | _ => (readNat cs).map fun n => (n : Int)

/-- A number of `w` bits. -/
def readBits (w : Nat) (cs : List Char) : Option (BitVec w) :=
  (readNat cs).bind fun n => if n < 2 ^ w then some (BitVec.ofNat w n) else none

/-- The field M: `auto` is 15 (R230). -/
def readMask (cs : List Char) : Option (BitVec 4) := if cs = "auto".toList then some 15 else readBits 4 cs

/-- A coordinate of QUERY: bits 15..0 of the number (R232), read back as a signed value (R73). -/
def readCoordinate (cs : List Char) : Option (BitVec 16) := (readInt cs).map (BitVec.ofInt 16)

/-- Without the spaces at both ends. -/
def trimmed (cs : List Char) : List Char := ((cs.dropWhile (· == ' ')).reverse.dropWhile (· == ' ')).reverse

/-- The parts between commas. -/
def commaParts : List Char → List (List Char)
  | [] => [[]]
  | c :: cs =>
    match commaParts cs with
    | [] => [[c]]
    | part :: parts => if c = ',' then [] :: part :: parts else (c :: part) :: parts

/-- A line's mnemonic and its operands (R230). -/
def lineParts (line : String) : List Char × List (List Char) :=
  let cs := trimmed line.toList
  let rest := trimmed (cs.dropWhile (· != ' '))
  (cs.takeWhile (· != ' '), if rest = [] then [] else (commaParts rest).map trimmed)

/-- Read a command (R230). -/
def parseCommand (line : String) : Option Instr :=
  match lineParts line with
  | (m, []) =>
    if m = "NOP".toList then some .nop
    else if m = "INIT".toList then some .init
    else if m = "DRAWFN".toList then some .drawfn
    else if m = "ECC".toList then some .ecc
    else if m = "PLACE".toList then some .place
    else if m = "PENALTY".toList then some .penalty
    else if m = "RSREM".toList then some .rsrem
    else none
  | (m, [k]) =>
    if m = "TRIAL".toList then (readMask k).map .trial
    else if m = "COMMIT".toList then (readMask k).map .commit
    else if m = "ENCODE".toList then (readMask k).map .encode
    else none
  | (m, [a, b]) =>
    if m = "GFMUL".toList then (readBits 8 a).bind fun x => (readBits 8 b).map fun y => .gfmul x y else none
  | _ => none

/-- Read a line of a program (R230 to R232): a bus operation, a pseudo-instruction or a command, as the events it stands for.
What follows the offset of `RD` states the expected value (R231). `polls` is the latency as `waitEvents` counts it.
R231 and R232 state no range for the numbers of `WR`, `RD` and `LOAD`: an offset is one of the register space (12 bits, R150), a
value one bus word (32 bits, R152), and a wider number, or a `LOAD` that runs past the register space, is no line. DESIGN CHOICE,
log entry 22. -/
def parseLine (polls : Nat) (line : String) : Option (List Event) :=
  let parts := lineParts line
  let m := parts.1
  if m = "WR".toList then
    match parts.2 with
    | [a, v] => (readBits 12 a).bind fun a => (readBits 32 v).map fun v => [.write a v]
    | _ => none
  else if m = "RD".toList then
    match parts.2 with
    | [a] => (readBits 12 (trimmed (a.takeWhile (· != '-')))).map fun a => [.read a]
    | _ => none
  else if m = "WAIT".toList then (if parts.2 = [] then some (waitEvents polls) else none)
  else if m = "CLRERR".toList then (if parts.2 = [] then some clearErrorEvents else none)
  else if m = "ACK".toList then (if parts.2 = [] then some ackEvents else none)
  else if m = "LOAD".toList then if parts.2.length ≤ 768 then (parts.2.mapM (readBits 32)).map loadEvents else none
  else if m = "QUERY".toList then
    match parts.2 with
    | [x, y] => (readCoordinate x).bind fun x => (readCoordinate y).map fun y => queryEvents x y
    | _ => none
  else (parseCommand line).map (commandEvents polls)

end Sys2Proof.Machine
end

