-- ==== Sys2Proof/Tests/Slice0.lean ====
section
/-! SUPPORT. The model's own tests: the well-formedness smoke, one word of every command written out from its encoding, small
one-step tests with the expected values of 95_test_vectors.md and of the rules' own examples, and for each obligation with
hypotheses a state and operands that meet them. -/

namespace Sys2Proof.Tests

open Sys2Proof.Machine

set_option Elab.async false

/-! ### Small states -/

/-- The state a command leaves. -/
def ran (i : Instr) (s : State) : State :=
  match exec i s with
  | .next t => t
  | .fault _ => s
  | .refused _ => s

/-- Every command answers a next state, so `ran` is it. -/
theorem exec_ran (i : Instr) (s : State) : exec i s = .next (ran i s) := by
  obtain ⟨t, ht, -⟩ := finish_completes s (bodyOf i s)
  rw [← exec_eq_finish] at ht
  rw [ht, ran, ht]

/-- The data codewords called ISO in 95_test_vectors.md. -/
def iso : List Byte :=
  [0x10, 0x20, 0x0C, 0x56, 0x61, 0x80, 0xEC, 0x11, 0xEC, 0x11, 0xEC, 0x11, 0xEC, 0x11, 0xEC, 0x11]

/-- REF with ISO loaded. -/
def loaded : State := { State.reset with data := Memory.writeFrom [] 0 iso, dlen := 16 }
def atInit : State := ran .init loaded
def atFunc : State := ran .drawfn atInit
def atEccd : State := ran .ecc atFunc
def atPlaced : State := ran .place atEccd
def atDone : State := ran (.commit 2) atPlaced

/-- REF5Q after INIT and DRAWFN, with DLEN as ECC wants it. -/
def atFunc5Q : State := ran .drawfn (ran .init { State.resetOf .ref5Q 0 with dlen := 62 })

/-- A state of IDLE with this word in flight and the Engine to move next. -/
def busyWith (w : Word) : State := State.reset.withFetchWord 32 w.toNat

/-- The rows of a plane of REF, by their values (R95). -/
def rows (p : Plane) : List Nat := (List.range 21).map fun y => (p.row y).toNat

/-- The seven penalty values of a state, as 95_test_vectors.md lists them. -/
def scores (s : State) : List Nat :=
  [s.penalty.toNat, s.penRun.toNat, s.penBlock.toNat, s.penFinder.toNat, s.penBalance.toNat, s.darkCount.toNat, s.darkK.toNat]

/-! ### Well-formedness -/

theorem test_trial_9_is_ill_formed : (Instr.trial 9).wellFormed = false := by decide
theorem test_trial_auto_is_ill_formed : (Instr.trial 15).wellFormed = false := by decide
theorem test_commit_8_is_ill_formed : (Instr.commit 8).wellFormed = false := by decide
theorem test_encode_14_is_ill_formed : (Instr.encode 14).wellFormed = false := by decide
theorem test_auto_is_well_formed : (Instr.commit 15).wellFormed = true ∧ (Instr.encode 15).wellFormed = true := by decide

/-! ### Decoding: bits 31..0 from left to right, by R202, R203, R204 and R220 -/

theorem test_decode_nop : decode 0b000000000000000000000000_00000000 = .ok .nop := by decide
theorem test_decode_init : decode 0b000000000000000000000000_00000001 = .ok .init := by decide
theorem test_decode_drawfn : decode 0b000000000000000000000000_00000010 = .ok .drawfn := by decide
theorem test_decode_ecc : decode 0b000000000000000000000000_00000011 = .ok .ecc := by decide
theorem test_decode_place : decode 0b000000000000000000000000_00000100 = .ok .place := by decide
theorem test_decode_trial : decode 0b00000000000000000000_0011_00000101 = .ok (.trial 3) := by decide
theorem test_decode_commit : decode 0b00000000000000000000_1111_00000110 = .ok (.commit 15) := by decide
theorem test_decode_penalty : decode 0b000000000000000000000000_00000111 = .ok .penalty := by decide
theorem test_decode_encode : decode 0b00000000000000000000_0010_00001000 = .ok (.encode 2) := by decide
theorem test_decode_gfmul : decode 0b11001010_01010011_00000000_00010000 = .ok (.gfmul 0x53 0xCA) := by decide
theorem test_decode_rsrem : decode 0b000000000000000000000000_00010001 = .ok .rsrem := by decide

/-- V87: the illegal words of the vectors, and why each is one. -/
theorem test_decode_refuses :
    decode 0x00000009 = .error .unassignedOpcode ∧ decode 0x000000FF = .error .unassignedOpcode ∧
      decode 0x00000100 = .error .reservedBits ∧ decode 0x00001005 = .error .reservedBits ∧
      decode 0x00000110 = .error .reservedBits := by decide

/-- R157: lane 0 carries bits 7..0; R200: a word has four bytes. -/
theorem test_decode_bytes :
    decodeBytes [0x10, 0x00, 0x53, 0xCA, 0x07] = .ok (.gfmul 0x53 0xCA, [0x07]) ∧ decodeBytes [0x10, 0x00, 0x53] = .error .truncated := by
  decide

theorem test_decode_table_word : decodeTableWord 32 0x00000305 = some (.trial 3) ∧ decodeTableWord 32 0x00000305 ≠ some (.trial 5) := by decide

/-- R230: the spellings. -/
theorem test_assembly :
    assembly (.trial 3) = "TRIAL 3" ∧ assembly (.commit 15) = "COMMIT auto" ∧ assembly (.gfmul 0x53 0xCA) = "GFMUL 83, 202" := by
  decide +kernel

/-- R230: the spec's examples, read. -/
theorem test_parse_command :
    parseCommand "INIT" = some .init ∧ parseCommand "TRIAL 3" = some (.trial 3) ∧ parseCommand "COMMIT auto" = some (.commit 15) ∧
      parseCommand "GFMUL 0x53, 0xCA" = some (.gfmul 0x53 0xCA) ∧ parseCommand "GFMUL 0x53" = none ∧ parseCommand "init" = none := by
  decide +kernel

/-- R231: bus operations, read; the digits of a number may be grouped (R30). -/
theorem test_parse_bus_operations :
    parseLine 3 "WR 0x018, 0x0000_0305" = some [.write 0x018 0x00000305] ∧ parseLine 3 "RD 0x02C -> 0x00000000" = some [.read 0x02C] ∧
      parseLine 3 "WR 16, 10" = some [.write 0x010 10] ∧ parseLine 3 "WR 16, 1A" = none := by decide +kernel

/-- R232: pseudo-instructions, read; QUERY takes bits 15..0 of its operands. -/
theorem test_parse_pseudo_instructions :
    parseLine 3 "QUERY -1, 0" = some [.write 0x054 0x0000FFFF, .read 0x058] ∧
      parseLine 3 "QUERY 0xFFFF, 0" = some [.write 0x054 0x0000FFFF, .read 0x058] ∧
      parseLine 3 "QUERY 65537, 2" = some [.write 0x054 0x00020001, .read 0x058] ∧
      parseLine 3 "LOAD 0x10,0x20" = some [.write 0x020 2, .write 0x400 0x10, .write 0x404 0x20] ∧
      parseLine 3 "LOAD 0x123" = some [.write 0x020 1, .write 0x400 0x123] ∧ parseLine 3 "LOAD 0x100000000" = none ∧
      parseLine 3 "CLRERR" = some [.write 0x014 0x30] ∧ parseLine 3 "ACK" = some [.write 0x014 0x40] ∧
      parseLine 3 "ENCODE 2" = some [.write 0x018 0x00000208, .waitIdle 3] := by decide +kernel

/-! ### One step each -/

/-- V85. -/
theorem test_nop_status : statusWord (ran .nop State.reset) = 0x00000040 := by decide +kernel

/-- V86: INIT, from reset. -/
theorem test_init_status : statusWord (ran .init State.reset) = 0x000000C2 := by decide +kernel

/-- V35: the module rows after DRAWFN, with FMT and STATUS. -/
theorem test_drawfn_rows :
    rows atFunc.modPlane = [0x1FC07F, 0x104141, 0x17405D, 0x17405D, 0x17415D, 0x104041, 0x1FD57F, 0x000000, 0x090055, 0x000000,
        0x000040, 0x000000, 0x000040, 0x000100, 0x00007F, 0x000041, 0x00015D, 0x00005D, 0x00015D, 0x000041, 0x00017F] ∧
      atFunc.fmt = 0x5412 ∧ statusWord atFunc = 0x000000C4 := by decide +kernel

/-- V36: the function rows after DRAWFN. -/
theorem test_drawfn_function_rows :
    rows atFunc.fnPlane = [0x1FE1FF, 0x1FE1FF, 0x1FE1FF, 0x1FE1FF, 0x1FE1FF, 0x1FE1FF, 0x1FFFFF, 0x1FE1FF, 0x1FE1FF, 0x000040,
        0x000040, 0x000040, 0x000040, 0x0001FF, 0x0001FF, 0x0001FF, 0x0001FF, 0x0001FF, 0x0001FF, 0x0001FF, 0x0001FF] := by
  decide +kernel

/-- V30: one block, and STATUS by V86. -/
theorem test_ecc_codewords :
    (List.range 27).map (cwAt atEccd) = iso ++ [0xA5, 0x24, 0xD4, 0xC1, 0xED, 0x36, 0xC7, 0x87, 0x2C, 0x55, 0x00] ∧
      statusWord atEccd = 0x000000C6 := by decide +kernel

/-- V32, V33: four blocks, two of them short: where the data part ends and the ECC part begins. -/
theorem test_ecc_interleaves_short_and_long_blocks :
    let s := ran .ecc { atFunc5Q with data := Memory.writeFrom [] 0 ((List.range 62).map (BitVec.ofNat 8)) }
    (List.range 14).map (fun k => cwAt s (52 + k)) =
      [0x0D, 0x1C, 0x2B, 0x3B, 0x0E, 0x1D, 0x2C, 0x3C, 0x2D, 0x3D, 0x82, 0x55, 0x12, 0x44] := by decide +kernel

/-- V38: the module rows after PLACE. -/
theorem test_place_rows :
    rows atPlaced.modPlane = [0x1FC87F, 0x104D41, 0x17525D, 0x17505D, 0x174F5D, 0x104241, 0x1FD57F, 0x000A00, 0x090055, 0x0207A1,
        0x1BB8CD, 0x031019, 0x05BBF1, 0x02EF00, 0x04447F, 0x10EE41, 0x02035D, 0x04005D, 0x01BF5D, 0x091241, 0x01BD7F] := by
  decide +kernel

/-- V38, V86: BITS and STATUS after PLACE. -/
theorem test_place_bits : atPlaced.bits = 208 ∧ statusWord atPlaced = 0x000000C8 := by decide +kernel

/-- V40: the score of mask 7; V51: FMT. -/
theorem test_trial_7 :
    let s := ran (.trial 7) atPlaced
    scores s = [1126, 176, 150, 800, 0, 222, 0] ∧ bestWord s = 0x00000107 ∧ s.trialValid = 0x80 ∧ s.fmt = 0x4AA0 := by
  decide +kernel

/-- V53, V89: a mask out of range. -/
theorem test_trial_9_is_rejected : statusWord (ran (.trial 9) atPlaced) = 0x000030D8 := by decide +kernel

/-- V43: the final rows of COMMIT 2. -/
theorem test_commit_2_rows :
    rows atDone.modPlane = [0x1FDA7F, 0x105E41, 0x17415D, 0x17435D, 0x175D5D, 0x105141, 0x1FD57F, 0x001900, 0x07D27D, 0x0695A8,
        0x1F2AC4, 0x078210, 0x0129F8, 0x067D00, 0x00D67F, 0x147D41, 0x06915D, 0x00935D, 0x052D5D, 0x0D8041, 0x052F7F] ∧
      atDone.fmt = 0x5E7C ∧ statusWord atDone = 0x0000014A ∧ scores atDone = [0, 0, 0, 0, 0, 0, 0] := by decide +kernel

/-- V40: the eight penalties of auto-selection, and the mask it commits. -/
theorem test_commit_auto :
    let s := ran (.commit 15) atPlaced
    s.trialPen.toList = [1057, 1253, 1117, 1172, 1250, 1397, 1179, 1126] ∧ s.mask = 0 ∧ bestWord s = 0x00000100 ∧
      s.bestPen = 1057 ∧ s.trialValid = 0xFF ∧ s.penalty = 1126 ∧ statusWord s = 0x0000014A := by decide +kernel

/-- V60: the all-light matrix. -/
theorem test_penalty_all_light : scores (ran .penalty atInit) = [2088, 798, 1200, 0, 90, 0, 9] := by decide +kernel

/-- V62: the checkerboard. -/
theorem test_penalty_checkerboard :
    let p := Plane.ofRows fun y => if 21 ≤ y then 0 else if y % 2 = 0 then 0x155555 else 0x0AAAAA
    scores (ran .penalty { atInit with modPlane := p }) = [0, 0, 0, 0, 0, 221, 0] := by decide +kernel

/-- V90: DATA_LENGTH, with nothing but the error record changed. -/
theorem test_encode_checks_the_length :
    let s := ran (.encode 15) { State.reset with dlen := 15 }
    statusWord s = 0x00004050 ∧ s.errInfo = 0 ∧ s.phase = .idle := by decide +kernel

/-- V43: ENCODE 2 from any phase ends as COMMIT 2 does. -/
theorem test_encode_2 :
    let s := ran (.encode 2) loaded
    rows s.modPlane = rows atDone.modPlane ∧ s.mask = 2 ∧ statusWord s = 0x0000014A := by decide +kernel

/-- V1. -/
theorem test_gfmul :
    (ran (.gfmul 0x53 0xCA) State.reset).result = 0x8F ∧ (ran (.gfmul 0x57 0x83) State.reset).result = 0x31 := by decide +kernel

/-- V21. -/
theorem test_rsrem :
    (ran .rsrem loaded).rem.toList =
      [0xA5, 0x24, 0xD4, 0xC1, 0xED, 0x36, 0xC7, 0x87, 0x2C, 0x55] ++ List.replicate 22 0 := by decide +kernel

/-- V23: the remainder of x^10 is the stored divisor. -/
theorem test_rsrem_of_one :
    (ran .rsrem { State.reset with data := [(0, 1)], dlen := 1 }).rem.toList =
      [0xD8, 0xC2, 0x9F, 0x6F, 0xC7, 0x5E, 0x5F, 0x71, 0x9D, 0xC1] ++ List.replicate 22 0 := by decide +kernel

/-- R450, examples of single lines: two finder patterns, one on one side only, two overlapping, and a run of six. -/
theorem test_line_scores :
    let line (s : String) := lineScore .ref (s.toList.map (· == '1'))
    line "000000010111010000000" = (10, 80) ∧ line "101110101000000000000" = (10, 40) ∧ line "000001100111111001100" = (7, 80) ∧
      line "111111010101010101010" = (4, 0) := by decide +kernel

/-- V88: SEQUENCE; ERRINFO is the command word. -/
theorem test_ecc_out_of_phase :
    let s := ran .ecc (busyWith 0x00000003)
    statusWord s = 0x00002050 ∧ s.errInfo = 0x00000003 := by decide +kernel

/-- V93: a DATA write while BUSY = 1. -/
theorem test_busy_write :
    let s := hostWrite 0x40C 7 (busyWith 1)
    s.errInfo = 0x0000040C ∧ s.errCode = some .busy ∧ s.irq = false ∧ s.data = [] := by decide +kernel

/-- R232: a wait on NOP reads BUSY = 1 once, lets the command run, reads BUSY = 0 and is over. -/
theorem test_wait :
    let next (s : State) : State := match step s with
      | .next t => t
      | .fault _ => s
      | .refused _ => s
    let s0 : State := { busyWith 0 with schedule := waitEvents 1 }
    let s1 := next s0
    let s2 := next s1
    let s3 := next s2
    (s1.rdata = 0x00000001 ∧ s1.schedule = [.waitIdle 0]) ∧ (s2.busy = false ∧ s2.schedule = [.waitIdle 0]) ∧
      s3.rdata = 0x00000040 ∧ s3.schedule = [] := by decide +kernel

/-- V92: CLRERR on 0x30F8. -/
theorem test_clear_errors :
    let s := hostWrite 0x014 0x30 { ran (.trial 9) atPlaced with errOvf := true }
    statusWord s = 0x000000C8 := by decide +kernel

/-- V96, V20: the identity, the configuration registers, the generator ROM. -/
theorem test_constant_words :
    readWord State.reset .id = 0x51520001 ∧ readWord State.reset .cfg0 = 0x0A011501 ∧ readWord State.reset .cfg1 = 0x1A01101A ∧
      readWord State.reset .cfg2 = 0x0A280303 ∧ readWord State.reset (.gen 0) = 0xD8 ∧ readWord State.reset (.gen 9) = 0xC1 ∧
      readWord State.reset (.gen 10) = 0 := by decide +kernel

/-- V98: DATA and DLEN keep the low byte of a write. -/
theorem test_data_and_dlen_mask :
    readWord (hostWrite 0x400 0x123456AB State.reset) (decodeOffset 0x400) = 0xAB ∧
      readWord (hostWrite 0x020 0x00000110 State.reset) (decodeOffset 0x020) = 0x10 := by decide +kernel

/-- V99: QUERY inside the matrix and outside it, on COMMIT 2's symbol. -/
theorem test_query :
    queryData (hostWrite 0x054 0x00000000 atDone) = 1 ∧ queryData (hostWrite 0x054 0x00000007 atDone) = 0 ∧
      queryData (hostWrite 0x054 0x000D0008 atDone) = 1 ∧ queryData (hostWrite 0x054 0x0000FFFF atDone) = 0 ∧
      queryData (hostWrite 0x054 0x00000015 atDone) = 0 := by decide +kernel

/-- V81, V83: the host's codewords of "HELLO", and one byte too many. -/
theorem test_host_codewords :
    hostCodewords .ref [0x48, 0x45, 0x4C, 0x4C, 0x4F, 0x00, 0x41] =
        some [0x40, 0x54, 0x84, 0x54, 0xC4, 0xC4, 0xF0, 0xEC, 0x11, 0xEC, 0x11, 0xEC, 0x11, 0xEC, 0x11, 0xEC] ∧
      hostCodewords .ref (List.replicate 15 0x41) = none := by decide +kernel

/-! ### The states above meet the invariant -/

theorem atInit_inv : atInit.Inv ∧ atInit.phase = .init := by decide +kernel
theorem atFunc_inv : atFunc.Inv ∧ atFunc.phase = .func := by decide +kernel
theorem atEccd_inv : atEccd.Inv ∧ atEccd.phase = .eccd := by decide +kernel
theorem atPlaced_inv : atPlaced.Inv ∧ atPlaced.phase = .placed := by decide +kernel
theorem atDone_inv : atDone.Inv ∧ atDone.phase = .done := by decide +kernel

/-! ### Witnesses: the hypotheses of each obligation are met -/

theorem witness_EncodeOfDecodeIsTheWord : decode 0x00000F05 = .ok (.trial 15) := by decide

/-- Every clause, at the lowest and the highest reserved bit of each format. -/
theorem witness_IllegalWords :
    Claims.IllegalWord 0x00000009 ∧ Claims.IllegalWord 0x000000FF ∧ Claims.IllegalWord 0x00000100 ∧ Claims.IllegalWord 0x80000011 ∧
      Claims.IllegalWord 0x00001005 ∧ Claims.IllegalWord 0x80000008 ∧ Claims.IllegalWord 0x00000110 ∧
      Claims.IllegalWord 0x00008010 ∧ ¬ Claims.IllegalWord 0x00000F05 ∧ Claims.IllegalWord (busyWith 0x00000012).pending := by
  refine ⟨?_, ?_, ?_, ?_, ?_, ?_, ?_, ?_, ?_, ?_⟩ <;> simp only [Claims.IllegalWord] <;> decide +kernel

theorem witness_StepRunsTheDecodedCommand :
    let s := busyWith 0x00000F08
    (s.cfg.Admitted ∧ s.busy = true ∧ s.rstN = true ∧ decode s.pending = .ok (.encode 15)) ∧ s.schedule = .engineTurn :: [] ∧
      ({ s with schedule := [] } : State).schedule = [] ∧
      ({ s with schedule := waitEvents 0 } : State).schedule = .waitIdle 0 :: [] := by
  refine ⟨⟨by decide +kernel, rfl, rfl, by decide +kernel⟩, rfl, rfl, rfl⟩

/-- A wait with a command in flight, and one without. -/
theorem witness_StepRunsTheDecodedCommand_wait :
    let s : State := { busyWith 0 with schedule := [.waitIdle 1] }
    let u : State := { State.reset with schedule := [.waitIdle 0] }
    (s.cfg.Admitted ∧ s.rstN = true ∧ s.schedule = .waitIdle 1 :: [] ∧ s.busy = true) ∧
      u.cfg.Admitted ∧ u.rstN = true ∧ u.schedule = .waitIdle 0 :: [] ∧ u.busy = false :=
  ⟨⟨by decide +kernel, rfl, rfl, rfl⟩, by decide +kernel, rfl, rfl, rfl⟩

theorem witness_EveryStepOfAnElaboratedBlockHasANextState :
    State.reset.cfg.Admitted ∧ ¬ (State.resetOf { Cfg.ref with version := 7 } 0).cfg.Admitted := by decide +kernel

/-- A step of each kind has a next state. -/
theorem witness_NoStepChangesTheConfiguration :
    step { State.reset with schedule := [.write 0x018 1] } = .next (hostWrite 0x018 1 State.reset) ∧
      step { State.reset with schedule := [.rstN false] } = .next (driveReset false State.reset) := ⟨rfl, rfl⟩

theorem witness_EveryStepKeepsTheInvariant :
    State.reset.Inv ∧ atInit.Inv ∧ atFunc.Inv ∧ atEccd.Inv ∧ atPlaced.Inv ∧ atDone.Inv ∧
      step { State.reset with schedule := [.engineTurn] } = .next State.reset := by
  exact ⟨by decide +kernel, atInit_inv.1, atFunc_inv.1, atEccd_inv.1, atPlaced_inv.1, atDone_inv.1, rfl⟩

theorem witness_ResetMeetsTheInvariant :
    Cfg.ref.Admitted ∧ Cfg.ref5Q.Admitted ∧
      ({ version := 6, ecl := .h, numBlocks := 4, eccLen := 28, n1 := 255, n2 := 0, n3 := 255, n4 := 0 } : Cfg).Admitted := by
  decide +kernel

theorem witness_ReleasingResetGivesTheResetValues :
    let s : State := { atDone with rstN := false, busy := true, schedule := [.rstN true] }
    s.cfg.Admitted ∧ s.rstN = false ∧ s.schedule = .rstN true :: [] := ⟨by decide +kernel, rfl, rfl⟩

/-- IRQ cleared by a STATUS write, cleared by a reset, set by a command. -/
theorem witness_EveryCommandCompletesOnceAndIrqIsSticky :
    (∃ t, step { atInit with schedule := [.write 0x014 0x40] } = .next t ∧ atInit.irq = true ∧ t.irq = false) ∧
      (∃ t, step { atInit with rstN := false, schedule := [.rstN true] } = .next t ∧ t.irq = false) ∧
      ∃ t, step (busyWith 0) = .next t ∧ (busyWith 0).irq = false ∧ t.irq = true :=
  ⟨⟨_, rfl, by decide +kernel, by decide +kernel⟩, ⟨_, rfl, by decide +kernel⟩, ⟨_, rfl, by decide +kernel, by decide +kernel⟩⟩

/-- Both clauses, for every command, and for PHASE = FAULT. -/
theorem witness_PhaseTableHolds :
    (State.reset.cfg.Admitted ∧ State.reset.FunctionsWf) ∧ ({ State.reset with phase := .fault } : State).FunctionsWf ∧
      Accepts .init { State.reset with phase := .fault } ∧ Phase.fault ∉ allowedPhases .penalty ∧
      atInit.phase ∉ allowedPhases .place ∧ State.reset.phase ∉ allowedPhases .penalty ∧ Accepts .nop State.reset ∧
      Accepts .init atDone ∧ Accepts .drawfn atInit ∧ Accepts .ecc atFunc ∧ Accepts .place atEccd ∧ Accepts (.trial 7) atPlaced ∧
      Accepts (.commit 15) atPlaced ∧ Accepts .penalty atDone ∧ Accepts (.encode 0) loaded ∧ Accepts (.gfmul 0 255) State.reset ∧
      Accepts .rsrem State.reset := by
  and_intros <;> decide +kernel

/-- Each clause: an illegal word, the three Rejects of `firstReject`, an accepted command. -/
theorem witness_TheFirstErrorThatAppliesIsReported :
    firstReject (.trial 9) atFunc = some .sequence ∧ firstReject (.encode 9) State.reset = some .maskRange ∧
      firstReject (.encode 15) State.reset = some .dataLength ∧ firstReject (.encode 15) loaded = none ∧
      (busyWith 0x00000F08).pending = Sys2Proof.encode (.encode 15) := by decide +kernel

/-- A word that is no command; a command that fails each of its checks. -/
theorem witness_RejectIsPrecise :
    Claims.IllegalWord (busyWith 0x000000FF).pending ∧
      ((busyWith 0x00000003).pending = Sys2Proof.encode .ecc ∧ ¬ Accepts .ecc (busyWith 0x00000003)) ∧
      ((busyWith 0x00000908).pending = Sys2Proof.encode (.encode 9) ∧ ¬ Accepts (.encode 9) (busyWith 0x00000908)) ∧
      (busyWith 0x00000F08).pending = Sys2Proof.encode (.encode 15) ∧ ¬ Accepts (.encode 15) (busyWith 0x00000F08) := by
  refine ⟨by simp only [Claims.IllegalWord]; decide +kernel, by decide +kernel, by decide +kernel, by decide +kernel⟩

theorem witness_ErrorsAreRecordedOnceAndComplete : State.reset.err = false ∧ (ran .ecc State.reset).err = true := by decide +kernel

theorem witness_StatusWriteClearsOnlyTheWrittenFlags :
    atPlaced.rstN = true ∧ (0x014 : Offset) &&& 0xFFC = 0x014 ∧ (0x017 : Offset) &&& 0xFFC = 0x014 := by decide +kernel

/-- The ends of each range of the Engine's inputs, and their neighbours. -/
theorem witness_BusyWriteIsDroppedAndRecorded :
    (busyWith 1).rstN = true ∧ (busyWith 1).busy = true ∧ (busyWith 1).err = false ∧
      ({ busyWith 1 with err := true } : State).err = true ∧ Claims.EngineInput 0x018 ∧ Claims.EngineInput 0x020 ∧
      Claims.EngineInput 0x400 ∧ Claims.EngineInput 0x7FC ∧ Claims.EngineInput 0xC00 ∧ Claims.EngineInput 0xDFC ∧
      ¬ Claims.EngineInput 0x3FC ∧ ¬ Claims.EngineInput 0x800 ∧ ¬ Claims.EngineInput 0xBFC ∧ ¬ Claims.EngineInput 0xE00 := by
  and_intros <;> (try unfold Claims.EngineInput) <;> decide +kernel

theorem witness_OffsetsAreWordOffsetsAndOtherWritesAreIgnored :
    ({ busyWith 1 with rstN := false } : State).rstN = false ∧ ({ busyWith 1 with rstN := false } : State).cfg.Admitted ∧
      (0x013 : Offset) &&& 0xFFC = (0x010 : Offset) &&& 0xFFC ∧ ¬ Claims.Writable 0x000 ∧ ¬ Claims.Writable 0x024 ∧
      ¬ Claims.Writable 0x05C ∧ ¬ Claims.Writable 0x800 ∧ ¬ Claims.Writable 0xFFC ∧ Claims.Writable 0x054 := by
  and_intros <;> (try unfold Claims.Writable Claims.EngineInput) <;> decide +kernel

/-- Each register, idle and busy, and an access as the next event. -/
theorem witness_RegisterWritesTakeTheirFields :
    State.reset.rstN = true ∧ State.reset.busy = false ∧ (busyWith 1).rstN = true ∧ (0x013 : Offset) &&& 0xFFC = 0x010 ∧
      (0x018 : Offset) &&& 0xFFC = 0x018 ∧ (0x023 : Offset) &&& 0xFFC = 0x020 ∧ State.reset.cfg.Admitted ∧
      ({ State.reset with schedule := [.write 0x010 1, .read 0x014] } : State).schedule = .write 0x010 1 :: [.read 0x014] := by
  and_intros <;> first | rfl | decide +kernel

/-- Idle, busy on a stable word, busy on another word, in reset; with the ends of the stable ranges. -/
theorem witness_ReadsAnswerTheRegistersWithoutSideEffect :
    State.reset.busy = false ∧ (busyWith 1).busy = true ∧ ({ busyWith 1 with rstN := false } : State).rstN = false ∧
      Claims.StableRead 0x020 ∧ ¬ Claims.StableRead 0x024 ∧ ¬ Claims.StableRead 0x050 ∧ Claims.StableRead 0x054 ∧
      ¬ Claims.StableRead 0x058 ∧ Claims.StableRead 0x05C ∧ ¬ Claims.StableRead 0x060 ∧ ¬ Claims.StableRead 0x080 ∧
      Claims.StableRead 0x084 ∧ Claims.StableRead 0x17C ∧ ¬ Claims.StableRead 0x180 ∧ ¬ Claims.StableRead 0x1FC ∧
      Claims.StableRead 0x200 ∧ Claims.StableRead 0x7FC ∧ ¬ Claims.StableRead 0x800 ∧ ¬ Claims.StableRead 0xFFC := by
  and_intros <;> (try unfold Claims.StableRead) <;> decide +kernel

theorem witness_ConfigurationRegistersShowTheConfiguration : State.reset.cfg.Admitted ∧ atFunc5Q.cfg.Admitted := by decide +kernel

/-- The corners of the matrix, and the coordinates just outside it. -/
theorem witness_QueryReadsOneModule :
    atDone.rstN = true ∧ atDone.cfg.size = 21 ∧ ((0x00140000 : Word).extractLsb' 16 16).toInt = 20 ∧
      ((0x00140000 : Word).extractLsb' 0 16).toInt = 0 ∧ ((0x0000FFFF : Word).extractLsb' 0 16).toInt = -1 ∧
      ((0x00000015 : Word).extractLsb' 0 16).toInt = 21 := by decide +kernel

/-- The first and the last row of the window, and the last row of the matrix; both halves. -/
theorem witness_ModRowWriteSetsItsCells :
    atInit.cfg.Admitted ∧ atInit.rstN = true ∧ atInit.busy = false ∧ (0 < 64 ∧ 20 < 64 ∧ 63 < 64) ∧ (0 < 2 ∧ 1 < 2) ∧
      (Claims.busValue (hostWrite 0xCA0 0xFFFFFFFF atInit) 0xCA0) = 0x001FFFFF := by decide +kernel

theorem witness_OnlyHostWritesChangeData :
    State.reset.rstN = true ∧ State.reset.busy = false ∧ (0 < 256 ∧ 255 < 256) ∧ exec .nop State.reset = .next (complete State.reset) :=
  ⟨rfl, rfl, by decide, rfl⟩

theorem witness_GeneratorDivisorHasItsRoots : 1 ≤ Cfg.ref.eccLen ∧ Cfg.ref.eccLen ≤ 30 := by decide
theorem witness_CodewordVanishesAtTheRoots : 1 ≤ Cfg.ref5Q.eccLen ∧ Cfg.ref5Q.eccLen ≤ 30 := by decide

/-- Entries below ECC_LEN and from it up. -/
theorem witness_RsremSetsRem : loaded.cfg.eccLen ≤ 32 ∧ 9 < loaded.cfg.eccLen ∧ ¬ 10 < loaded.cfg.eccLen := by decide +kernel

theorem witness_BlocksCoverTheData : Cfg.ref5Q.Admitted ∧ 1 < Cfg.ref5Q.numShortBlocks ∧ ¬ 2 < Cfg.ref5Q.numShortBlocks := by decide

/-- With short blocks and long ones. -/
theorem witness_EccInterleavesTheBlocks :
    (atFunc.cfg.Admitted ∧ atFunc.phase = .func ∧ atFunc.dlen.toNat = atFunc.cfg.dataCodewords) ∧
      atFunc5Q.cfg.Admitted ∧ atFunc5Q.phase = .func ∧ atFunc5Q.dlen.toNat = atFunc5Q.cfg.dataCodewords ∧
      atFunc5Q.cfg.numShortBlocks = 2 ∧ atFunc5Q.cfg.numBlocks = 4 := by decide +kernel

/-- A function cell and a data cell of REF, at the edge of the format area. -/
theorem witness_DrawfnDrawsTheFunctionPatterns :
    (atInit.Inv ∧ atInit.phase = .init) ∧ Claims.functionCell atInit.cfg 8 13 = true ∧
      Claims.functionCell atInit.cfg 9 13 = false := ⟨atInit_inv, by decide +kernel⟩

theorem witness_DataCellCountsPerVersion : (1 ≤ 1 ∧ 1 ≤ 6) ∧ Cfg.ref.version = 1 ∧ Cfg.ref5Q.version = 5 := by decide
theorem witness_FormatWordTable : ((Ecl.l, (0 : BitVec 3)) ≠ (.h, 7)) ∧ ((Ecl.m, (0 : BitVec 3)) ≠ (.m, 1)) := by decide
theorem witness_LaterFormatDrawOverwritesTheEarlier : atPlaced.cfg.Admitted := by decide +kernel
/-- R352, R354: the first strip of SIZE 21 is (20, 19) and upward, the last (1, 0) and downward. -/
theorem witness_ScanVisitsEveryCellOnce :
    1 ≤ Cfg.ref.version ∧ Cfg.ref.version ≤ 6 ∧ (strips 21)[0]? = some 20 ∧ (strips 21)[9]? = some 1 ∧
      (scanCells 21).take 3 = [(20, 20), (19, 20), (20, 19)] ∧ (scanCells 21)[419]? = some (0, 20) := by decide +kernel

/-- The first and the last bit of REF (R358), and a function cell that is not written. -/
theorem witness_PlaceWritesTheCodewordBits :
    (atEccd.Inv ∧ atEccd.phase = .eccd) ∧ (Claims.dataCells atEccd.cfg)[0]? = some (20, 20) ∧
      (Claims.dataCells atEccd.cfg)[207]? = some (0, 12) ∧ (0, 0) ∉ (Claims.dataCells atEccd.cfg).take 208 := ⟨atEccd_inv, by decide +kernel⟩

theorem witness_MaskIsSelfInverse : atPlaced.cfg.Admitted := by decide +kernel

/-- Masks 0 and 7, a format cell and a cell that is none. -/
theorem witness_TrialScoresWithoutCommitting :
    (atPlaced.Inv ∧ atPlaced.phase = .placed) ∧ (0 : BitVec 4).toNat = (0 : BitVec 3).toNat ∧
      (7 : BitVec 4).toNat = (7 : BitVec 3).toNat ∧ formatCopy1[14]? = some (0, 8) ∧ (formatCopy2 21)[8]? = some (8, 14) :=
  ⟨atPlaced_inv, by decide +kernel⟩

theorem witness_ExplicitCommitAppliesTheMask :
    atPlaced.Inv ∧ atPlaced.phase = .placed ∧ (5 : BitVec 4).toNat = (5 : BitVec 3).toNat ∧ ¬ Claims.formatCell Cfg.ref 20 20 := by
  refine ⟨atPlaced_inv.1, atPlaced_inv.2, by decide, ?_⟩
  unfold Claims.formatCell Claims.holdsFormatBit; decide +kernel

theorem witness_AutoCommit : atPlaced.Inv ∧ atPlaced.phase = .placed := atPlaced_inv
theorem witness_DarkModuleIsDarkAfterCommit : atPlaced.Inv ∧ Accepts (.commit 0) atPlaced ∧ Accepts (.commit 15) atPlaced := by
  refine ⟨atPlaced_inv.1, ?_, ?_⟩ <;>
    simp [Accepts, atPlaced_inv.2, allowedPhases, checksDataLength, Instr.wellFormed, namesMask, asksAuto]
theorem witness_PenaltyIsBounded :
    Cfg.ref.Admitted ∧ Cfg.ref.version = 1 ∧ ({ Cfg.ref with version := 6 } : Cfg).version = 6 ∧ Cfg.ref.penaltyBound = 82098 := by decide +kernel

/-- No dark module, every module dark, and the shares next to the least and the greatest index (R436). -/
theorem witness_BalanceIndexIsTheLeast :
    (0 < 441 ∧ 0 ≤ 441 ∧ 441 ≤ 441) ∧ balanceIndex 0 441 = 9 ∧ balanceIndex 441 441 = 9 ∧ balanceIndex 243 441 = 1 ∧
      balanceIndex 177 441 = 1 := by decide +kernel

theorem witness_PenaltyReadsOnlyTheModules :
    let u : State := { State.reset with modPlane := atPlaced.modPlane }
    u.cfg = atPlaced.cfg ∧ ∀ y < 21, ∀ x < 21, modAt u y x = modAt atPlaced y x := by
  refine ⟨by decide +kernel, fun y _ x _ => ?_⟩
  have h : State.reset.cfg = atPlaced.cfg := by decide +kernel
  simp only [modAt, h]

theorem witness_PenaltyScoresTheModulePlane :
    atInit.cfg.Admitted ∧ atInit.phase ∈ [Phase.init, .func, .eccd, .placed, .done] ∧
      atDone.phase ∈ [Phase.init, .func, .eccd, .placed, .done] := by decide +kernel

theorem witness_EncodeEqualsTheStepwiseSequence : loaded.cfg.Admitted ∧ Accepts (.encode 15) loaded ∧ Accepts (.encode 2) loaded := by decide +kernel

theorem witness_CommandsWriteOnlyTheirOwnRegisters :
    exec .init State.reset = .next (ran .init State.reset) ∧ (∀ a b, Instr.init ≠ .gfmul a b) ∧ Instr.init ≠ .rsrem ∧
      Instr.init ≠ .ecc ∧ ∀ m, Instr.init ≠ .encode m := by
  refine ⟨exec_ran _ _, ?_, by decide, by decide, ?_⟩ <;> simp

theorem witness_FunctionCellsAreImmutableAfterDrawfn :
    (atPlaced.cfg.Admitted ∧ atPlaced.FunctionsWf) ∧ atPlaced.phase ≠ .init ∧ Instr.commit 15 ≠ .init ∧ (∀ m, Instr.commit 15 ≠ .encode m) ∧
      exec (.commit 15) atPlaced = .next (ran (.commit 15) atPlaced) := by
  refine ⟨⟨atPlaced_inv.1.1, atPlaced_inv.1.2.2.2.2.1⟩, by rw [atPlaced_inv.2]; decide, by decide, by simp, exec_ran _ _⟩

/-- A capacity of 14 bytes, and an admitted configuration with one data codeword. -/
theorem witness_HostCodewordsFillTheCapacity :
    2 ≤ Cfg.ref.dataCodewords ∧ hostCodewordsOf .ref (List.replicate 14 0x41) ≠ none ∧
      hostCodewordsOf .ref (List.replicate 15 0x41) = none ∧ ({ Cfg.ref with eccLen := 25 } : Cfg).Admitted ∧
      ({ Cfg.ref with eccLen := 25 } : Cfg).dataCodewords = 1 := by decide +kernel

end Sys2Proof.Tests
end

section
/-! PROOF. The bounds of the penalty: the Fault of R440 is not reached. -/

namespace Sys2Proof.Machine

theorem countPatterns_le_two (h : RunHistory) : countPatterns h ≤ 2 := by
  simp only [countPatterns]
  split <;> split <;> decide

/-- One module adds at most `1 + N1` to P1 and at most two finder patterns to P3 (R425). -/
theorem scanModule_le (c : Cfg) (st : LineScan) (module : Bool) :
    (scanModule c st module).p1 ≤ st.p1 + (1 + c.n1) ∧ (scanModule c st module).p3 ≤ st.p3 + 2 * c.n3 := by
  unfold scanModule
  split
  · refine ⟨?_, Nat.le_add_right _ _⟩
    dsimp only
    split
    · omega
    · split <;> omega
  · refine ⟨Nat.le_add_right _ _, ?_⟩
    dsimp only
    split
    · exact Nat.add_le_add_left (Nat.mul_le_mul_right _ (countPatterns_le_two _)) _
    · exact Nat.le_add_right _ _

theorem foldl_scanModule_le (c : Cfg) (line : List Bool) (st : LineScan) :
    (line.foldl (scanModule c) st).p1 ≤ st.p1 + line.length * (1 + c.n1) ∧
      (line.foldl (scanModule c) st).p3 ≤ st.p3 + line.length * (2 * c.n3) := by
  induction line generalizing st with
  | nil => simp
  | cons b line ih =>
    obtain ⟨h1, h3⟩ := scanModule_le c st b
    obtain ⟨i1, i3⟩ := ih (scanModule c st b)
    rw [List.foldl_cons, List.length_cons, Nat.add_one_mul line.length (1 + c.n1), Nat.add_one_mul line.length (2 * c.n3)]
    exact ⟨by omega, by omega⟩

theorem terminateAndCount_le_two (size : Nat) (st : LineScan) : terminateAndCount size st ≤ 2 := by
  unfold terminateAndCount
  split <;> exact countPatterns_le_two _

/-- The most a line adds to P1 and to P3. -/
theorem lineScore_le (c : Cfg) (line : List Bool) :
    (lineScore c line).1 ≤ line.length * (1 + c.n1) ∧ (lineScore c line).2 ≤ (line.length + 1) * (2 * c.n3) := by
  obtain ⟨h1, h3⟩ := foldl_scanModule_le c line LineScan.start
  have ht := Nat.mul_le_mul_right c.n3 (terminateAndCount_le_two c.size (line.foldl (scanModule c) LineScan.start))
  have e1 : LineScan.start.p1 = 0 := rfl
  have e3 : LineScan.start.p3 = 0 := rfl
  rw [Nat.add_one_mul line.length (2 * c.n3)]
  simp only [lineScore]
  exact ⟨by omega, by omega⟩

theorem length_of_mem_matrixLines {size : Nat} {p : Plane} {line : List Bool} (h : line ∈ matrixLines size p) :
    line.length = size := by
  simp only [matrixLines, List.mem_append, List.mem_map, matrixRow, matrixColumn] at h
  rcases h with ⟨y, -, rfl⟩ | ⟨x, -, rfl⟩ <;> simp

@[simp] theorem length_matrixLines (size : Nat) (p : Plane) : (matrixLines size p).length = 2 * size := by
  simp [matrixLines, Nat.two_mul]

/-- A sum over the lines of the matrix, from a bound for one line. -/
theorem sum_matrixLines_le (c : Cfg) (p : Plane) (f : List Bool → Nat) (b : Nat)
    (hf : ∀ line : List Bool, line.length = c.size → f line ≤ b) : ((matrixLines c.size p).map f).sum ≤ 2 * c.size * b := by
  have h := List.sum_le_card_nsmul ((matrixLines c.size p).map f) b fun n hn => by
    obtain ⟨line, hl, rfl⟩ := List.mem_map.1 hn
    exact hf line (length_of_mem_matrixLines hl)
  simpa using h

theorem penaltyParts_p1_le (c : Cfg) (p : Plane) : (penaltyParts c p).p1 ≤ 2 * c.size * c.size * (1 + c.n1) := by
  unfold penaltyParts
  simp only [List.map_map]
  rw [Nat.mul_assoc (2 * c.size)]
  exact sum_matrixLines_le c p _ _ fun line hl => hl ▸ (lineScore_le c line).1

theorem penaltyParts_p3_le (c : Cfg) (p : Plane) : (penaltyParts c p).p3 ≤ 2 * c.size * (c.size + 2) * 2 * c.n3 := by
  unfold penaltyParts
  simp only [List.map_map]
  rw [Nat.mul_assoc _ 2, Nat.mul_assoc (2 * c.size)]
  refine sum_matrixLines_le c p _ _ fun line hl => (lineScore_le c line).2.trans ?_
  exact Nat.mul_le_mul_right _ (by omega)

theorem sum_map_range_le (n b : Nat) (f : Nat → Nat) (hf : ∀ i, f i ≤ b) : ((List.range n).map f).sum ≤ n * b := by
  have h := List.sum_le_card_nsmul ((List.range n).map f) b fun k hk => by
    obtain ⟨i, -, rfl⟩ := List.mem_map.1 hk
    exact hf i
  simpa using h

theorem penaltyParts_p2_le (c : Cfg) (p : Plane) : (penaltyParts c p).p2 ≤ (c.size - 1) ^ 2 * c.n2 := by
  unfold penaltyParts blockScore
  simp only [Nat.pow_two, Nat.mul_assoc]
  refine sum_map_range_le _ _ _ fun y => sum_map_range_le _ _ _ fun x => ?_
  split <;> simp

theorem leastIndex_le (dev total n k : Nat) : leastIndex dev total n k ≤ k + n := by
  induction n generalizing k with
  | zero => simp [leastIndex]
  | succ n ih =>
    simp only [leastIndex]
    split
    · omega
    · have := ih (k + 1); omega

theorem balanceIndex_le_nine (dark total : Nat) : balanceIndex dark total ≤ 9 := by
  simpa [balanceIndex] using leastIndex_le _ total 9 0

theorem penaltyParts_p4_le (c : Cfg) (p : Plane) : (penaltyParts c p).p4 ≤ 9 * c.n4 := by
  unfold penaltyParts
  exact Nat.mul_le_mul_right _ (balanceIndex_le_nine _ _)

/-- No module plane's penalty exceeds PENALTY_BOUND (R440). -/
theorem penaltyParts_total_le (c : Cfg) (p : Plane) : (penaltyParts c p).total ≤ c.penaltyBound := by
  have h1 := penaltyParts_p1_le c p
  have h2 := penaltyParts_p2_le c p
  have h3 := penaltyParts_p3_le c p
  have h4 := penaltyParts_p4_le c p
  have e1 : 2 * c.size ^ 2 * (1 + c.n1) = 2 * c.size * c.size * (1 + c.n1) := by ring
  have e3 : 4 * c.size * (c.size + 2) * c.n3 = 2 * c.size * (c.size + 2) * 2 * c.n3 := by ring
  unfold PenaltyParts.total Cfg.penaltyBound
  rw [e1, e3]
  omega

/-- The Fault of R440 is not reached: the evaluation always writes its results. -/
theorem evaluatePenalty_eq (s : State) : evaluatePenalty s = .done (setPenalties (penaltyParts s.cfg s.modPlane) s) := by
  unfold evaluatePenalty
  exact if_neg (Nat.not_lt.2 (penaltyParts_total_le s.cfg s.modPlane))

end Sys2Proof.Machine
end

section
/-! PROOF. The lengths of the divisor, the remainder and the interleaved stream: the Fault of R267 is not reached. -/

namespace Sys2Proof.Machine

theorem length_divisorAfter (d n : Nat) : (divisorAfter d n).length = d := by
  induction n with
  | zero => simp [divisorAfter]
  | succ n ih => simp [divisorAfter, timesRoot, ih]

@[simp] theorem length_genDivisor (d : Nat) : (genDivisor d).length = d := by
  unfold genDivisor
  exact length_divisorAfter d d

theorem length_remainderStep {gen r : List Byte} (dk : Byte) (h : r.length = gen.length) :
    (remainderStep gen r dk).length = gen.length := by
  simp only [remainderStep, List.length_zipWith, List.length_append, List.length_tail, List.length_singleton]
  omega

theorem length_foldl_remainderStep {gen r : List Byte} (ds : List Byte) (h : r.length = gen.length) :
    (ds.foldl (remainderStep gen) r).length = gen.length := by
  induction ds generalizing r with
  | nil => exact h
  | cons dk ds ih => exact ih (length_remainderStep dk h)

@[simp] theorem length_rsRemainder (c : Cfg) (ds : List Byte) : (rsRemainder c ds).length = c.eccLen := by
  unfold rsRemainder rsRemainderBy
  simp [length_foldl_remainderStep]

/-- An entry of REM as a remainder fills it (R259). -/
theorem getElem?_remEntries (r : List Byte) {i : Nat} (h : i < 32) : (remEntries r)[i]?.getD 0 = r.getD i 0 := by
  unfold remEntries
  simp [h]

theorem numShortBlocks_le (c : Cfg) : c.numShortBlocks ≤ c.numBlocks := Nat.sub_le _ _

/-- A column takes a byte of every block, but only of the long ones where the short ones have their pad byte (R266). -/
theorem length_interleaveColumn (c : Cfg) (blocks : List (List Byte)) (i : Nat) :
    (interleaveColumn c blocks i).length = c.numBlocks - if i = c.shortDataLen then c.numShortBlocks else 0 := by
  rw [interleaveColumn, List.length_map]
  by_cases h : i = c.shortDataLen
  · have hf := List.Ico.filter_le 0 c.numBlocks c.numShortBlocks
    rw [List.Ico.zero_bot] at hf
    simp [h, ← decide_not, hf]
  · simp [beq_false_of_ne h, h]

theorem sum_lengths_interleaveColumn (c : Cfg) (blocks : List (List Byte)) (n : Nat) :
    ((List.range n).map fun i => (interleaveColumn c blocks i).length).sum +
      (if c.shortDataLen < n then c.numShortBlocks else 0) = n * c.numBlocks := by
  induction n with
  | zero => simp
  | succ n ih =>
    have hs := numShortBlocks_le c
    simp only [List.range_succ, List.map_append, List.sum_append, List.map_singleton, List.sum_singleton,
      length_interleaveColumn, Nat.add_one_mul] at ih ⊢
    rcases Nat.lt_trichotomy n c.shortDataLen with h | h | h
    · rw [if_neg (by omega)] at ih ⊢
      rw [if_neg (by omega)]
      omega
    · rw [if_neg (by omega)] at ih
      rw [if_pos h, if_pos (by omega)]
      omega
    · rw [if_pos h] at ih
      rw [if_neg (by omega), if_pos (by omega)]
      omega

/-- The count check of R267 passes: the interleaved stream has RAW_CODEWORDS bytes. -/
theorem length_interleave {c : Cfg} (h : c.Admitted) (blocks : List (List Byte)) :
    (interleave c blocks).length = c.rawCodewords := by
  obtain ⟨-, ⟨hn, -⟩, -⟩ := h
  have hsum := sum_lengths_interleaveColumn c blocks (c.shortBlockLen + 1)
  have hdiv := Nat.div_add_mod c.rawCodewords c.numBlocks
  have hmod := Nat.mod_lt c.rawCodewords hn
  have hle : c.shortDataLen < c.shortBlockLen + 1 := Nat.lt_succ_of_le (Nat.sub_le _ _)
  rw [if_pos hle, Nat.add_one_mul, Nat.mul_comm c.shortBlockLen] at hsum
  unfold interleave
  rw [List.length_flatMap]
  unfold Cfg.numShortBlocks Cfg.shortBlockLen at hsum
  unfold Cfg.shortBlockLen
  omega

/-- The Fault of R267 is not reached: ECC always writes the stream and enters ECCD. -/
theorem eccBody_eq {s : State} (h : s.cfg.Admitted) :
    eccBody s = .done { s with cw := s.cw.writeFrom 0 (interleave s.cfg (paddedBlocks s)), phase := .eccd } := by
  unfold eccBody
  exact if_neg (not_not.2 (length_interleave h _))

end Sys2Proof.Machine
end

section
/-! PROOF. The cells of the function patterns, and the scan over the others: the Fault of R357 is not reached. -/

namespace Sys2Proof.Machine

/-- The cells that calls write, as `(x, y)`. -/
def writtenCells (ws : List FnWrite) : List (Nat × Nat) := ws.map fun w => (w.x, w.y)

theorem mem_writtenCells {ws : List FnWrite} {x y : Nat} :
    (x, y) ∈ writtenCells ws ↔ ∃ w ∈ ws, w.x = x ∧ w.y = y := by
  simp [writtenCells]

theorem any_at_iff (ws : List FnWrite) (y x : Nat) : ws.any (FnWrite.at · y x) = true ↔ (x, y) ∈ writtenCells ws := by
  simp only [List.any_eq_true, FnWrite.at, decide_eq_true_eq, mem_writtenCells]
  exact exists_congr fun w => and_congr_right fun _ => ⟨fun h => ⟨h.2.symm, h.1.symm⟩, fun h => ⟨h.2.symm, h.1.symm⟩⟩

theorem mem_writtenCells_append {ws vs : List FnWrite} {cell : Nat × Nat} :
    cell ∈ writtenCells (ws ++ vs) ↔ cell ∈ writtenCells ws ∨ cell ∈ writtenCells vs := by
  simp [writtenCells]

theorem mem_writtenCells_flatMap {α : Type} {l : List α} {f : α → List FnWrite} {cell : Nat × Nat} :
    cell ∈ writtenCells (l.flatMap f) ↔ ∃ a ∈ l, cell ∈ writtenCells (f a) := by
  simp only [writtenCells, List.map_flatMap, List.mem_flatMap]

theorem mem_writtenCells_timing {size x y : Nat} :
    (x, y) ∈ writtenCells (timingWrites size) ↔ (x = 6 ∧ y < size) ∨ (y = 6 ∧ x < size) := by
  rw [timingWrites, mem_writtenCells_flatMap]
  simp only [mem_writtenCells, List.mem_range, List.mem_cons, List.not_mem_nil, or_false,
    exists_eq_or_imp, exists_eq_left]
  constructor
  · rintro ⟨i, hi, ⟨rfl, rfl⟩ | ⟨rfl, rfl⟩⟩
    · exact .inl ⟨rfl, hi⟩
    · exact .inr ⟨rfl, hi⟩
  · rintro (⟨rfl, h⟩ | ⟨rfl, h⟩)
    · exact ⟨y, h, .inl ⟨rfl, rfl⟩⟩
    · exact ⟨x, h, .inr ⟨rfl, rfl⟩⟩

theorem mem_offsets {n : Nat} {d : Int} : d ∈ offsets n ↔ d.natAbs ≤ n := by
  simp only [offsets, List.bind_eq_flatMap, List.pure_def, List.mem_map, List.mem_flatMap, List.mem_singleton, List.mem_range]
  constructor
  · rintro ⟨-, ⟨i, hi, rfl⟩, rfl⟩; omega
  · intro h; exact ⟨d + n, ⟨(d + n).toNat, by omega, by omega⟩, by omega⟩

theorem clippedWrite_eq_some {size cx cy : Nat} {dx dy : Int} {d : Bool} {w : FnWrite} :
    clippedWrite size cx cy dx dy d = some w ↔ w.x < size ∧ w.y < size ∧ dx = w.x - cx ∧ dy = w.y - cy ∧ w.dark = d := by
  obtain ⟨wx, wy, wd⟩ := w
  simp only [clippedWrite, Option.ite_none_right_eq_some, Option.some.injEq, FnWrite.mk.injEq]
  constructor
  · rintro ⟨h, rfl, rfl, rfl⟩; simp only [and_true]; omega
  · rintro ⟨hx, hy, rfl, rfl, rfl⟩; simp only [and_true]; omega

/-- The cells of a ring pattern: those of the matrix within distance `n` of its centre (R308, R310). -/
theorem mem_writtenCells_rings {size n cx cy x y : Nat} (dark : Int → Int → Bool) :
    (x, y) ∈ writtenCells ((offsets n).flatMap fun dy => (offsets n).filterMap fun dx =>
      clippedWrite size cx cy dx dy (dark dx dy)) ↔
      x < size ∧ y < size ∧ x ≤ cx + n ∧ cx ≤ x + n ∧ y ≤ cy + n ∧ cy ≤ y + n := by
  simp only [mem_writtenCells, List.mem_flatMap, List.mem_filterMap, mem_offsets, clippedWrite_eq_some]
  constructor
  · rintro ⟨w, ⟨dy, hdy, dx, hdx, hx, hy, rfl, rfl, -⟩, rfl, rfl⟩; omega
  · rintro ⟨hx, hy, h⟩
    exact ⟨⟨x, y, dark (x - cx) (y - cy)⟩, ⟨y - cy, by omega, x - cx, by omega, hx, hy, rfl, rfl, rfl⟩, rfl, rfl⟩

theorem mem_writtenCells_finder {size x y : Nat} (centre : Nat × Nat) :
    (x, y) ∈ writtenCells (finderWrites size centre) ↔
      x < size ∧ y < size ∧ x ≤ centre.1 + 4 ∧ centre.1 ≤ x + 4 ∧ y ≤ centre.2 + 4 ∧ centre.2 ≤ y + 4 :=
  mem_writtenCells_rings fun dx dy => chebyshev dx dy != 2 && chebyshev dx dy != 4

theorem mem_writtenCells_finders {size x y : Nat} (h : 8 ≤ size) :
    (x, y) ∈ writtenCells ((finderCentres size).flatMap (finderWrites size)) ↔
      x < size ∧ y < size ∧ ((x < 8 ∧ y < 8) ∨ (size ≤ x + 8 ∧ y < 8) ∨ (x < 8 ∧ size ≤ y + 8)) := by
  simp only [mem_writtenCells_flatMap, finderCentres, List.mem_cons, List.not_mem_nil, or_false, exists_eq_or_imp,
    exists_eq_left, mem_writtenCells_finder]
  constructor
  · rintro (⟨hx, hy, h⟩ | ⟨hx, hy, h⟩ | ⟨hx, hy, h⟩)
    · exact ⟨hx, hy, .inl (by omega)⟩
    · exact ⟨hx, hy, .inr (.inl (by omega))⟩
    · exact ⟨hx, hy, .inr (.inr (by omega))⟩
  · rintro ⟨hx, hy, h | h | h⟩
    · exact .inl ⟨hx, hy, by omega⟩
    · exact .inr (.inl ⟨hx, hy, by omega⟩)
    · exact .inr (.inr ⟨hx, hy, by omega⟩)

theorem mem_writtenCells_alignmentPattern {size x y : Nat} (centre : Nat × Nat) :
    (x, y) ∈ writtenCells (alignmentWrites size centre) ↔
      x < size ∧ y < size ∧ x ≤ centre.1 + 2 ∧ centre.1 ≤ x + 2 ∧ y ≤ centre.2 + 2 ∧ centre.2 ≤ y + 2 :=
  mem_writtenCells_rings fun dx dy => chebyshev dx dy != 1

theorem alignmentCentres_eq (c : Cfg) : alignmentCentres c = if c.version ≤ 1 then [] else [(c.size - 7, c.size - 7)] := by
  unfold alignmentCentres Cfg.alignPos
  split <;> rfl

theorem mem_writtenCells_alignment {c : Cfg} {x y : Nat} (h : 9 ≤ c.size) :
    (x, y) ∈ writtenCells ((alignmentCentres c).flatMap (alignmentWrites c.size)) ↔
      2 ≤ c.version ∧ c.size ≤ x + 9 ∧ x + 5 ≤ c.size ∧ c.size ≤ y + 9 ∧ y + 5 ≤ c.size := by
  rw [alignmentCentres_eq, mem_writtenCells_flatMap]
  split
  · simp only [List.not_mem_nil, false_and, exists_false, false_iff]; omega
  · simp only [List.mem_singleton, exists_eq_left, mem_writtenCells_alignmentPattern]
    omega

theorem mem_formatCopy1 {x y : Nat} :
    (x, y) ∈ formatCopy1 ↔ (x = 8 ∧ y ≤ 8 ∧ y ≠ 6) ∨ (y = 8 ∧ x ≤ 8 ∧ x ≠ 6) := by
  have hsub : ∀ p ∈ formatCopy1, (p.1 = 8 ∧ p.2 ≤ 8 ∧ p.2 ≠ 6) ∨ (p.2 = 8 ∧ p.1 ≤ 8 ∧ p.1 ≠ 6) := by decide
  have hsup : ∀ i < 9, i ≠ 6 → (8, i) ∈ formatCopy1 ∧ (i, 8) ∈ formatCopy1 := by decide
  constructor
  · exact hsub (x, y)
  · rintro (⟨rfl, h, h6⟩ | ⟨rfl, h, h6⟩)
    · exact (hsup y (by omega) h6).1
    · exact (hsup x (by omega) h6).2

theorem mem_formatCopy2 {size x y : Nat} (h : 15 ≤ size) :
    (x, y) ∈ formatCopy2 size ↔ (y = 8 ∧ size ≤ x + 8 ∧ x < size) ∨ (x = 8 ∧ size ≤ y + 7 ∧ y < size) := by
  simp only [formatCopy2, List.mem_map, List.mem_range]
  constructor
  · rintro ⟨i, hi, he⟩
    split at he <;> rw [Prod.mk.injEq] at he <;> omega
  · rintro (⟨rfl, h⟩ | ⟨rfl, h⟩)
    · exact ⟨size - 1 - x, by omega, by rw [if_pos (by omega), Prod.mk.injEq]; omega⟩
    · exact ⟨y + 15 - size, by omega, by rw [if_neg (by omega), Prod.mk.injEq]; omega⟩

/-- The cells `draw_format` writes: both copies and the dark module (R477, R479). -/
theorem mem_writtenCells_format {size x y : Nat} (bits : BitVec 15) (h : 15 ≤ size) :
    (x, y) ∈ writtenCells (formatWrites size bits) ↔
      (x = 8 ∧ y ≠ 6 ∧ y < size ∧ (y ≤ 8 ∨ size ≤ y + 8)) ∨ (y = 8 ∧ x ≠ 6 ∧ x < size ∧ (x ≤ 8 ∨ size ≤ x + 8)) := by
  rw [writtenCells, formatWrites_cells, List.mem_append, List.mem_append, mem_formatCopy1, mem_formatCopy2 h,
    List.mem_singleton, Prod.mk.injEq]
  grind

theorem patternWrites_inWindow {c : Cfg} (h : c.Admitted) : InWindow (patternWrites c) := fun w hw => by
  have hs := size_bounds h
  have hb := patternWrites_bounds (c := c) (by omega) w hw
  omega

/-- A cell of the function plane after DRAWFN is set exactly if DRAWFN draws it. -/
theorem get_functionPatterns_iff {c : Cfg} (h : c.Admitted) {y x : Nat} :
    (functionPatterns c).functions.get y x = true ↔
      (x, y) ∈ writtenCells (patternWrites c ++ formatWrites c.size (formatWord c.ecl 0)) := by
  have hw : InWindow (patternWrites c ++ formatWrites c.size (formatWord c.ecl 0)) := fun w hw =>
    (List.mem_append.1 hw).elim (patternWrites_inWindow h w) (formatWrites_inWindow _ (size_bounds h) w)
  unfold functionPatterns
  rw [functions_drawAll _ _ hw, get_light, Bool.false_or, any_at_iff]

/-- The function plane after DRAWFN has exactly the regions of R315. -/
theorem get_functionPatterns {c : Cfg} (h : c.Admitted) {x y : Nat} (hx : x < c.size) (hy : y < c.size) :
    (functionPatterns c).functions.get y x = Claims.functionCell c x y := by
  have hs := size_bounds h
  have h5 : 5 ≤ c.size := by omega
  rw [Bool.eq_iff_iff, get_functionPatterns_iff h, mem_writtenCells_append, mem_writtenCells_format _ (by omega)]
  unfold patternWrites
  rw [mem_writtenCells_append, mem_writtenCells_append, mem_writtenCells_timing, mem_writtenCells_finders (by omega),
    mem_writtenCells_alignment (by omega)]
  simp only [Claims.functionCell, Bool.or_eq_true, Bool.and_eq_true, decide_eq_true_eq, beq_iff_eq, Nat.sub_le_iff_le_add,
    Nat.le_sub_iff_add_le h5, hx, hy, true_and, and_true]
  grind

/-- Drawing leaves the function plane of DRAWFN as it is, wherever it draws the cells of `draw_format` (R97, R478). -/
theorem functions_drawAll_formatWrites {c : Cfg} (h : c.Admitted) (bits : BitVec 15) {p : Planes}
    (hp : p.functions = (functionPatterns c).functions) : (drawAll (formatWrites c.size bits) p).functions = p.functions := by
  refine plane_ext fun y _ x _ => ?_
  rw [functions_drawAll _ _ (formatWrites_inWindow bits (size_bounds h)), Bool.or_eq_left_iff_imp, any_at_iff, hp,
    get_functionPatterns_iff h, mem_writtenCells_append]
  intro hm
  right
  rw [writtenCells, formatWrites_cells] at hm ⊢
  exact hm

/-- A format redraw sets no new function cell once the patterns are drawn (R97). -/
theorem fnPlane_drawFormat {s : State} (h : s.cfg.Admitted) (m : BitVec 3)
    (hf : s.fnPlane = (functionPatterns s.cfg).functions) : (drawFormat m s).fnPlane = s.fnPlane := by
  rw [drawFormat_eq]
  exact functions_drawAll_formatWrites h _ (p := planesOf s) hf

/-- What drawing leaves of the function plane does not depend on the module plane. -/
theorem functions_drawAll_congr (ws : List FnWrite) {p q : Planes} (h : p.functions = q.functions) :
    (drawAll ws p).functions = (drawAll ws q).functions := by
  induction ws generalizing p q with
  | nil => simpa using h
  | cons w ws ih =>
    rw [drawAll_cons, drawAll_cons]
    exact ih (by simp only [setFunctionModule, h])

/-- From a light function plane DRAWFN leaves the plane of the patterns (R315). -/
theorem fnPlane_drawfnBody {s : State} (hf : s.fnPlane = Plane.light) :
    (drawfnBody s).fnPlane = (functionPatterns s.cfg).functions := by
  have hd : (drawfnBody s).fnPlane =
      (drawAll (patternWrites s.cfg ++ formatWrites s.cfg.size (formatWord s.cfg.ecl 0)) (planesOf s)).functions := by
    rw [drawAll_append]; rfl
  rw [hd]
  unfold functionPatterns
  exact functions_drawAll_congr _ hf

/-! ### The scan -/

theorem mem_stripsFrom {n right r : Nat} (h : r ∈ stripsFrom n right) : 1 ≤ r ∧ r ≤ right := by
  induction n generalizing right with
  | zero => simp [stripsFrom] at h
  | succ n ih =>
    rw [stripsFrom] at h
    split at h
    · simp at h
    · rcases List.mem_cons.1 h with h | h
      · split at h <;> omega
      · have := ih h
        split at this <;> omega

/-- The scan stays in the matrix. -/
theorem mem_scanCells {size : Nat} {cell : Nat × Nat} (h : cell ∈ scanCells size) : cell.1 < size ∧ cell.2 < size := by
  simp only [scanCells, List.mem_flatMap, stripCells, List.mem_range, List.mem_cons, List.not_mem_nil, or_false] at h
  obtain ⟨r, hr, v, hv, hc⟩ := h
  have hb := mem_stripsFrom hr
  have hy : (if scansUpward r = true then size - 1 - v else v) < size := by split <;> omega
  rcases hc with rfl | rfl
  · exact ⟨by simp only; omega, hy⟩
  · exact ⟨by simp only; omega, hy⟩

/-- A data cell takes a bit while one is left (R356). -/
theorem index_placeCell (s : State) {limit : Nat} (cell : Nat × Nat) {sc : Scan} (h : sc.index ≤ limit) :
    (placeCell s limit sc cell).index = min limit (sc.index + if !s.fnPlane.get cell.2 cell.1 then 1 else 0) := by
  unfold placeCell
  cases s.fnPlane.get cell.2 cell.1 <;> by_cases hi : sc.index < limit <;> simp [hi] <;> omega

/-- The scan numbers the data cells it meets until its limit is reached (R351). -/
theorem index_foldl_placeCell (s : State) {limit : Nat} (cells : List (Nat × Nat)) {sc : Scan} (h : sc.index ≤ limit) :
    (cells.foldl (placeCell s limit) sc).index =
      min limit (sc.index + cells.countP fun cell => !s.fnPlane.get cell.2 cell.1) := by
  induction cells generalizing sc with
  | nil => simpa using h
  | cons cell cells ih =>
    have hi := index_placeCell s cell h
    rw [List.foldl_cons, List.countP_cons, ih (hi ▸ Nat.min_le_left _ _), hi]
    omega

/-- The scan meets as many data cells as R316 counts, version by version. -/
theorem length_dataCells_ofVersion : ∀ v ∈ [1, 2, 3, 4, 5, 6],
    (Claims.dataCells { Cfg.ref with version := v }).length = ({ Cfg.ref with version := v } : Cfg).rawDataModules := by
  decide +kernel

theorem length_dataCells {c : Cfg} (h : c.Admitted) : (Claims.dataCells c).length = c.rawDataModules := by
  obtain ⟨⟨h1, h6⟩, -⟩ := h
  have key := length_dataCells_ofVersion c.version (by simp only [List.mem_cons, List.not_mem_nil, or_false]; omega)
  exact key

/-- The count check of R357 passes: once the patterns are drawn the scan places every codeword bit. -/
theorem index_placeScan {s : State} (h : s.cfg.Admitted) (hf : s.fnPlane = (functionPatterns s.cfg).functions) :
    (placeScan s).index = s.cfg.rawCodewords * 8 := by
  have hcount : ((scanCells s.cfg.size).countP fun cell => !s.fnPlane.get cell.2 cell.1) = s.cfg.rawDataModules := by
    rw [← length_dataCells h, Claims.dataCells, ← List.countP_eq_length_filter]
    refine List.countP_congr fun cell hc => ?_
    obtain ⟨hx, hy⟩ := mem_scanCells hc
    rw [hf, get_functionPatterns h hx hy]
  have hle : s.cfg.rawCodewords * 8 ≤ s.cfg.rawDataModules := Nat.div_mul_le_self _ _
  unfold placeScan
  rw [index_foldl_placeCell s _ (Nat.zero_le _), hcount]
  simp only
  omega

/-- The Fault of R357 is not reached: PLACE always writes BITS and enters PLACED. -/
theorem placeBody_eq {s : State} (h : s.cfg.Admitted) (hf : s.fnPlane = (functionPatterns s.cfg).functions) :
    placeBody s = .done { s with
      modPlane := (placeScan s).modules, bits := BitVec.ofNat 16 (placeScan s).index, phase := .placed } := by
  unfold placeBody
  exact if_neg (not_not.2 (index_placeScan h hf))

end Sys2Proof.Machine
end

section
/-! PROOF. How the commands end, and what each leaves unchanged. -/

namespace Sys2Proof.Machine

/-! ### Trials without their unreachable Fault -/

/-- What the trial of mask `m` leaves (R385): its penalty evaluation never ends in a Fault. -/
def afterTrial (m : BitVec 3) (s : State) : State :=
  let u := drawFormat m (applyMask m s)
  let t := setPenalties (penaltyParts u.cfg u.modPlane) u
  applyMask m (updateBest m t.penalty (recordTrial m t.penalty t))

/-- What the trials of these masks in turn leave (R390). -/
def afterTrials (ms : List (BitVec 3)) (s : State) : State := ms.foldl (fun t m => afterTrial m t) s

/-- The evaluation of a trial always ends in `.done`, so the trial does. -/
theorem trialBody_eq (m : BitVec 3) (s : State) : trialBody m s = .done (afterTrial m s) := by
  unfold trialBody
  rw [evaluatePenalty_eq]
  rfl

theorem trialsBody_eq (ms : List (BitVec 3)) (s : State) : trialsBody ms s = .done (afterTrials ms s) := by
  induction ms generalizing s with
  | nil => rfl
  | cons m ms ih =>
    rw [trialsBody, trialBody_eq, andThen_done, ih]
    rfl

/-- COMMIT's body, by what its operand names (R390, R391). -/
theorem commitBody_cases (m : BitVec 4) (s : State) :
    (∃ k, commitBody m s = .done (commitMask k s)) ∨
      commitBody m s =
        .done (commitMask (afterTrials allMasks (clearBest s)).best (afterTrials allMasks (clearBest s))) ∨
      commitBody m s = .reject .maskRange := by
  unfold commitBody
  cases maskOperand m with
  | mask k => exact .inl ⟨k, rfl⟩
  | auto => rw [trialsBody_eq]; exact .inr (.inl rfl)
  | outOfRange => exact .inr (.inr rfl)

/-! ### How a body ends -/

/-- The errors a Reject records: all but the three of a Fault (R601, R604). -/
abbrev ErrCode.IsReject (c : ErrCode) : Prop := c ≠ .interleaveCount ∧ c ≠ .bitCount ∧ c ≠ .penaltyBound

/-- A body ends with its last write in a state that meets `P`, in a Reject, or in a Fault in a state that meets `F`. -/
def CmdResult.Meets (P F : State → Prop) : CmdResult → Prop
  | .done t => P t
  | .reject c => c.IsReject
  | .fault _ t => F t

@[simp] theorem meets_done (P F : State → Prop) (t : State) : (CmdResult.done t).Meets P F ↔ P t := Iff.rfl
@[simp] theorem meets_reject (P F : State → Prop) (c : ErrCode) : (CmdResult.reject c).Meets P F ↔ c.IsReject := Iff.rfl
@[simp] theorem meets_fault (P F : State → Prop) (c : ErrCode) (t : State) : (CmdResult.fault c t).Meets P F ↔ F t := Iff.rfl

theorem meets_mono {P Q F : State → Prop} (hPQ : ∀ t, P t → Q t) {r : CmdResult} (h : r.Meets P F) : r.Meets Q F := by
  cases r with
  | done t => exact hPQ t h
  | reject c => exact h
  | fault c t => exact h

theorem meets_andThen {P Q F : State → Prop} {r : CmdResult} {f : State → CmdResult} (hr : r.Meets P F)
    (hf : ∀ t, P t → (f t).Meets Q F) : (r.andThen f).Meets Q F := by
  cases r with
  | done t => exact hf t hr
  | reject c => exact hr
  | fault c t => exact hr

theorem meets_requirePhase {P F : State → Prop} {ps : List Phase} {s : State} {r : CmdResult}
    (h : s.phase ∈ ps → r.Meets P F) : (requirePhase ps s r).Meets P F := by
  by_cases hp : s.phase ∈ ps
  · rw [requirePhase_pos hp]; exact h hp
  · rw [requirePhase_neg hp, meets_reject]; decide

theorem meets_requireDataLength {P F : State → Prop} {s : State} {r : CmdResult} (h : r.Meets P F) :
    (requireDataLength s r).Meets P F := by
  by_cases hd : s.dlen.toNat = s.cfg.dataCodewords
  · rw [requireDataLength_pos hd]; exact h
  · rw [requireDataLength_neg hd, meets_reject]; decide

/-! ### What commands leave unchanged -/

/-- `s` with what every command may write taken from `u`: PHASE and the error record, IRQ and BUSY (R610, R611, R620). -/
def State.withRecord (s u : State) : State :=
  { s with
    phase := u.phase, err := u.err, errCode := u.errCode, errInfo := u.errInfo, errOvf := u.errOvf, irq := u.irq, busy := u.busy }

/-- `s` with what a construction writes taken from `u`, but for CW: that record, the planes, and the registers of the
construction and of its penalties (R543 to R545). -/
def State.withConstruction (s u : State) : State :=
  { s.withRecord u with
    fnValid := u.fnValid, maskValid := u.maskValid, mask := u.mask, penalty := u.penalty, penRun := u.penRun,
    penBlock := u.penBlock, penFinder := u.penFinder, penBalance := u.penBalance, darkCount := u.darkCount, darkK := u.darkK,
    best := u.best, bestValid := u.bestValid, bestPen := u.bestPen, fmt := u.fmt, bits := u.bits, trialPen := u.trialPen,
    trialValid := u.trialValid, modPlane := u.modPlane, fnPlane := u.fnPlane }

theorem raiseReject_eq_withRecord (c : ErrCode) (s : State) : raiseReject c s = s.withRecord (raiseReject c s) := by
  rw [raiseReject_eq]; rfl

theorem raiseFault_eq_withRecord (c : ErrCode) (s : State) : raiseFault c s = s.withRecord (raiseFault c s) := by
  rw [raiseFault_eq, raiseReject_eq]; rfl

theorem updateBest_eq_withConstruction (m : BitVec 3) (p : Word) (s : State) :
    updateBest m p s = s.withConstruction (updateBest m p s) := by
  rw [updateBest_eq]; rfl

/-- What ending a command leaves of a part `f` of the state that is no part of the record it writes. -/
theorem finish_keeps {α : Type} {f : State → α} (hf : ∀ s u : State, f (s.withRecord u) = f s) {s t : State} {r : CmdResult}
    (hr : r.Meets (f · = f s) (f · = f s)) (h : finish s r = .next t) : f t = f s := by
  cases r with
  | done u => cases h; exact (hf u (complete u)).trans hr
  | reject c => cases h; rw [raiseReject_eq_withRecord]; exact hf s _
  | fault c u => cases h; rw [raiseFault_eq_withRecord]; exact (hf u _).trans hr

section Keeps

variable {α : Type} {f : State → α} (hf : ∀ s u : State, f (s.withConstruction u) = f s)
include hf

theorem afterTrial_keeps (m : BitVec 3) (s : State) : f (afterTrial m s) = f s := by
  have hmask : ∀ u, f (applyMask m u) = f u := fun u => hf u (applyMask m u)
  have hbest : ∀ p u, f (updateBest m p u) = f u := fun p u => by rw [updateBest_eq_withConstruction]; exact hf u _
  have hrec : ∀ p u, f (recordTrial m p u) = f u := fun p u => hf u (recordTrial m p u)
  have hpen : ∀ p u, f (setPenalties p u) = f u := fun p u => hf u (setPenalties p u)
  have hfmt : ∀ u, f (drawFormat m u) = f u := fun u => hf u (drawFormat m u)
  unfold afterTrial
  rw [hmask, hbest, hrec, hpen, hfmt, hmask]

theorem afterTrials_keeps (ms : List (BitVec 3)) (s : State) : f (afterTrials ms s) = f s := by
  induction ms generalizing s with
  | nil => rfl
  | cons m ms ih => exact (ih (afterTrial m s)).trans (afterTrial_keeps hf m s)

theorem commitBody_keeps (m : BitVec 4) (s : State) : (commitBody m s).Meets (f · = f s) (f · = f s) := by
  have hc : ∀ k t, f (commitMask k t) = f t := fun k t => hf t (commitMask k t)
  rcases commitBody_cases m s with ⟨k, h⟩ | h | h <;> rw [h]
  · exact hc k s
  · exact (hc _ _).trans ((afterTrials_keeps hf _ _).trans (hf s (clearBest s)))
  · rw [meets_reject]; decide

theorem placeBody_keeps (s : State) : (placeBody s).Meets (f · = f s) (f · = f s) := by
  unfold placeBody
  dsimp only
  split
  · exact hf s { s with modPlane := (placeScan s).modules, bits := BitVec.ofNat 16 (placeScan s).index }
  · exact hf s { s with modPlane := (placeScan s).modules, bits := BitVec.ofNat 16 (placeScan s).index, phase := .placed }

theorem eccBody_keeps (hcw : ∀ (s : State) (m : Memory), f { s with cw := m } = f s) (s : State) :
    (eccBody s).Meets (f · = f s) (f · = f s) := by
  unfold eccBody
  dsimp only
  split
  · exact rfl
  · exact (hcw { s with phase := .eccd } _).trans (hf s { s with phase := .eccd })

theorem encodeBody_keeps (hcw : ∀ (s : State) (m : Memory), f { s with cw := m } = f s) (m : BitVec 4) (s : State) :
    (encodeBody m s).Meets (f · = f s) (f · = f s) := by
  have hd : f (drawfnBody (initBody s)) = f s :=
    (hf (initBody s) (drawfnBody (initBody s))).trans (hf s (initBody s))
  unfold encodeBody
  split
  · rw [meets_reject]; decide
  · refine meets_requireDataLength (meets_andThen (P := (f · = f s)) (hd ▸ eccBody_keeps hf hcw _) fun t ht => ?_)
    exact meets_andThen (P := (f · = f s)) (ht ▸ placeBody_keeps hf t) fun u hu => hu ▸ commitBody_keeps hf m u

/-- What a command leaves of a part `f` of the state that no construction writes. Beside the registers of a construction ECC and
ENCODE write CW, GFMUL writes RESULT and RSREM writes REM. -/
theorem exec_keeps {i : Instr} {s t : State}
    (hcw : (i = .ecc ∨ ∃ m, i = .encode m) → ∀ (s : State) (m : Memory), f { s with cw := m } = f s)
    (hresult : (∃ a b, i = .gfmul a b) → ∀ (s : State) (r : Byte), f { s with result := r } = f s)
    (hrem : i = .rsrem → ∀ (s : State) (r : Vector Byte 32), f { s with rem := r } = f s)
    (h : exec i s = .next t) : f t = f s := by
  rw [exec_eq_finish] at h
  refine finish_keeps (fun s u => hf s (s.withRecord u)) ?_ h
  cases i with
  | nop => exact rfl
  | init => exact hf s (initBody s)
  | drawfn => exact meets_requirePhase fun _ => hf s (drawfnBody s)
  | ecc => exact meets_requirePhase fun _ => meets_requireDataLength (eccBody_keeps hf (hcw (.inl rfl)) s)
  | place => exact meets_requirePhase fun _ => placeBody_keeps hf s
  | trial m =>
    refine meets_requirePhase fun _ => ?_
    cases maskOperand m with
    | mask k => dsimp only; rw [trialBody_eq]; exact afterTrial_keeps hf k s
    | auto => rw [meets_reject]; decide
    | outOfRange => rw [meets_reject]; decide
  | commit m => exact meets_requirePhase fun _ => commitBody_keeps hf m s
  | penalty => exact meets_requirePhase fun _ => evaluatePenalty_eq s ▸ hf s (setPenalties (penaltyParts s.cfg s.modPlane) s)
  | encode m => exact encodeBody_keeps hf (hcw (.inr ⟨m, rfl⟩)) m s
  | gfmul a b => exact hresult ⟨a, b, rfl⟩ s _
  | rsrem => exact hrem rfl s _

end Keeps

/-- What the host puts into the block, and what the Engine only reads: the configuration, CTRL, DLEN, QUERY, DATA, PENDING, the
pins, the events still to come and the model's own counters (R51, R544). -/
def State.inputs (s : State) :=
  (s.cfg, s.ie, s.dlen, s.qx, s.qy, s.data, s.pending, s.rstN, s.rdata, s.schedule, s.draws, s.resets)

/-- No command writes the host's side of the block (R51, R544). -/
theorem exec_inputs {i : Instr} {s t : State} (h : exec i s = .next t) : t.inputs = s.inputs :=
  exec_keeps (f := State.inputs) (fun _ _ => rfl) (fun _ _ _ => rfl) (fun _ _ _ => rfl) (fun _ _ _ => rfl) h

theorem exec_result {i : Instr} {s t : State} (h : exec i s = .next t) (hi : ∀ a b, i ≠ .gfmul a b) : t.result = s.result :=
  exec_keeps (f := State.result) (fun _ _ => rfl) (fun _ _ _ => rfl) (fun ⟨a, b, e⟩ => absurd e (hi a b)) (fun _ _ _ => rfl) h

theorem exec_rem {i : Instr} {s t : State} (h : exec i s = .next t) (hi : i ≠ .rsrem) : t.rem = s.rem :=
  exec_keeps (f := State.rem) (fun _ _ => rfl) (fun _ _ _ => rfl) (fun _ _ _ => rfl) (fun e => absurd e hi) h

theorem exec_cw {i : Instr} {s t : State} (h : exec i s = .next t) (he : i ≠ .ecc) (hc : ∀ m, i ≠ .encode m) : t.cw = s.cw :=
  exec_keeps (f := State.cw) (fun _ _ => rfl) (fun hi => (hi.elim he fun ⟨m, e⟩ => hc m e).elim) (fun _ _ _ => rfl)
    (fun _ _ _ => rfl) h

/-- Settles O58: the parts of the state that no construction writes, and who writes RESULT, REM and CW. -/
theorem commandsWriteOnlyTheirOwnRegisters : Obligations.CommandsWriteOnlyTheirOwnRegisters := by
  intro i s t h
  have hin := exec_inputs h
  simp only [State.inputs, Prod.mk.injEq] at hin
  refine ⟨hin, exec_result h, exec_rem h, fun he hc k => ?_⟩
  obtain ⟨hcfg, -, -, -, -, -, -, -, -, -, -, hresets⟩ := hin
  rw [cwAt, cwAt, exec_cw h he hc, hcfg, hresets]

end Sys2Proof.Machine
end

section
/-! PROOF. The invariant of every run, and the function plane between DRAWFN and the next INIT. -/

namespace Sys2Proof.Machine

/-! ### The operations keep the invariant -/

theorem inv_resetOf {c : Cfg} (h : c.Admitted) (n : Nat) : (State.resetOf c n).Inv := by
  have hnil : ∀ {P : Host.Cell → Prop}, ∀ cell ∈ ([] : Memory), P cell := fun _ hc => absurd hc List.not_mem_nil
  have hrem : ∀ i < 32, c.eccLen ≤ i → (State.resetOf c n).rem[i]?.getD 0 = 0 := fun i hi _ => by
    simp [State.resetOf, hi]
  exact ⟨h, ⟨rfl, hnil, rfl, hnil⟩, ⟨nofun, rfl, rfl⟩, ⟨rfl, nofun, nofun, nofun⟩, ⟨nofun, nofun⟩, hrem, rfl⟩

theorem inv_recordError {c : ErrCode} (hc : c.IsReject) (info : Word) {s : State} (h : s.Inv) : (recordError c info s).Inv := by
  obtain ⟨ha, hm, hp, ⟨hsome, he⟩, hf, hr⟩ := h
  have herr : (recordError c info s).ErrorsWf := by
    rw [State.ErrorsWf, recordError_err, recordError_errCode]
    cases hs : s.err
    · simpa using hc
    · exact ⟨hsome.trans hs, he⟩
  rw [recordError_eq] at herr ⊢
  exact ⟨ha, hm, hp, herr, hf, hr⟩

theorem inv_clearFlags (v : Word) {s : State} (h : s.Inv) : (clearFlags v s).Inv := by
  obtain ⟨ha, hm, hp, ⟨hsome, he⟩, hf, hr⟩ := h
  have herr : (clearFlags v s).ErrorsWf := by
    rw [State.ErrorsWf, clearFlags_err, clearFlags_errCode]
    cases v.getLsbD 4
    · simpa using ⟨hsome, he⟩
    · simp
  exact ⟨ha, hm, hp, herr, hf, hr⟩

theorem inv_writeData {i : Nat} (hi : i < 256) (v : Byte) {s : State} (h : s.Inv) :
    ({ s with data := s.data.write i v } : State).Inv := by
  obtain ⟨ha, ⟨hd, hb, hc⟩, hrest⟩ := h
  refine ⟨ha, ⟨wf_write hd i v, fun cell hm => ?_, hc⟩, hrest⟩
  rcases mem_write hm with rfl | hm
  · exact hi
  · exact hb cell hm

theorem inv_writeModRow (y h : Nat) (v : Word) {s : State} (hi : s.Inv) : (writeModRow y h v s).Inv := by
  unfold writeModRow
  split <;> exact hi

theorem inv_hostRead (a : Offset) {s : State} (h : s.Inv) : (hostRead a s).Inv := by
  unfold hostRead
  split <;> exact h

theorem inv_hostWrite (a : Offset) (v : Word) {s : State} (h : s.Inv) : (hostWrite a v s).Inv := by
  rcases hostWrite_cases a v s with e | ⟨-, e | e | e | ⟨-, e⟩ | ⟨-, e | e | ⟨i, hi, e⟩ | ⟨y, hh, e⟩⟩⟩ <;> rw [e]
  · exact h
  · exact h
  · exact inv_clearFlags v h
  · exact h
  · exact inv_recordError (by decide) _ h
  · exact h
  · exact h
  · exact inv_writeData hi _ h
  · exact inv_writeModRow y hh v h

theorem inv_driveReset (level : Bool) {s : State} (h : s.Inv) : (driveReset level s).Inv := by
  rcases driveReset_cases level s with ⟨-, -, e⟩ | ⟨-, e⟩ <;> rw [e]
  · exact inv_resetOf h.1 (s.resets + 1)
  · exact h

/-! ### The bodies of the commands keep the invariant -/

theorem inv_initBody {s : State} (h : s.Inv) : (initBody s).Inv := by
  obtain ⟨ha, hm, -, he, -, hr⟩ := h
  exact ⟨ha, hm, ⟨nofun, rfl, rfl⟩, he, ⟨fun _ => rfl, nofun⟩, hr⟩

theorem inv_drawfnBody {s : State} (h : s.Inv) (hp : s.phase = .init) : (drawfnBody s).Inv := by
  obtain ⟨ha, hm, ⟨-, hfn, hmask⟩, he, ⟨hlight, -⟩, hr⟩ := h
  rw [hp] at hfn hmask
  exact ⟨ha, hm, ⟨nofun, hfn, hmask⟩, he, ⟨nofun, fun _ => fnPlane_drawfnBody (hlight hp)⟩, hr⟩

/-- ECC writes CW below RAW_CODEWORDS only, by the length of the interleaved stream. -/
theorem inv_eccBody {s : State} (h : s.Inv) (hp : s.phase = .func) :
    (eccBody s).Meets (fun t => t.Inv ∧ t.phase = .eccd) (fun _ => False) := by
  obtain ⟨ha, ⟨hd, hdb, hc, hcb⟩, ⟨-, hfn, hmask⟩, he, ⟨-, hdrawn⟩, hr⟩ := h
  rw [hp] at hfn hmask hdrawn
  rw [eccBody_eq ha]
  refine ⟨⟨ha, ⟨hd, hdb, wf_writeFrom _ hc 0, fun cell hm => ?_⟩, ⟨nofun, hfn, hmask⟩, he, ⟨nofun, hdrawn⟩, hr⟩, rfl⟩
  rcases mem_writeFrom hm with ⟨-, hm⟩ | hm
  · rwa [length_interleave ha, Nat.zero_add] at hm
  · exact hcb cell hm

theorem inv_placeBody {s : State} (h : s.Inv) (hp : s.phase = .eccd) :
    (placeBody s).Meets (fun t => t.Inv ∧ t.phase = .placed) (fun _ => False) := by
  obtain ⟨ha, hm, ⟨-, hfn, hmask⟩, he, ⟨-, hdrawn⟩, hr⟩ := h
  rw [hp] at hfn hmask hdrawn
  rw [placeBody_eq ha (hdrawn rfl)]
  exact ⟨⟨ha, hm, ⟨nofun, hfn, hmask⟩, he, ⟨nofun, hdrawn⟩, hr⟩, rfl⟩

/-- A format redraw sets no new function cell once the patterns are drawn, so the plane stays as DRAWFN left it. -/
theorem inv_drawFormat (m : BitVec 3) {s : State} (h : s.Inv) (hp : s.phase.patternsDrawn = true) : (drawFormat m s).Inv := by
  obtain ⟨ha, hm, hph, he, ⟨hlight, hdrawn⟩, hr⟩ := h
  have hf : (drawFormat m s).fnPlane = s.fnPlane := fnPlane_drawFormat ha m (hdrawn hp)
  exact ⟨ha, hm, hph, he, ⟨fun hi => hf.trans (hlight hi), fun hd => hf.trans (hdrawn hd)⟩, hr⟩

theorem inv_setPenalties (p : PenaltyParts) {s : State} (h : s.Inv) : (setPenalties p s).Inv := by
  obtain ⟨ha, hm, hp, he, hf, hrem, -⟩ := h
  refine ⟨ha, hm, hp, he, hf, hrem, ?_⟩
  simp [PenaltyParts.total, BitVec.ofNat_add]

theorem inv_updateBest (m : BitVec 3) (p : Word) {s : State} (h : s.Inv) : (updateBest m p s).Inv := by
  rw [updateBest_eq]
  exact h

@[simp] theorem afterTrial_phase (m : BitVec 3) (s : State) : (afterTrial m s).phase = s.phase := by simp [afterTrial]

theorem inv_afterTrial (m : BitVec 3) {s : State} (h : s.Inv) (hp : s.phase = .placed) : (afterTrial m s).Inv := by
  have hm : (applyMask m s).Inv := h
  have hd : (applyMask m s).phase.patternsDrawn = true := by rw [applyMask_phase, hp]; rfl
  have ht : ∀ p, (setPenalties p (drawFormat m (applyMask m s))).Inv := fun p => inv_setPenalties p (inv_drawFormat m hm hd)
  exact inv_updateBest m _ (ht _)

theorem inv_afterTrials (ms : List (BitVec 3)) {s : State} (h : s.Inv) (hp : s.phase = .placed) :
    (afterTrials ms s).Inv ∧ (afterTrials ms s).phase = .placed := by
  induction ms generalizing s with
  | nil => exact ⟨h, hp⟩
  | cons m ms ih => exact ih (inv_afterTrial m h hp) ((afterTrial_phase m s).trans hp)

theorem inv_commitMask (m : BitVec 3) {s : State} (h : s.Inv) : (commitMask m s).Inv := by
  obtain ⟨ha, hm, -, he, -, hr⟩ := h
  exact ⟨ha, hm, ⟨nofun, rfl, rfl⟩, he, ⟨nofun, nofun⟩, hr⟩

theorem inv_commitBody (m : BitVec 4) {s : State} (h : s.Inv) (hp : s.phase = .placed) :
    (commitBody m s).Meets State.Inv (fun _ => False) := by
  have hc : (clearBest s).Inv := h
  rcases commitBody_cases m s with ⟨k, e⟩ | e | e <;> rw [e]
  · exact inv_commitMask k h
  · exact inv_commitMask _ (inv_afterTrials allMasks hc hp).1
  · rw [meets_reject]; decide

theorem inv_encodeBody (m : BitVec 4) {s : State} (h : s.Inv) : (encodeBody m s).Meets State.Inv (fun _ => False) := by
  unfold encodeBody
  split
  · rw [meets_reject]; decide
  · refine meets_requireDataLength (meets_andThen (inv_eccBody (inv_drawfnBody (inv_initBody h) rfl) rfl) ?_)
    rintro t ⟨ht, htp⟩
    refine meets_andThen (inv_placeBody ht htp) ?_
    rintro u ⟨hu, hup⟩
    exact inv_commitBody m hu hup

theorem inv_rsremBody {s : State} (h : s.Inv) : (rsremBody s).Inv := by
  obtain ⟨ha, hm, hp, he, hf, -, hpen⟩ := h
  refine ⟨ha, hm, hp, he, hf, fun i hi hge => ?_, hpen⟩
  rw [rsremBody_rem, getElem?_remEntries _ hi]
  exact List.getD_eq_default _ _ (by rw [length_rsRemainder]; exact hge)

/-- Every command's body ends in a state that meets the invariant, or in a Reject; none ends in a Fault (R548, R604). -/
theorem inv_bodyOf (i : Instr) {s : State} (h : s.Inv) : (bodyOf i s).Meets State.Inv (fun _ => False) := by
  cases i with
  | nop => exact h
  | init => exact inv_initBody h
  | drawfn => exact meets_requirePhase fun hp => inv_drawfnBody h (List.mem_singleton.1 hp)
  | ecc =>
    refine meets_requirePhase fun hp => meets_requireDataLength ?_
    exact meets_mono (fun _ => And.left) (inv_eccBody h (List.mem_singleton.1 hp))
  | place => exact meets_requirePhase fun hp => meets_mono (fun _ => And.left) (inv_placeBody h (List.mem_singleton.1 hp))
  | trial m =>
    refine meets_requirePhase fun hp => ?_
    cases maskOperand m with
    | mask k => dsimp only; rw [trialBody_eq]; exact inv_afterTrial k h (List.mem_singleton.1 hp)
    | auto => rw [meets_reject]; decide
    | outOfRange => rw [meets_reject]; decide
  | commit m => exact meets_requirePhase fun hp => inv_commitBody m h (List.mem_singleton.1 hp)
  | penalty => exact meets_requirePhase fun _ => evaluatePenalty_eq s ▸ inv_setPenalties _ h
  | encode m => exact inv_encodeBody m h
  | gfmul a b => exact h
  | rsrem => exact inv_rsremBody h

/-- Ending a command keeps the invariant if its body did and raised no Fault. -/
theorem inv_finish {s t : State} {r : CmdResult} (h : s.Inv) (hr : r.Meets State.Inv (fun _ => False))
    (hn : finish s r = .next t) : t.Inv := by
  cases r with
  | done u => cases hn; exact hr
  | reject c => cases hn; exact inv_recordError hr s.pending h
  | fault c u => exact hr.elim

theorem inv_engineStep {s t : State} (h : s.Inv) (hn : engineStep s = .next t) : t.Inv := by
  unfold engineStep at hn
  split at hn
  · rw [exec_eq_finish] at hn
    exact inv_finish h (inv_bodyOf _ h) hn
  · exact inv_finish h (r := .reject .illegal) (by rw [meets_reject]; decide) hn

theorem inv_engineTurn {s t : State} (h : s.Inv) (hn : engineTurn s = .next t) : t.Inv := by
  rcases engineTurn_cases s with ⟨-, -, e⟩ | ⟨-, e⟩ <;> rw [e] at hn
  · exact inv_engineStep h hn
  · cases hn; exact h

theorem inv_hostWait {polls : Nat} {s t : State} (h : s.Inv) (hn : hostWait polls s = .next t) : t.Inv := by
  rcases hostWait_cases polls s with ⟨-, -, -, e⟩ | ⟨-, -, e⟩ | ⟨-, -, e⟩ <;> rw [e] at hn
  · exact inv_engineStep (s := { s with schedule := .waitIdle 0 :: s.schedule }) h hn
  · cases hn; exact inv_hostRead 0x014 h
  · cases hn; exact inv_hostRead 0x014 h

/-- Settles O8, event by event: the three Faults are not reached, and every other end of a command and every access keeps the
invariant. -/
theorem everyStepKeepsTheInvariant : Obligations.EveryStepKeepsTheInvariant := by
  intro s t h hn
  obtain ⟨-, ⟨-, hn⟩ | ⟨rest, -, hn⟩ | ⟨polls, rest, -, hn⟩ | ⟨a, rest, -, rfl⟩ | ⟨a, v, rest, -, rfl⟩ | ⟨l, rest, -, rfl⟩⟩ :=
    step_cases hn
  · exact inv_engineTurn h hn
  · exact inv_engineTurn (s := { s with schedule := rest }) h hn
  · exact inv_hostWait (s := { s with schedule := rest }) h hn
  · exact inv_hostRead a (s := { s with schedule := rest }) h
  · exact inv_hostWrite a v (s := { s with schedule := rest }) h
  · exact inv_driveReset l (s := { s with schedule := rest }) h

/-- Settles O9: after reset the RAMs are empty, PHASE is IDLE and every register the invariant reads is 0. -/
theorem resetMeetsTheInvariant : Obligations.ResetMeetsTheInvariant := fun _ n h => inv_resetOf h n

/-! ### The function plane between DRAWFN and the next INIT (R97) -/

theorem afterTrial_cfg (m : BitVec 3) (s : State) : (afterTrial m s).cfg = s.cfg := by simp [afterTrial]

theorem fnPlane_afterTrial (m : BitVec 3) {s : State} (ha : s.cfg.Admitted)
    (hf : s.fnPlane = (functionPatterns s.cfg).functions) : (afterTrial m s).fnPlane = s.fnPlane := by
  have hd : (drawFormat m (applyMask m s)).fnPlane = s.fnPlane := fnPlane_drawFormat (s := applyMask m s) ha m hf
  simpa [afterTrial] using hd

theorem fnPlane_afterTrials (ms : List (BitVec 3)) {s : State} (ha : s.cfg.Admitted)
    (hf : s.fnPlane = (functionPatterns s.cfg).functions) :
    (afterTrials ms s).cfg = s.cfg ∧ (afterTrials ms s).fnPlane = s.fnPlane := by
  induction ms generalizing s with
  | nil => exact ⟨rfl, rfl⟩
  | cons m ms ih =>
    have hc := afterTrial_cfg m s
    have hp := fnPlane_afterTrial m ha hf
    obtain ⟨ic, ip⟩ := ih (s := afterTrial m s) (by rwa [hc]) (by rw [hp, hc, hf])
    exact ⟨ic.trans hc, ip.trans hp⟩

theorem fnPlane_commitMask (m : BitVec 3) {s : State} (ha : s.cfg.Admitted)
    (hf : s.fnPlane = (functionPatterns s.cfg).functions) : (commitMask m s).fnPlane = s.fnPlane :=
  fnPlane_drawFormat (s := applyMask m s) ha m hf

theorem fnPlane_commitBody (m : BitVec 4) {s : State} (ha : s.cfg.Admitted)
    (hf : s.fnPlane = (functionPatterns s.cfg).functions) :
    (commitBody m s).Meets (·.fnPlane = s.fnPlane) (·.fnPlane = s.fnPlane) := by
  rcases commitBody_cases m s with ⟨k, e⟩ | e | e <;> rw [e]
  · exact fnPlane_commitMask k ha hf
  · obtain ⟨hc, hp⟩ := fnPlane_afterTrials allMasks (s := clearBest s) ha hf
    exact (fnPlane_commitMask _ (by rw [hc]; exact ha) (by rw [hp, hc]; exact hf)).trans hp
  · rw [meets_reject]; decide

/-- Outside INIT and ENCODE, and away from the phase of DRAWFN, no body changes the function plane. -/
theorem fnPlane_bodyOf {i : Instr} {s : State} (ha : s.cfg.Admitted) (hf : s.FunctionsWf) (hp : s.phase ≠ .init)
    (hi : i ≠ .init) (he : ∀ m, i ≠ .encode m) : (bodyOf i s).Meets (·.fnPlane = s.fnPlane) (·.fnPlane = s.fnPlane) := by
  have hdrawn : s.phase ∈ [.placed] → s.fnPlane = (functionPatterns s.cfg).functions := fun h =>
    hf.2 (by rw [List.mem_singleton.1 h]; rfl)
  cases i with
  | nop => exact rfl
  | init => exact absurd rfl hi
  | drawfn => exact meets_requirePhase fun h => absurd (List.mem_singleton.1 h) hp
  | ecc => exact meets_requirePhase fun _ => meets_requireDataLength (eccBody_eq ha ▸ rfl)
  | place =>
    refine meets_requirePhase fun h => ?_
    rw [placeBody_eq ha (hf.2 (by rw [List.mem_singleton.1 h]; rfl))]
    exact rfl
  | trial m =>
    refine meets_requirePhase fun h => ?_
    cases maskOperand m with
    | mask k => dsimp only; rw [trialBody_eq]; exact fnPlane_afterTrial k ha (hdrawn h)
    | auto => rw [meets_reject]; decide
    | outOfRange => rw [meets_reject]; decide
  | commit m => exact meets_requirePhase fun h => fnPlane_commitBody m ha (hdrawn h)
  | penalty => exact meets_requirePhase fun _ => evaluatePenalty_eq s ▸ rfl
  | encode m => exact absurd rfl (he m)
  | gfmul a b => exact rfl
  | rsrem => exact rfl

/-- Settles O59: DRAWFN is rejected, and the format redraws of TRIAL and COMMIT come only once the patterns are drawn. -/
theorem functionCellsAreImmutableAfterDrawfn : Obligations.FunctionCellsAreImmutableAfterDrawfn := by
  intro i s t ha hf hp hi he h
  rw [exec_eq_finish] at h
  exact finish_keeps (f := State.fnPlane) (fun _ _ => rfl) (fnPlane_bodyOf ha hf hp hi he) h

end Sys2Proof.Machine
end

section
/-! PROOF. The bus: the fields of STATUS and of the configuration registers, reset, and the effects of host writes. -/

namespace Sys2Proof.Machine

/-! ### The fields of the words the bus reads -/

/-- A flag's bit, from its one-bit field. -/
theorem getLsbD_of_extractLsb'_flag {w : Word} {k : Nat} {b : Bool} (h : w.extractLsb' k 1 = flag b) : w.getLsbD k = b := by
  have h0 := congrArg (fun v : BitVec 1 => v.getLsbD 0) h
  simpa [flag] using h0

/-- STATUS by its fields, from bit 0 up (R61). -/
theorem statusWord_fields (s : State) :
    (statusWord s).extractLsb' 0 1 = flag s.busy ∧ (statusWord s).extractLsb' 1 3 = s.phase.code ∧
      (statusWord s).extractLsb' 4 1 = flag s.err ∧ (statusWord s).extractLsb' 5 1 = flag s.errOvf ∧
      (statusWord s).extractLsb' 6 1 = flag s.irq ∧ (statusWord s).extractLsb' 7 1 = flag s.fnValid ∧
      (statusWord s).extractLsb' 8 1 = flag s.maskValid ∧ (statusWord s).extractLsb' 9 3 = 0#3 ∧
      (statusWord s).extractLsb' 12 4 = errCodeField s.errCode ∧ (statusWord s).extractLsb' 16 16 = 0#16 := by
  unfold statusWord
  refine ⟨?_, ?_, ?_, ?_, ?_, ?_, ?_, ?_, ?_, ?_⟩
  all_goals
    repeat refine (BitVec.extractLsb'_append_eq_of_le (by decide)).trans ?_
  case refine_10 => exact BitVec.extractLsb'_eq_self
  all_goals exact BitVec.extractLsb'_append_eq_right

/-- CFG0 by its fields, from bit 0 up (R57). -/
theorem cfg0Word_fields (c : Cfg) :
    (cfg0Word c).extractLsb' 0 4 = BitVec.ofNat 4 c.version ∧ (cfg0Word c).extractLsb' 4 2 = c.ecl.bits ∧
      (cfg0Word c).extractLsb' 6 2 = 0#2 ∧ (cfg0Word c).extractLsb' 8 8 = BitVec.ofNat 8 c.size ∧
      (cfg0Word c).extractLsb' 16 8 = BitVec.ofNat 8 c.numBlocks ∧ (cfg0Word c).extractLsb' 24 8 = BitVec.ofNat 8 c.eccLen := by
  unfold cfg0Word
  refine ⟨?_, ?_, ?_, ?_, ?_, ?_⟩
  all_goals
    repeat refine (BitVec.extractLsb'_append_eq_of_le (by decide)).trans ?_
  case refine_6 => exact BitVec.extractLsb'_eq_self
  all_goals exact BitVec.extractLsb'_append_eq_right

/-- The bytes of a word put together from four, as CFG1 and CFG2 are (R58, R59). -/
theorem extractLsb'_four_bytes (b3 b2 b1 b0 : Byte) :
    ((b3 ++ b2 ++ b1 ++ b0 : BitVec 32).extractLsb' 0 8 = b0 ∧ (b3 ++ b2 ++ b1 ++ b0 : BitVec 32).extractLsb' 8 8 = b1) ∧
      (b3 ++ b2 ++ b1 ++ b0 : BitVec 32).extractLsb' 16 8 = b2 ∧ (b3 ++ b2 ++ b1 ++ b0 : BitVec 32).extractLsb' 24 8 = b3 := by
  refine ⟨⟨?_, ?_⟩, ?_, ?_⟩
  all_goals
    repeat refine (BitVec.extractLsb'_append_eq_of_le (by decide)).trans ?_
  case refine_4 => exact BitVec.extractLsb'_eq_self
  all_goals exact BitVec.extractLsb'_append_eq_right


/-! ### Offsets -/

/-- Only address bits 11..2 count (R152). -/
theorem decodeOffset_of_aligned {a b : Offset} (h : a &&& 0xFFC = b) : decodeOffset a = decodeOffset b := by
  rw [← decodeOffset_aligned, h]

theorem busValue_eq_readWord {a : Nat} {w : BusWord} (s : State) (h : decodeOffset (BitVec.ofNat 12 a) = w) :
    Claims.busValue s a = readWord s w := by
  rw [Claims.busValue, h]

/-! ### Writes, word by word (R155) -/

section Writes

variable {a : Offset} {s : State} (v : Word) (hr : s.rstN = true)
include hr

theorem hostWrite_ctrl (h : decodeOffset a = .ctrl) : hostWrite a v s = { s with ie := v.getLsbD 0 } := by
  simp [hostWrite, h, hr]

theorem hostWrite_query (h : decodeOffset a = .query) :
    hostWrite a v s = { s with qx := v.extractLsb' 0 16, qy := v.extractLsb' 16 16 } := by
  simp [hostWrite, h, hr]

variable (hb : s.busy = false)
include hb

theorem hostWrite_cmd (h : decodeOffset a = .cmd) : hostWrite a v s = { s with pending := v, busy := true } := by
  simp [hostWrite, h, hr, unlessBusy, hb]

theorem hostWrite_dlen (h : decodeOffset a = .dlen) : hostWrite a v s = { s with dlen := v.setWidth 8 } := by
  simp [hostWrite, h, hr, unlessBusy, hb]

theorem hostWrite_data {i : Nat} (h : decodeOffset a = .data i) :
    hostWrite a v s = { s with data := s.data.write i (v.setWidth 8) } := by
  simp [hostWrite, h, hr, unlessBusy, hb]

theorem hostWrite_modRow {y h : Nat} (hd : decodeOffset a = .modRow y h) : hostWrite a v s = writeModRow y h v s := by
  simp [hostWrite, hd, hr, unlessBusy, hb]

end Writes

/-! ### STATUS and the configuration registers -/

/-- Settles O22, from the fields of STATUS. -/
theorem statusReadsItsFieldsAtTheirBits : Obligations.StatusReadsItsFieldsAtTheirBits := by
  intro s
  have hw : Claims.busValue s 0x014 = statusWord s := busValue_eq_readWord s (w := .status) (by decide)
  obtain ⟨hbusy, hphase, herr, hovf, hirq, hfn, hmask, hlow, hcode, hhigh⟩ := statusWord_fields s
  dsimp only
  rw [hw]
  refine ⟨getLsbD_of_extractLsb'_flag hbusy, hphase.trans ?_, getLsbD_of_extractLsb'_flag herr, getLsbD_of_extractLsb'_flag hovf,
    getLsbD_of_extractLsb'_flag hirq, getLsbD_of_extractLsb'_flag hfn, getLsbD_of_extractLsb'_flag hmask, hlow,
    hcode.trans ?_, hhigh⟩
  · cases s.phase <;> rfl
  · rcases s.errCode with _ | c
    · rfl
    · cases c <;> rfl

/-- RAW_CODEWORDS fits its byte in every version (R18). -/
theorem rawCodewords_le {c : Cfg} (h : c.Admitted) : c.rawCodewords ≤ 172 := by
  obtain ⟨⟨h1, h6⟩, -⟩ := h
  unfold Cfg.rawCodewords Cfg.rawDataModules Cfg.size
  interval_cases c.version <;> decide

/-- A field that holds a number below its range reads as that number. -/
theorem toNat_field {k n : Nat} {f : BitVec k} (hf : f = BitVec.ofNat k n) (hn : n < 2 ^ k) : f.toNat = n := by
  rw [hf, BitVec.toNat_ofNat, Nat.mod_eq_of_lt hn]

/-- Settles O21: each field by its place in the word, and wide enough for every admitted configuration. -/
theorem configurationRegistersShowTheConfiguration : Obligations.ConfigurationRegistersShowTheConfiguration := by
  intro s ha
  have h0 : Claims.busValue s 0x004 = cfg0Word s.cfg := busValue_eq_readWord s (w := .cfg0) (by decide)
  have h1 : Claims.busValue s 0x008 = cfg1Word s.cfg := busValue_eq_readWord s (w := .cfg1) (by decide)
  have h2 : Claims.busValue s 0x00C = cfg2Word s.cfg := busValue_eq_readWord s (w := .cfg2) (by decide)
  rw [h0, h1, h2]
  obtain ⟨f0, f4, f6, f8, f16, f24⟩ := cfg0Word_fields s.cfg
  obtain ⟨⟨g0, g8⟩, g16, g24⟩ := extractLsb'_four_bytes (BitVec.ofNat 8 s.cfg.shortBlockLen) (BitVec.ofNat 8 s.cfg.numShortBlocks)
    (BitVec.ofNat 8 s.cfg.dataCodewords) (BitVec.ofNat 8 s.cfg.rawCodewords)
  obtain ⟨⟨k0, k8⟩, k16, k24⟩ := extractLsb'_four_bytes (BitVec.ofNat 8 s.cfg.n4) (BitVec.ofNat 8 s.cfg.n3)
    (BitVec.ofNat 8 s.cfg.n2) (BitVec.ofNat 8 s.cfg.n1)
  have hraw := rawCodewords_le ha
  have hsize := size_bounds ha
  have hshort := numShortBlocks_le s.cfg
  have hlen : s.cfg.shortBlockLen ≤ s.cfg.rawCodewords := Nat.div_le_self _ _
  obtain ⟨⟨-, hv⟩, ⟨-, hblocks⟩, ⟨-, hecc⟩, -, hdata, hn1, hn2, hn3, hn4⟩ := ha
  exact ⟨busValue_eq_readWord s (w := .id) (by decide), toNat_field f0 (by omega), f4, f6, toNat_field f8 (by omega),
    toNat_field f16 (by omega), toNat_field f24 (by omega), toNat_field g0 (by omega), toNat_field g8 (by omega),
    toNat_field g16 (by omega), toNat_field g24 (by omega), toNat_field k0 (by omega), toNat_field k8 (by omega),
    toNat_field k16 (by omega), toNat_field k24 (by omega)⟩

/-! ### Reset, CTRL, CMD and DLEN -/

/-- The state a release of reset leaves. -/
theorem step_release_reset {s : State} {rest : List Event} (ha : s.cfg.Admitted) (hr : s.rstN = false)
    (hs : s.schedule = .rstN true :: rest) : step s = .next
      { State.resetOf s.cfg (s.resets + 1) with rdata := s.rdata, schedule := rest, draws := s.draws } := by
  simp only [step, if_pos ha, hs, driveReset, hr, and_self, if_true]

/-- A cell of a plane that reset filled with free values (R110, U1). -/
theorem get_ofCells_of_lt {c : Cfg} (h : c.Admitted) (f : Nat → Nat → Bool) {y x : Nat} (hy : y < c.size) (hx : x < c.size) :
    (decide (y < c.size ∧ x < c.size) && (Plane.ofCells c.size f).get y x) = f y x := by
  have hs := size_bounds h
  have hy' : y < 64 := by omega
  have hx' : x < 64 := by omega
  simp [get_ofCells, hy, hx, hy', hx']

/-- Settles O10: the rising edge loads `State.resetOf`, whose RAMs are empty and whose planes hold the free values of the new reset. -/
theorem releasingResetGivesTheResetValues : Obligations.ReleasingResetGivesTheResetValues := by
  intro s rest ha hr hs
  have hstatus : (0#16 ++ errCodeField none ++ 0#3 ++ flag false ++ flag false ++ flag false ++ flag false ++ flag false ++
    Phase.idle.code ++ flag false : BitVec 32) = 0 := by decide
  have hdark : (0#12 ++ 0#4 ++ 0#16 : BitVec 32) = 0 := by decide
  have hbest : (0#23 ++ flag false ++ 0#5 ++ 0#3 : BitVec 32) = 0 := by decide
  have hquery : (0#16 ++ 0#16 : BitVec 32) = 0 := by decide
  refine ⟨_, step_release_reset ha hr hs, rfl, rfl, rfl, hstatus, rfl, rfl, rfl, rfl, rfl, rfl, rfl, rfl, rfl, rfl, rfl, hdark, hbest,
    rfl, rfl, rfl, hquery, fun m hm => ?_, rfl, fun i hi => ?_, rfl, fun i => rfl, fun i hi => if_pos hi, fun y hy x hx => ⟨?_, ?_⟩⟩
  · simp [State.resetOf, hm]
  · simp [State.resetOf, hi]
  · exact get_ofCells_of_lt ha _ hy hx
  · exact get_ofCells_of_lt ha _ hy hx

/-- Settles O19, from what a write to each of the three words does. -/
theorem registerWritesTakeTheirFields : Obligations.RegisterWritesTakeTheirFields := by
  intro a v s hr
  refine ⟨fun h => ?_, fun hb h => ?_, fun hb h => ?_, fun rest ha => ⟨fun hs => ?_, fun hs => ?_⟩⟩
  · have hw := hostWrite_ctrl v hr ((decodeOffset_of_aligned h).trans (by decide))
    exact ⟨hw, by rw [hw]; rfl⟩
  · exact hostWrite_cmd v hr hb ((decodeOffset_of_aligned h).trans (by decide))
  · rw [hostWrite_dlen v hr hb ((decodeOffset_of_aligned h).trans (by decide)), BitVec.setWidth_eq_extractLsb' (by decide)]
  · simp only [step, if_pos ha, hs]
  · simp only [step, if_pos ha, hs]

/-! ### QUERY and QDATA -/

/-- QDATA at coordinates in the matrix (R74). -/
theorem queryData_inside {s : State} {x y : Nat} (hx : x < s.cfg.size) (hy : y < s.cfg.size) (hqx : s.qx.toInt = x)
    (hqy : s.qy.toInt = y) : queryData s = if modAt s y x then 1 else 0 := by
  unfold queryData
  rw [hqx, hqy]
  dsimp only
  rw [if_pos (by omega), Int.toNat_natCast, Int.toNat_natCast]
  cases modAt s y x <;> rfl

/-- QDATA at coordinates outside the matrix (R74). -/
theorem queryData_outside {s : State}
    (h : s.qx.toInt < 0 ∨ (s.cfg.size : Int) ≤ s.qx.toInt ∨ s.qy.toInt < 0 ∨ (s.cfg.size : Int) ≤ s.qy.toInt) :
    queryData s = 0 := by
  unfold queryData
  exact if_neg (by omega)

/-- Settles O23, by whether the coordinates are in the matrix. -/
theorem queryReadsOneModule : Obligations.QueryReadsOneModule := by
  intro s v hr
  have hw := hostWrite_query (a := 0x054) v hr (by decide)
  have hq : ∀ t, Claims.busValue t 0x058 = queryData t := fun t => busValue_eq_readWord t (w := .qdata) (by decide)
  dsimp only
  rw [hw, hq]
  exact ⟨rfl, fun x hx y hy hqx hqy => queryData_inside hx hy hqx hqy, fun h => queryData_outside h⟩

/-! ### MODROW and FNROW -/

@[simp] theorem writeModRow_cfg (y h : Nat) (v : Word) (s : State) : (writeModRow y h v s).cfg = s.cfg := by
  unfold writeModRow
  split <;> rfl

/-- The cells after a half-row write: those of the half-row take the bits of the word (R95). -/
theorem modAt_writeModRow {s : State} (ha : s.cfg.Admitted) (y h : Nat) (v : Word) {y' x' : Nat} (hy' : y' < s.cfg.size)
    (hx' : x' < s.cfg.size) : modAt (writeModRow y h v s) y' x' =
      if y' = y ∧ 32 * h ≤ x' ∧ x' < 32 * h + 32 then v.getLsbD (x' - 32 * h) else modAt s y' x' := by
  have hs := size_bounds ha
  have hx64 : x' < 64 := by omega
  unfold modAt
  rw [writeModRow_cfg]
  simp only [hy', hx', and_self, decide_true, Bool.true_and]
  unfold writeModRow
  by_cases hy : y < s.cfg.size
  · have hy64 : y < 64 := by omega
    rw [if_pos hy]
    simp only [Plane.get, row_setIfInBounds, hy64, and_true]
    by_cases hrow : y' = y
    · subst hrow
      simp only [if_true, getLsbD_bitsOf, hx64, hx', and_self, and_true, true_and, decide_true, Bool.true_and]
    · simp [hrow]
  · have hrow : y' ≠ y := by omega
    simp [hy, hrow]

/-- Settles O24, from the cells after a half-row write and the bits of a half-row read. -/
theorem modRowWriteSetsItsCells : Obligations.ModRowWriteSetsItsCells := by
  intro s v y h ha hr hb hy hh
  have hd := decodeOffset_modRow hy hh
  have hw := hostWrite_modRow v hr hb hd
  dsimp only
  rw [hw]
  refine ⟨writeModRow_frame y h v s, fun y' hy' x' hx' => modAt_writeModRow ha y h v hy' hx', fun b hb => ?_⟩
  rw [busValue_eq_readWord _ hd, readWord, getLsbD_rowWord]
  by_cases hin : y < s.cfg.size ∧ 32 * h + b < s.cfg.size
  · rw [modAt_writeModRow ha y h v hin.1 hin.2, if_pos (by omega), Nat.add_sub_cancel_left]
    simp [hb, hin]
  · unfold modAt
    rw [writeModRow_cfg]
    simp [hin]

/-- Settles O25, from the frames of the two accesses and the bits of a half-row read. -/
theorem functionPlaneIsReadOnlyOnTheBus : Obligations.FunctionPlaneIsReadOnlyOnTheBus := by
  intro s
  refine ⟨fun a v => ⟨?_, ?_⟩, fun y hy h hh b hb => ?_⟩
  · exact (congrArg State.fnPlane (hostWrite_frame a v s) :)
  · exact (congrArg State.fnPlane (hostRead_frame a s) :)
  · rw [busValue_eq_readWord s (decodeOffset_fnRow hy hh), readWord]
    cases s.fnValid
    · exact BitVec.getLsbD_zero
    · exact (getLsbD_rowWord _ _ _ _).trans (by simp [hb])

/-! ### DATA -/

/-- Settles O26: the write is one of the DATA memory, and no command changes what `dataAt` reads. -/
theorem onlyHostWritesChangeData : Obligations.OnlyHostWritesChangeData := by
  refine ⟨fun s v i hr hb hi => ?_, fun i s t h k => ?_⟩
  · have hd := decodeOffset_data hi
    have hat : ∀ k, dataAt { s with data := s.data.write i (v.setWidth 8) } k = if k = i then v.setWidth 8 else dataAt s k := by
      intro k
      unfold dataAt
      rw [read?_write]
      split <;> rfl
    dsimp only
    rw [hostWrite_data v hr hb hd, busValue_eq_readWord _ hd, readWord, hat, if_pos rfl]
    exact ⟨rfl, hat, rfl⟩
  · have hin := exec_inputs h
    simp only [State.inputs, Prod.mk.injEq] at hin
    obtain ⟨-, -, -, -, -, hdata, -, -, -, -, -, hresets⟩ := hin
    rw [dataAt, dataAt, hdata, hresets]

end Sys2Proof.Machine
end

section
/-! PROOF. The register space: a next state for every event, the words an access reaches, and the answers of reads. -/

namespace Sys2Proof.Machine

/-! ### Every event has a next state -/

theorem engineTurn_next (s : State) : ∃ t, engineTurn s = .next t := by
  obtain ⟨u, hu, -⟩ := engineStep_completes s
  rcases engineTurn_cases s with ⟨-, -, e⟩ | ⟨-, e⟩
  · exact ⟨u, e.trans hu⟩
  · exact ⟨s, e⟩

theorem hostWait_next (polls : Nat) (s : State) : ∃ t, hostWait polls s = .next t := by
  obtain ⟨u, hu, -⟩ := engineStep_completes { s with schedule := .waitIdle 0 :: s.schedule }
  rcases hostWait_cases polls s with ⟨-, -, -, e⟩ | ⟨-, -, e⟩ | ⟨-, -, e⟩
  · exact ⟨u, e.trans hu⟩
  · exact ⟨_, e⟩
  · exact ⟨_, e⟩

/-- Settles O6, by the event that comes next: only an Engine turn and a wait run a command, and every command completes. -/
theorem everyStepOfAnElaboratedBlockHasANextState : Obligations.EveryStepOfAnElaboratedBlockHasANextState := by
  refine fun s => ⟨fun ha => ?_, fun ha => if_neg ha⟩
  rw [step, if_pos ha]
  split
  case h_1 => exact engineTurn_next s
  case h_2 rest _ => exact engineTurn_next { s with schedule := rest }
  case h_3 polls rest _ => exact hostWait_next polls { s with schedule := rest }
  all_goals exact ⟨_, rfl⟩

/-! ### The register map (R55, R163) -/

/-- An aligned offset is four times its word index (R152). -/
theorem toNat_aligned (a : Offset) : (a &&& 0xFFC).toNat = 4 * (a.toNat / 4) := by
  have hmask : a &&& 0xFFC#12 = (a >>> 2) <<< 2 := by
    ext i hi
    interval_cases i <;> simp
  have hlt := a.isLt
  refine (congrArg BitVec.toNat hmask).trans ?_
  rw [BitVec.toNat_shiftLeft, BitVec.toNat_ushiftRight, Nat.shiftLeft_eq, Nat.shiftRight_eq_div_pow]
  omega

theorem decodeOffset_ofNat {o : Nat} (h : o < 4096) : decodeOffset (BitVec.ofNat 12 o) = busWordAt (o / 4) := by
  rw [decodeOffset, BitVec.toNat_ofNat, Nat.mod_eq_of_lt h]

theorem decodeOffset_eq_of_aligned {a b : Offset} (h : a &&& 0xFFC = b &&& 0xFFC) : decodeOffset a = decodeOffset b :=
  (decodeOffset_of_aligned h).trans (decodeOffset_aligned b)

/-- The register map by ranges of word indices that do not overlap, in the order of `busWordAt`; the reserved words come last. -/
theorem busWordAt_cases (w : Nat) :
    (w ≤ 22 ∧ busWordAt w = lowRegisters.getD w .reserved) ∨
    ((24 ≤ w ∧ w ≤ 31) ∧ busWordAt w = .trialPen (w - 24)) ∨
    (w = 32 ∧ busWordAt w = .trialValid) ∨
    ((64 ≤ w ∧ w ≤ 95) ∧ busWordAt w = .gen (w - 64)) ∨
    ((96 ≤ w ∧ w ≤ 127) ∧ busWordAt w = .rem (w - 96)) ∨
    ((256 ≤ w ∧ w ≤ 511) ∧ busWordAt w = .data (w - 256)) ∨
    ((512 ≤ w ∧ w ≤ 767) ∧ busWordAt w = .cw (w - 512)) ∨
    ((768 ≤ w ∧ w ≤ 895) ∧ busWordAt w = .modRow ((w - 768) / 2) ((w - 768) % 2)) ∨
    ((896 ≤ w ∧ w ≤ 1023) ∧ busWordAt w = .fnRow ((w - 896) / 2) ((w - 896) % 2)) ∨
    ((w = 23 ∨ (33 ≤ w ∧ w ≤ 63) ∨ (128 ≤ w ∧ w ≤ 255) ∨ 1024 ≤ w) ∧ busWordAt w = .reserved) := by
  unfold busWordAt
  split_ifs <;> simp <;> omega

/-- A word of the TRIALPEN window (R75). -/
theorem decodeOffset_trialPen {m : Nat} (h : m < 8) : decodeOffset (BitVec.ofNat 12 (0x060 + 4 * m)) = .trialPen m := by
  rw [decodeOffset_ofNat (by omega)]
  simp (disch := omega) only [busWordAt, if_neg, if_pos]
  exact congrArg BusWord.trialPen (by omega)

/-- A word of the GEN window (R93). -/
theorem decodeOffset_gen {i : Nat} (h : i < 32) : decodeOffset (BitVec.ofNat 12 (0x100 + 4 * i)) = .gen i := by
  rw [decodeOffset_ofNat (by omega)]
  simp (disch := omega) only [busWordAt, if_neg, if_pos]
  exact congrArg BusWord.gen (by omega)

/-- A word of the REM window (R94). -/
theorem decodeOffset_rem {i : Nat} (h : i < 32) : decodeOffset (BitVec.ofNat 12 (0x180 + 4 * i)) = .rem i := by
  rw [decodeOffset_ofNat (by omega)]
  simp (disch := omega) only [busWordAt, if_neg, if_pos]
  exact congrArg BusWord.rem (by omega)

/-- A word of the CW window (R92). -/
theorem decodeOffset_cw {i : Nat} (h : i < 256) : decodeOffset (BitVec.ofNat 12 (0x800 + 4 * i)) = .cw i := by
  rw [decodeOffset_ofNat (by omega)]
  simp (disch := omega) only [busWordAt, if_neg, if_pos]
  exact congrArg BusWord.cw (by omega)

/-- The reserved offsets (R76). -/
theorem decodeOffset_reserved {o : Nat} (h : (0x05C ≤ o ∧ o ≤ 0x05F) ∨ (0x084 ≤ o ∧ o ≤ 0x0FF) ∨ (0x200 ≤ o ∧ o ≤ 0x3FF)) :
    decodeOffset (BitVec.ofNat 12 o) = .reserved := by
  rw [decodeOffset_ofNat (by omega)]
  simp (disch := omega) only [busWordAt, if_neg]

/-! ### Address bits 1..0, ignored writes, and reset -/

/-- The words whose access type in R55 is read-only, and the reserved ones. -/
def BusWord.readOnly : BusWord → Bool
  | .ctrl | .status | .cmd | .dlen | .query | .data _ | .modRow _ _ => false
  | _ => true

theorem readOnly_decodeOffset_iff (a : Offset) :
    (decodeOffset a).readOnly = true ↔ ¬ Claims.Writable (a &&& 0xFFC).toNat := by
  have hlow : ∀ w ≤ 22, (lowRegisters.getD w .reserved).readOnly = true ↔ ¬ Claims.Writable (4 * w) := by
    unfold Claims.Writable Claims.EngineInput; decide
  have hlt := a.isLt
  rw [toNat_aligned, decodeOffset]
  rcases busWordAt_cases (a.toNat / 4) with ⟨hw, e⟩ | ⟨hw, e⟩ | ⟨hw, e⟩ | ⟨hw, e⟩ | ⟨hw, e⟩ | ⟨hw, e⟩ | ⟨hw, e⟩ | ⟨hw, e⟩ |
    ⟨hw, e⟩ | ⟨hw, e⟩ <;> rw [e]
  · exact hlow _ hw
  all_goals
    simp only [BusWord.readOnly, Claims.Writable, Claims.EngineInput, Bool.false_eq_true, true_iff, false_iff]
    omega

theorem hostWrite_of_readOnly {a : Offset} (h : (decodeOffset a).readOnly = true) (v : Word) (s : State) :
    hostWrite a v s = s := by
  unfold hostWrite
  split
  · rfl
  · cases e : decodeOffset a with
    | ctrl | status | cmd | dlen | query | data _ | modRow _ _ => rw [e] at h; cases h
    | _ => rfl

theorem hostRead_eq_of_aligned {a b : Offset} (h : a &&& 0xFFC = b &&& 0xFFC) (s : State) : hostRead a s = hostRead b s := by
  unfold hostRead readIsDraw
  rw [decodeOffset_eq_of_aligned h]

/-- The BUSY error records the aligned offset, so the low bits do not matter there either (R613). -/
theorem hostWrite_eq_of_aligned {a b : Offset} (h : a &&& 0xFFC#12 = b &&& 0xFFC#12) (v : Word) (s : State) :
    hostWrite a v s = hostWrite b v s := by
  simp only [hostWrite, unlessBusy, decodeOffset_eq_of_aligned h, h]

theorem hostWrite_in_reset (a : Offset) (v : Word) {s : State} (h : s.rstN = false) : hostWrite a v s = s := if_pos h

theorem engineTurn_in_reset {s : State} (h : s.rstN = false) : engineTurn s = .next s := by
  simp [engineTurn, engineReady, h]

/-- Settles O18, from the words that a write leaves alone and what an access in reset does. -/
theorem offsetsAreWordOffsetsAndOtherWritesAreIgnored : Obligations.OffsetsAreWordOffsetsAndOtherWritesAreIgnored := by
  refine ⟨fun a b v s h => ⟨hostRead_eq_of_aligned h s, hostWrite_eq_of_aligned h v s⟩,
    fun a v s h => hostWrite_of_readOnly ((readOnly_decodeOffset_iff a).2 h) v s,
    fun s hr => ⟨fun a v => hostWrite_in_reset a v hr, fun ha => ⟨fun hs => ?_, fun rest hs => ?_⟩⟩⟩
  · rw [step, if_pos ha, hs]
    exact engineTurn_in_reset hr
  · rw [step, if_pos ha, hs]
    exact engineTurn_in_reset (s := { s with schedule := rest }) hr

/-! ### Reads -/

theorem unspecifiedWhileBusy_decodeOffset_iff (a : Offset) :
    unspecifiedWhileBusy (decodeOffset a) = true ↔ ¬ Claims.StableRead (a &&& 0xFFC).toNat := by
  have hlow : ∀ w ≤ 22, unspecifiedWhileBusy (lowRegisters.getD w .reserved) = true ↔ ¬ Claims.StableRead (4 * w) := by
    unfold Claims.StableRead; decide
  have hlt := a.isLt
  rw [toNat_aligned, decodeOffset]
  rcases busWordAt_cases (a.toNat / 4) with ⟨hw, e⟩ | ⟨hw, e⟩ | ⟨hw, e⟩ | ⟨hw, e⟩ | ⟨hw, e⟩ | ⟨hw, e⟩ | ⟨hw, e⟩ | ⟨hw, e⟩ |
    ⟨hw, e⟩ | ⟨hw, e⟩ <;> rw [e]
  · exact hlow _ hw
  all_goals
    simp only [unspecifiedWhileBusy, Claims.StableRead, Bool.false_eq_true, true_iff, false_iff]
    omega

theorem readIsDraw_iff (a : Offset) (s : State) :
    readIsDraw a s = true ↔ s.rstN = false ∨ (s.busy = true ∧ ¬ Claims.StableRead (a &&& 0xFFC).toNat) := by
  rw [← unspecifiedWhileBusy_decodeOffset_iff]
  simp [readIsDraw]

/-- DARK by its fields, from bit 0 up (R69). -/
theorem darkWord_fields (s : State) : (darkWord s).extractLsb' 0 16 = s.darkCount ∧
    (darkWord s).extractLsb' 16 4 = s.darkK ∧ (darkWord s).extractLsb' 20 12 = 0 := by
  unfold darkWord
  refine ⟨?_, ?_, ?_⟩
  all_goals
    repeat refine (BitVec.extractLsb'_append_eq_of_le (by decide)).trans ?_
  case refine_3 => exact BitVec.extractLsb'_eq_self
  all_goals exact BitVec.extractLsb'_append_eq_right

/-- BEST by its fields, from bit 0 up (R70). -/
theorem bestWord_fields (s : State) : (bestWord s).extractLsb' 0 3 = s.best ∧ (bestWord s).extractLsb' 3 5 = 0 ∧
    (bestWord s).extractLsb' 8 1 = flag s.bestValid ∧ (bestWord s).extractLsb' 9 23 = 0 := by
  unfold bestWord
  refine ⟨?_, ?_, ?_, ?_⟩
  all_goals
    repeat refine (BitVec.extractLsb'_append_eq_of_le (by decide)).trans ?_
  case refine_4 => exact BitVec.extractLsb'_eq_self
  all_goals exact BitVec.extractLsb'_append_eq_right

/-- QUERY by its fields (R73). -/
theorem queryWord_fields (s : State) : (queryWord s).extractLsb' 0 16 = s.qx ∧ (queryWord s).extractLsb' 16 16 = s.qy := by
  unfold queryWord
  refine ⟨BitVec.extractLsb'_append_eq_right, ?_⟩
  exact (BitVec.extractLsb'_append_eq_of_le (by decide)).trans BitVec.extractLsb'_eq_self

/-- Each register stands at its offset (R55), and DARK, BEST and QUERY are laid out as R69, R70 and R73 say. -/
theorem registersReadTheirFields (s : State) : Claims.RegistersReadTheirFields s := by
  have hdark : Claims.busValue s 0x040 = darkWord s := busValue_eq_readWord s (w := .dark) (by decide)
  have hbest : Claims.busValue s 0x044 = bestWord s := busValue_eq_readWord s (w := .best) (by decide)
  have hquery : Claims.busValue s 0x054 = queryWord s := busValue_eq_readWord s (w := .query) (by decide)
  have hcw : ∀ i < 256, Claims.busValue s (0x800 + 4 * i) = (cwAt s i).setWidth 32 := fun i hi =>
    busValue_eq_readWord s (decodeOffset_cw hi)
  obtain ⟨dcount, dk, dhigh⟩ := darkWord_fields s
  obtain ⟨bmask, bgap, bvalid, bhigh⟩ := bestWord_fields s
  obtain ⟨qx, qy⟩ := queryWord_fields s
  unfold Claims.RegistersReadTheirFields
  rw [hdark, hbest, hquery]
  exact ⟨busValue_eq_readWord s (w := .ctrl) (by decide), busValue_eq_readWord s (w := .cmd) (by decide),
    busValue_eq_readWord s (w := .errInfo) (by decide), busValue_eq_readWord s (w := .dlen) (by decide),
    busValue_eq_readWord s (w := .result) (by decide), busValue_eq_readWord s (w := .mask) (by decide),
    busValue_eq_readWord s (w := .penalty) (by decide), busValue_eq_readWord s (w := .penRun) (by decide),
    busValue_eq_readWord s (w := .penBlock) (by decide), busValue_eq_readWord s (w := .penFinder) (by decide),
    busValue_eq_readWord s (w := .penBalance) (by decide), dcount, dk, dhigh, bmask, bgap,
    getLsbD_of_extractLsb'_flag bvalid, bhigh, busValue_eq_readWord s (w := .bestPen) (by decide),
    busValue_eq_readWord s (w := .fmt) (by decide), busValue_eq_readWord s (w := .bits) (by decide), qx, qy,
    fun m hm => busValue_eq_readWord s (decodeOffset_trialPen hm), busValue_eq_readWord s (w := .trialValid) (by decide),
    fun i hi => ⟨busValue_eq_readWord s (decodeOffset_gen hi), busValue_eq_readWord s (decodeOffset_rem hi)⟩,
    fun i hi => ⟨hcw i hi, fun hraw => by rw [hcw i hi, cwAt, if_neg (Nat.not_lt.2 hraw)]; rfl⟩,
    fun o ho => busValue_eq_readWord s (decodeOffset_reserved ho)⟩

/-- Settles O20, from the frame of a read, the words whose reads are drawn, and the register map. -/
theorem readsAnswerTheRegistersWithoutSideEffect : Obligations.ReadsAnswerTheRegistersWithoutSideEffect := by
  refine ⟨fun a s => ⟨hostRead_frame a s, fun hr h => if_neg ?_, fun h => if_pos ((readIsDraw_iff a s).2 h)⟩,
    registersReadTheirFields⟩
  rw [readIsDraw_iff]
  rintro (hr' | ⟨hb, hs⟩)
  · exact Bool.false_ne_true (hr'.symm.trans hr)
  · exact h.elim (fun hb' => Bool.false_ne_true (hb'.symm.trans hb)) hs

end Sys2Proof.Machine
end

section
/-! PROOF. The codec: what the decoder accepts, stated once over the rows of the opcode map, and that the encoder and the
decoder are inverse to each other. -/

namespace Sys2Proof

/-! ### The decoder, by the rows of the opcode map (R221) -/

/-- The opcode of a row selects that row and no other (R220). -/
theorem find?_opcodeMap {r : OpcodeRow} (hr : r ∈ opcodeMap) : opcodeMap.find? (fun q => q.opc == r.opc) = some r := by
  have hsome : (opcodeMap.find? (fun q => q.opc == r.opc)).isSome := List.find?_isSome.2 ⟨r, hr, beq_self_eq_true _⟩
  obtain ⟨q, hq⟩ := Option.isSome_iff_exists.1 hsome
  have hopc : q.opc = r.opc := eq_of_beq (List.find?_some (p := fun q : OpcodeRow => q.opc == r.opc) hq)
  rw [hq, List.inj_on_of_nodup_map opcodeMap_opcodes_distinct (List.mem_of_find?_eq_some hq) hr hopc]

/-- A word with the opcode of a row: the reserved bits of the row's format decide. -/
theorem decode_of_row {r : OpcodeRow} {w : Word} (hr : r ∈ opcodeMap) (ho : r.opc = opcField w) :
    decode w = if reservedClear r.format w then .ok (r.command w) else .error .reservedBits := by
  simp only [decode, ← ho, find?_opcodeMap hr]

theorem decode_of_unassigned {w : Word} (h : ∀ r ∈ opcodeMap, r.opc ≠ opcField w) : decode w = .error .unassignedOpcode := by
  have hnone : opcodeMap.find? (fun r => r.opc == opcField w) = none :=
    List.find?_eq_none.2 fun r hr => mt eq_of_beq (h r hr)
  simp only [decode, hnone]

/-- A word that decodes has the opcode of a row, which finds its reserved bits 0 and spells the command. -/
theorem row_of_decode_eq_ok {w : Word} {i : Instr} (h : decode w = .ok i) :
    ∃ r ∈ opcodeMap, r.opc = opcField w ∧ reservedClear r.format w = true ∧ r.command w = i := by
  by_cases hrow : ∃ r ∈ opcodeMap, r.opc = opcField w
  · obtain ⟨r, hr, ho⟩ := hrow
    rw [decode_of_row hr ho] at h
    split at h
    next hclear => exact ⟨r, hr, ho, hclear, Except.ok.inj h⟩
    next => cases h
  · rw [decode_of_unassigned fun r hr ho => hrow ⟨r, hr, ho⟩] at h
    cases h

/-! ### Decoding what was encoded -/

/-- A command's word has the opcode of its row and 0 in every reserved bit. -/
theorem encode_header (i : Instr) : Laws.EncodeHeader.Statement i := by
  cases i with
  | nop => exact Laws.EncodeHeader.nop
  | init => exact Laws.EncodeHeader.init
  | drawfn => exact Laws.EncodeHeader.drawfn
  | ecc => exact Laws.EncodeHeader.ecc
  | place => exact Laws.EncodeHeader.place
  | trial m => exact Laws.EncodeHeader.trial m
  | commit m => exact Laws.EncodeHeader.commit m
  | penalty => exact Laws.EncodeHeader.penalty
  | encode m => exact Laws.EncodeHeader.encode m
  | gfmul a b => exact Laws.EncodeHeader.gfmul a b
  | rsrem => exact Laws.EncodeHeader.rsrem

/-- The row of a command stands in the opcode map and reads the command's operands back from its word. -/
theorem row_mem_opcodeMap (i : Instr) :
    ∃ r ∈ opcodeMap, (r.opc, r.format) = Laws.EncodeHeader.row i ∧ r.command (encode i) = i := by
  cases i <;> simp [opcodeMap, Laws.EncodeHeader.row, encode]

@[simp] theorem decode_encode (i : Instr) : decode (encode i) = .ok i := by
  obtain ⟨r, hr, hrow, hcmd⟩ := row_mem_opcodeMap i
  obtain ⟨hopc, hclear⟩ := encode_header i
  rw [← hrow] at hopc hclear
  rw [decode_of_row hr hopc.symm, if_pos hclear, hcmd]

/-- The four bytes of a word on the byte lanes decode as the word does (R157). -/
theorem decodeBytes_encodeBytes_append (i : Instr) (rest : List Byte) :
    decodeBytes (encodeBytes i ++ rest) = (decode (encode i)).map fun j => (j, rest) := by
  simp only [encodeBytes, List.cons_append, List.nil_append, decodeBytes, word_of_bytes]

/-- Settles O1: the row of the command reads it back from its word, and the four bytes put together are that word. -/
theorem decodeOfEncodeIsTheCommand : Obligations.DecodeOfEncodeIsTheCommand := by
  intro i rest
  refine ⟨decode_encode i, ?_⟩
  rw [decodeBytes_encodeBytes_append, decode_encode]
  rfl

/-- Settles O4: each sample word is the encoding of its command. -/
theorem sampleCommandWordsDecode : Obligations.SampleCommandWordsDecode :=
  ⟨decode_encode .init, decode_encode (.trial 3), decode_encode (.commit 15), decode_encode (.encode 2),
    decode_encode (.gfmul 0x53 0xCA), decode_encode .nop, decode_encode .drawfn, decode_encode .ecc, decode_encode .place,
    decode_encode .penalty, decode_encode .rsrem⟩

/-! ### Encoding what was decoded -/

/-- The word of a format with the opcode `o` and the operand fields of `w`, its reserved bits 0 (R202 to R204). -/
def Format.wordOf (f : Format) (w : Word) (o : Byte) : Word :=
  match f with
  | .n => wordN o
  | .m => wordM (mField w) o
  | .g => wordG (bField w) (aField w) o

/-- A word whose reserved bits are 0 is made of its opcode and its operand fields alone. -/
theorem Format.wordOf_opcField {f : Format} {w : Word} (h : reservedClear f w = true) : f.wordOf w (opcField w) = w := by
  cases f with
  | n =>
    have h0 : w.extractLsb' 8 24 = 0#24 := eq_of_beq h
    rw [Format.wordOf, wordN, opcField, ← h0]
    exact BitVec.extractLsb'_append_extractLsb' (w := 24) (len := 8)
  | m =>
    have h0 : w.extractLsb' 12 20 = 0#20 := eq_of_beq h
    rw [Format.wordOf, wordM, opcField, mField, ← h0, BitVec.extractLsb'_append_extractLsb'_eq_extractLsb' (by decide)]
    exact BitVec.extractLsb'_append_extractLsb' (w := 24) (len := 8)
  | g =>
    have h0 : w.extractLsb' 8 8 = 0#8 := eq_of_beq h
    rw [Format.wordOf, wordG, opcField, aField, bField, ← h0]
    exact word_of_bytes w

/-- The command a row spells is encoded by that row's opcode and format. -/
theorem encode_command (w : Word) : ∀ r ∈ opcodeMap, encode (r.command w) = r.format.wordOf w r.opc := by
  simp [opcodeMap, encode, Format.wordOf]

/-- Settles O2: the row that decodes the word encodes its command with the same fields, and the other bits are 0 in both. -/
theorem encodeOfDecodeIsTheWord : Obligations.EncodeOfDecodeIsTheWord := by
  intro w i h
  obtain ⟨r, hr, hopc, hclear, rfl⟩ := row_of_decode_eq_ok h
  rw [encode_command w r hr, hopc, Format.wordOf_opcField hclear]

/-! ### Illegal words (R221, R222) -/

/-- A word with the opcode of a row is illegal exactly when a reserved bit of the row's format is 1. -/
theorem illegalWord_iff_of_row {r : OpcodeRow} {w : Word} (hr : r ∈ opcodeMap) (ho : r.opc = opcField w) :
    Claims.IllegalWord w ↔ ¬ reservedClear r.format w = true := by
  have hopc : w.extractLsb' 0 8 = r.opc := ho.symm
  unfold Claims.IllegalWord
  rw [hopc]
  simp only [opcodeMap, List.mem_cons, List.not_mem_nil, or_false] at hr
  rcases hr with rfl | rfl | rfl | rfl | rfl | rfl | rfl | rfl | rfl | rfl | rfl <;> simp [reservedClear]

/-- The opcodes that `Claims.IllegalWord` lists are those of the rows (R220), so a word without a row is illegal. -/
theorem illegalWord_of_unassigned {w : Word} (h : ∀ r ∈ opcodeMap, r.opc ≠ opcField w) : Claims.IllegalWord w := by
  have hopcodes : opcodeMap.map (·.opc.toNat) = [0x00, 0x01, 0x02, 0x03, 0x04, 0x05, 0x06, 0x07, 0x08, 0x10, 0x11] := by decide
  refine .inl fun hmem => ?_
  rw [← hopcodes] at hmem
  obtain ⟨r, hr, ho⟩ := List.mem_map.1 hmem
  exact h r hr (BitVec.eq_of_toNat_eq ho)

/-- The decoder refuses the illegal words and no others. -/
theorem decode_error_iff_illegalWord (w : Word) : (∃ e, decode w = .error e) ↔ Claims.IllegalWord w := by
  by_cases hrow : ∃ r ∈ opcodeMap, r.opc = opcField w
  · obtain ⟨r, hr, ho⟩ := hrow
    rw [decode_of_row hr ho, illegalWord_iff_of_row hr ho]
    cases reservedClear r.format w <;> simp
  · have hnone : ∀ r ∈ opcodeMap, r.opc ≠ opcField w := fun r hr ho => hrow ⟨r, hr, ho⟩
    exact iff_of_true ⟨_, decode_of_unassigned hnone⟩ (illegalWord_of_unassigned hnone)

theorem engineStep_of_illegalWord {s : Machine.State} (h : Claims.IllegalWord s.pending) :
    Machine.engineStep s = .next (Machine.raiseReject .illegal s) := by
  obtain ⟨e, he⟩ := (decode_error_iff_illegalWord s.pending).2 h
  simp only [Machine.engineStep, he, Machine.finish_reject]

/-- Settles O3, by whether the opcode map has a row for the word's opcode. -/
theorem illegalWordsAreRejectedBeforeAnyOtherCheck : Obligations.IllegalWordsAreRejectedBeforeAnyOtherCheck :=
  ⟨decode_error_iff_illegalWord, fun _ => engineStep_of_illegalWord⟩

end Sys2Proof
end

section
/-! PROOF. The field of R250: its operations are additive over XOR, so the eight powers of t fix them. -/

namespace Sys2Proof.Machine

/-! ### Additive maps of bytes -/

theorem xor_xor_xor_comm {w : Nat} (a b c d : BitVec w) : a ^^^ b ^^^ (c ^^^ d) = a ^^^ c ^^^ (b ^^^ d) := by ac_rfl

theorem xor_xor_xor_cancel {w : Nat} (a b c : BitVec w) : a ^^^ c ^^^ (b ^^^ c) = a ^^^ b := by
  rw [xor_xor_xor_comm, BitVec.xor_self, BitVec.xor_zero]

/-- Adding `v` to a sum when exactly one of two conditions holds is adding it to one part on each condition. -/
theorem ite_xor_cond {w : Nat} (b b' : Bool) (u u' v : BitVec w) :
    (if (b ^^ b') = true then u ^^^ u' ^^^ v else u ^^^ u') =
      (if b = true then u ^^^ v else u) ^^^ (if b' = true then u' ^^^ v else u') := by
  cases b <;> cases b'
  · rfl
  · exact BitVec.xor_assoc u u' v
  · show u ^^^ u' ^^^ v = u ^^^ v ^^^ u'
    ac_rfl
  · exact (xor_xor_xor_cancel u u' v).symm

/-- A conditional addition of a sum is the sum of the conditional additions. -/
theorem ite_xor_value {w : Nat} (b : Bool) (u u' v v' : BitVec w) :
    (if b = true then u ^^^ u' ^^^ (v ^^^ v') else u ^^^ u') =
      (if b = true then u ^^^ v else u) ^^^ (if b = true then u' ^^^ v' else u') := by
  cases b
  · rfl
  · exact xor_xor_xor_comm u u' v v'

/-- Additive over the addition of the field, XOR (R250). -/
def XorAdditive (f : Byte → Byte) : Prop := ∀ x y, f (x ^^^ y) = f x ^^^ f y

theorem XorAdditive.comp {f g : Byte → Byte} (hf : XorAdditive f) (hg : XorAdditive g) : XorAdditive fun x => f (g x) :=
  fun x y => (congrArg f (hg x y)).trans (hf _ _)

theorem XorAdditive.map_zero {f : Byte → Byte} (hf : XorAdditive f) : f 0 = 0 := by
  simpa using hf 0 0

/-- A byte whose bits are all below `k` is built from the powers `t^i`, `i < k`: additive maps that agree on those agree on it. -/
theorem XorAdditive.eq_of_bits_below {f g : Byte → Byte} (hf : XorAdditive f) (hg : XorAdditive g)
    (h : ∀ i < 8, f (1#8 <<< i) = g (1#8 <<< i)) (k : Nat) (x : Byte) (hx : ∀ i, k ≤ i → x.getLsbD i = false) :
    f x = g x := by
  induction k generalizing x with
  | zero =>
    obtain rfl : x = 0 := BitVec.eq_of_getLsbD_eq fun i _ => by simpa using hx i (Nat.zero_le i)
    rw [hf.map_zero, hg.map_zero]
  | succ k ih =>
    cases hk : x.getLsbD k
    case false =>
      refine ih x fun i hi => ?_
      rcases Nat.eq_or_lt_of_le hi with rfl | hlt
      · exact hk
      · exact hx i hlt
    case true =>
      have hk8 : k < 8 := BitVec.lt_of_getLsbD hk
      have hlow : f (x ^^^ 1#8 <<< k) = g (x ^^^ 1#8 <<< k) := by
        refine ih _ fun i hi => ?_
        rcases Nat.eq_or_lt_of_le hi with rfl | hlt
        · simp [hk, hk8]
        · simp [hx i hlt, Nat.not_lt.2 hi, Nat.sub_ne_zero_of_lt hlt]
      have hsum : x = (x ^^^ 1#8 <<< k) ^^^ 1#8 <<< k := by simp
      rw [hsum, hf, hg, hlow, h k hk8]

/-- The powers of t are a basis: additive maps that agree on them are equal. -/
theorem XorAdditive.ext {f g : Byte → Byte} (hf : XorAdditive f) (hg : XorAdditive g)
    (h : ∀ i < 8, f (1#8 <<< i) = g (1#8 <<< i)) (x : Byte) : f x = g x :=
  hf.eq_of_bits_below hg h 8 x fun i hi => BitVec.getLsbD_of_ge x i hi

/-- The same for maps of two bytes that are additive in each. -/
theorem eq_of_biadditive {f g : Byte → Byte → Byte} (hfl : ∀ y, XorAdditive (f · y)) (hfr : ∀ x, XorAdditive (f x))
    (hgl : ∀ y, XorAdditive (g · y)) (hgr : ∀ x, XorAdditive (g x))
    (h : ∀ i < 8, ∀ j < 8, f (1#8 <<< i) (1#8 <<< j) = g (1#8 <<< i) (1#8 <<< j)) (x y : Byte) : f x y = g x y :=
  (hfl y).ext (hgl y) (fun i hi => (hfr _).ext (hgr _) (h i hi) y) x

/-- A loop whose rounds are additive is additive. -/
theorem foldl_xor {w : Nat} {f g h : BitVec w → Nat → BitVec w} (H : ∀ z z' i, h (z ^^^ z') i = f z i ^^^ g z' i)
    (is : List Nat) (z z' : BitVec w) : is.foldl h (z ^^^ z') = is.foldl f z ^^^ is.foldl g z' :=
  List.foldl_hom₂ is (· ^^^ ·) f g h z z' fun z z' i => (H z z' i).symm

/-! ### The product -/

/-- The doubling of a round of `gf_mul`, before `x` is added (R251). -/
def gfMulDouble (z : BitVec 9) : BitVec 9 := if z.getLsbD 7 then z <<< 1 ^^^ 0x11D#9 else z <<< 1

theorem gfMulRound_eq (x y : Byte) (z : BitVec 9) (i : Nat) :
    gfMulRound x y z i = if y.getLsbD i then gfMulDouble z ^^^ x.setWidth 9 else gfMulDouble z := by
  unfold gfMulRound gfMulDouble
  cases z.getLsbD 7
  · simp
  · rfl

theorem gfMulDouble_xor (z z' : BitVec 9) : gfMulDouble (z ^^^ z') = gfMulDouble z ^^^ gfMulDouble z' := by
  unfold gfMulDouble
  rw [BitVec.getLsbD_xor, BitVec.shiftLeft_xor_distrib, ite_xor_cond]

theorem gfMul_xor_right (x y y' : Byte) : gfMul x (y ^^^ y') = gfMul x y ^^^ gfMul x y' := by
  unfold gfMul
  rw [← BitVec.setWidth_xor]
  refine congrArg (BitVec.setWidth 8) (foldl_xor (fun z z' i => ?_) _ 0 0)
  simp only [gfMulRound_eq, BitVec.getLsbD_xor, gfMulDouble_xor, ite_xor_cond]

theorem gfMul_xor_left (x x' y : Byte) : gfMul (x ^^^ x') y = gfMul x y ^^^ gfMul x' y := by
  unfold gfMul
  rw [← BitVec.setWidth_xor]
  refine congrArg (BitVec.setWidth 8) (foldl_xor (fun z z' i => ?_) _ 0 0)
  simp only [gfMulRound_eq, BitVec.setWidth_xor, gfMulDouble_xor, ite_xor_value]

theorem gfMul_additive_right (x : Byte) : XorAdditive (gfMul x) := gfMul_xor_right x

theorem gfMul_additive_left (y : Byte) : XorAdditive (gfMul · y) := fun x x' => gfMul_xor_left x x' y

theorem carrylessProduct_xor_right (x y y' : Byte) :
    Claims.carrylessProduct x (y ^^^ y') = Claims.carrylessProduct x y ^^^ Claims.carrylessProduct x y' := by
  refine foldl_xor (fun acc acc' i => ?_) _ 0 0
  rw [BitVec.getLsbD_xor, ite_xor_cond]

theorem carrylessProduct_xor_left (x x' y : Byte) :
    Claims.carrylessProduct (x ^^^ x') y = Claims.carrylessProduct x y ^^^ Claims.carrylessProduct x' y := by
  refine foldl_xor (fun acc acc' i => ?_) _ 0 0
  rw [BitVec.setWidth_xor, BitVec.shiftLeft_xor_distrib, ite_xor_value]

theorem modPrimitive_xor (p q : BitVec 16) :
    Claims.modPrimitive (p ^^^ q) = Claims.modPrimitive p ^^^ Claims.modPrimitive q := by
  unfold Claims.modPrimitive
  rw [← BitVec.setWidth_xor]
  refine congrArg (BitVec.setWidth 8) (foldl_xor (fun acc acc' i => ?_) _ p q)
  rw [BitVec.getLsbD_xor, ite_xor_cond]

/-- The loop of R251 gives the product R250 fixes. -/
theorem gfMul_eq_modPrimitive (x y : Byte) : gfMul x y = Claims.modPrimitive (Claims.carrylessProduct x y) := by
  refine eq_of_biadditive (g := fun x y => Claims.modPrimitive (Claims.carrylessProduct x y))
    gfMul_additive_left gfMul_additive_right (fun y x x' => ?_) (fun x y y' => ?_) (by decide +kernel) x y
  · simp only [carrylessProduct_xor_left, modPrimitive_xor]
  · simp only [carrylessProduct_xor_right, modPrimitive_xor]

theorem gfMul_comm (x y : Byte) : gfMul x y = gfMul y x :=
  eq_of_biadditive gfMul_additive_left gfMul_additive_right gfMul_additive_right gfMul_additive_left (by decide +kernel) x y

@[simp] theorem gfMul_zero_left (y : Byte) : gfMul 0#8 y = 0#8 := (gfMul_additive_left y).map_zero

@[simp] theorem gfMul_zero_right (x : Byte) : gfMul x 0#8 = 0#8 := (gfMul_additive_right x).map_zero

@[simp] theorem gfMul_one_left (y : Byte) : gfMul 1#8 y = y :=
  (gfMul_additive_right 1).ext (g := fun y => y) (fun _ _ => rfl) (by decide +kernel) y

@[simp] theorem gfMul_one_right (x : Byte) : gfMul x 1#8 = x := (gfMul_comm x 1#8).trans (gfMul_one_left x)

theorem gfMul_gfMul_two (x y : Byte) : gfMul (gfMul x y) 2 = gfMul x (gfMul y 2) :=
  eq_of_biadditive (f := fun x y => gfMul (gfMul x y) 2) (g := fun x y => gfMul x (gfMul y 2))
    (fun y => (gfMul_additive_left 2).comp (gfMul_additive_left y))
    (fun x => (gfMul_additive_left 2).comp (gfMul_additive_right x))
    (fun y => gfMul_additive_left (gfMul y 2)) (fun x => (gfMul_additive_right x).comp (gfMul_additive_left 2))
    (by decide +kernel) x y

theorem shiftLeft_succ_eq_gfMul_two : ∀ k < 7, 1#8 <<< (k + 1) = gfMul (1#8 <<< k) 2 := by decide +kernel

/-- Associativity for a power of t as the last factor: multiplying by `t^k` is multiplying `k` times by t. -/
theorem gfMul_gfMul_power (x y : Byte) {k : Nat} (hk : k < 8) :
    gfMul (gfMul x y) (1#8 <<< k) = gfMul x (gfMul y (1#8 <<< k)) := by
  induction k with
  | zero => exact (gfMul_one_right _).trans (congrArg (gfMul x) (gfMul_one_right y).symm)
  | succ k ih =>
    calc gfMul (gfMul x y) (1#8 <<< (k + 1))
        = gfMul (gfMul (gfMul x y) (1#8 <<< k)) 2 := by rw [shiftLeft_succ_eq_gfMul_two k (by omega), gfMul_gfMul_two]
      _ = gfMul x (gfMul (gfMul y (1#8 <<< k)) 2) := by rw [ih (by omega), gfMul_gfMul_two]
      _ = gfMul x (gfMul y (1#8 <<< (k + 1))) := by rw [shiftLeft_succ_eq_gfMul_two k (by omega), gfMul_gfMul_two]

theorem gfMul_assoc (x y z : Byte) : gfMul (gfMul x y) z = gfMul x (gfMul y z) :=
  (gfMul_additive_right (gfMul x y)).ext ((gfMul_additive_right x).comp (gfMul_additive_right y))
    (fun _ hk => gfMul_gfMul_power x y hk) z

/-- Settles O27: each law equates maps additive in each operand, which the powers of t fix. -/
theorem gfMulIsTheFieldProduct : Obligations.GfMulIsTheFieldProduct :=
  ⟨gfMul_eq_modPrimitive, gfMul_assoc, gfMul_comm, fun y => ⟨gfMul_zero_left y, gfMul_one_left y⟩,
    fun x y z => (gfMul_xor_right x y z).symm, by decide +kernel, by decide +kernel⟩

/-- Settles O29, by the product of O27. -/
theorem gfmulSetsResult : Obligations.GfmulSetsResult := by
  intro a b s
  rw [← gfMul_eq_modPrimitive]
  rfl

end Sys2Proof.Machine
end

section
/-! PROOF. The powers of α (R253), the generator divisor (R255) and the remainder (R258 to R260). -/

namespace Sys2Proof.Machine

/-! ### The powers of α -/

theorem gfAlphaPow_eq_iterate (i : Nat) : gfAlphaPow i = (gfMul · 0x02)^[i] 0x01 := by
  induction i with
  | zero => rfl
  | succ i ih => rw [Function.iterate_succ_apply', ← ih]; rfl

theorem gfAlphaPow_255 : gfAlphaPow 255 = 0x01 := by decide +kernel

theorem gfAlphaPow_ne_one_of_mem_properDivisors : ∀ d ∈ Nat.properDivisors 255, gfAlphaPow d ≠ 0x01 := by decide +kernel

/-- A period `i < 255` of the powers would give the proper divisor `gcd i 255` as a period. -/
theorem gfAlphaPow_ne_one {i : Nat} (hpos : 0 < i) (hi : i < 255) : gfAlphaPow i ≠ 0x01 := by
  have hmem : i.gcd 255 ∈ Nat.properDivisors 255 :=
    Nat.mem_properDivisors.2 ⟨Nat.gcd_dvd_right i 255, (Nat.gcd_le_left 255 hpos).trans_lt hi⟩
  have hgcd := gfAlphaPow_ne_one_of_mem_properDivisors _ hmem
  have h255 := gfAlphaPow_255
  rw [gfAlphaPow_eq_iterate] at hgcd h255 ⊢
  exact fun h => hgcd (Function.IsPeriodicPt.gcd h h255)

/-- Settles O28: the order is 255, since no proper divisor of 255 is a period. -/
theorem alphaHasOrder255 : Obligations.AlphaHasOrder255 :=
  ⟨rfl, fun _ _ => rfl, gfAlphaPow_255, fun _ hi hpos => gfAlphaPow_ne_one hpos hi, by decide +kernel⟩

/-! ### Polynomials by Horner's rule -/

/-- The value at `x` of `a · x^n + l(x)`, for the `n` coefficients `l`: Horner's rule begun at `a`. -/
def hornerFrom (x a : Byte) (l : List Byte) : Byte := l.foldl (fun acc c => gfMul acc x ^^^ c) a

theorem evalPoly_eq_hornerFrom (x : Byte) (l : List Byte) : Claims.evalPoly x l = hornerFrom x 0#8 l := rfl

@[simp] theorem hornerFrom_nil (x a : Byte) : hornerFrom x a [] = a := rfl

@[simp] theorem hornerFrom_cons (x a c : Byte) (l : List Byte) :
    hornerFrom x a (c :: l) = hornerFrom x (gfMul a x ^^^ c) l := rfl

@[simp] theorem hornerFrom_append (x a : Byte) (l r : List Byte) :
    hornerFrom x a (l ++ r) = hornerFrom x (hornerFrom x a l) r := List.foldl_append

@[simp] theorem hornerFrom_replicate_zero (x : Byte) (n : Nat) : hornerFrom x 0#8 (List.replicate n 0#8) = 0#8 := by
  induction n with
  | zero => rfl
  | succ n ih => simpa [List.replicate_succ] using ih

/-- The value of a sum of polynomials, coefficient by coefficient. -/
theorem hornerFrom_zipWith_xor (x a b : Byte) {l r : List Byte} (g : Byte → Byte) (h : l.length = r.length) :
    hornerFrom x (a ^^^ b) (List.zipWith (fun c d => c ^^^ g d) l r) = hornerFrom x a l ^^^ hornerFrom x b (r.map g) := by
  induction l generalizing r a b with
  | nil =>
    obtain rfl : r = [] := List.length_eq_zero_iff.1 h.symm
    rfl
  | cons c l ih =>
    obtain _ | ⟨d, r⟩ := r
    · cases h
    · rw [List.zipWith_cons_cons, List.map_cons, hornerFrom_cons, gfMul_xor_left a b x, xor_xor_xor_comm]
      exact ih _ _ (Nat.succ.inj h)

/-- The value of a polynomial multiplied by a constant. -/
theorem hornerFrom_map_gfMul (x f a : Byte) (l : List Byte) :
    hornerFrom x (gfMul a f) (l.map (gfMul · f)) = gfMul (hornerFrom x a l) f := by
  induction l generalizing a with
  | nil => rfl
  | cons c l ih =>
    have hc : gfMul (gfMul a f) x = gfMul (gfMul a x) f := by rw [gfMul_assoc, gfMul_comm f, gfMul_assoc]
    rw [List.map_cons, hornerFrom_cons, hornerFrom_cons, hc, ← gfMul_xor_left, ih]

/-! ### The generator divisor -/

theorem timesRoot_cons (c root : Byte) (g : List Byte) :
    timesRoot (c :: g) root = (gfMul c root ^^^ g.getD 0 0) :: timesRoot g root := by
  simp [timesRoot, List.mapIdx_cons]

theorem getD_timesRoot (g : List Byte) (root : Byte) (j : Nat) :
    (timesRoot g root).getD j 0 = gfMul (g.getD j 0) root ^^^ g.getD (j + 1) 0 := by
  induction g generalizing j with
  | nil => simp [timesRoot]
  | cons c g ih =>
    rw [timesRoot_cons]
    cases j with
    | zero => rfl
    | succ j => exact ih j

/-- Multiplying `a · x^n + g(x)` by `x - root`, where `timesRoot` gives the last `n` coefficients (R255). -/
theorem hornerFrom_timesRoot (x root a : Byte) (g : List Byte) :
    hornerFrom x (gfMul a (x ^^^ root) ^^^ g.getD 0 0) (timesRoot g root) = gfMul (hornerFrom x a g) (x ^^^ root) := by
  induction g generalizing a with
  | nil => simp [timesRoot]
  | cons c g ih =>
    have hstart : gfMul (gfMul a (x ^^^ root) ^^^ c) x ^^^ (gfMul c root ^^^ g.getD 0 0) =
        gfMul (gfMul a x ^^^ c) (x ^^^ root) ^^^ g.getD 0 0 := by
      have hswap : gfMul (gfMul a (x ^^^ root)) x = gfMul (gfMul a x) (x ^^^ root) := by
        rw [gfMul_assoc, gfMul_comm (x ^^^ root), gfMul_assoc]
      rw [gfMul_xor_left, gfMul_xor_left, hswap, gfMul_xor_right c]
      ac_rfl
    rw [timesRoot_cons, hornerFrom_cons, List.getD_cons_zero, hstart, ih, hornerFrom_cons]

/-- After `n ≤ d` roots the stored coefficients are a polynomial of degree `n` with leading coefficient 1, which for
`n < d` is stored. -/
theorem getD_divisorAfter (d n j : Nat) (h : j + n + 1 ≤ d) :
    (divisorAfter d n).getD j 0 = if j + n + 1 = d then 1 else 0 := by
  induction n generalizing j with
  | zero => simp [divisorAfter, Nat.lt_of_succ_le h]
  | succ n ih =>
    have hstep : j + 1 + n + 1 = j + (n + 1) + 1 := by omega
    rw [divisorAfter, getD_timesRoot, ih j (by omega), ih (j + 1) (by omega), if_neg (by omega), hstep]
    simp

theorem evalPoly_divisorAfter_succ (x : Byte) {d n : Nat} (h : n < d) :
    Claims.evalPoly x ((if n + 1 = d then 1 else 0) :: divisorAfter d (n + 1)) =
      gfMul (Claims.evalPoly x (divisorAfter d n)) (x ^^^ gfAlphaPow n) := by
  have hlead := getD_divisorAfter d n 0 (by omega)
  rw [Nat.zero_add] at hlead
  rw [evalPoly_eq_hornerFrom, evalPoly_eq_hornerFrom, ← hornerFrom_timesRoot, hlead, hornerFrom_cons, gfMul_zero_left,
    gfMul_zero_left]
  rfl

/-- The divisor after `n` roots vanishes at each of them. -/
theorem evalPoly_divisorAfter_eq_zero {d n i : Nat} (hn : n ≤ d) (hi : i < n) :
    Claims.evalPoly (gfAlphaPow i) ((if n = d then 1 else 0) :: divisorAfter d n) = 0 := by
  induction n with
  | zero => cases hi
  | succ n ih =>
    rw [evalPoly_divisorAfter_succ _ hn]
    rcases Nat.lt_succ_iff_lt_or_eq.1 hi with hlt | rfl
    · have hz := ih (by omega) hlt
      rw [if_neg (by omega)] at hz
      have hd : Claims.evalPoly (gfAlphaPow i) (divisorAfter d n) = 0 := by simpa [evalPoly_eq_hornerFrom] using hz
      rw [hd]
      exact gfMul_zero_left _
    · rw [BitVec.xor_self]
      exact gfMul_zero_right _

theorem evalPoly_genDivisor_eq_zero {d i : Nat} (hi : i < d) :
    Claims.evalPoly (gfAlphaPow i) (0x01 :: genDivisor d) = 0 := by
  have h := evalPoly_divisorAfter_eq_zero (Nat.le_refl d) hi
  unfold genDivisor
  rwa [if_pos rfl] at h

/-- Settles O30: each factor of the divisor puts in its root and keeps those before it. -/
theorem generatorDivisorHasItsRoots : Obligations.GeneratorDivisorHasItsRoots := fun c _ _ =>
  ⟨length_genDivisor _, fun _ hi => evalPoly_genDivisor_eq_zero hi, fun _ _ => rfl,
    fun _ hj => List.getD_eq_default _ _ (by rwa [length_genDivisor])⟩

/-! ### The remainder -/

section AtARoot

variable {x : Byte} {gen : List Byte} (hroot : hornerFrom x 1#8 gen = 0#8)
include hroot

/-- At a root of the divisor, a step of the division takes in a byte and multiplies the value by `x`: what it
subtracts is a multiple of the divisor. -/
theorem hornerFrom_remainderStep (a dk : Byte) {r : List Byte} (hr : r.length = gen.length) :
    hornerFrom x (gfMul a x ^^^ dk) (remainderStep gen r dk) = gfMul (hornerFrom x a r) x := by
  cases r with
  | nil =>
    obtain rfl : gen = [] := List.length_eq_zero_iff.1 hr.symm
    cases hroot
  | cons c r =>
    have hdiv : hornerFrom x (dk ^^^ c) (gen.map (gfMul · (dk ^^^ c))) = 0#8 := by
      have h := hornerFrom_map_gfMul x (dk ^^^ c) 1#8 gen
      rwa [hroot, gfMul_zero_left, gfMul_one_left] at h
    have hlen : (r ++ [0x00]).length = gen.length := by simpa using hr
    have hsum := hornerFrom_zipWith_xor x (gfMul a x ^^^ c) (dk ^^^ c) (gfMul · (dk ^^^ c)) hlen
    rw [← xor_xor_xor_cancel _ _ c]
    exact hsum.trans (by rw [hdiv]; simp)

theorem hornerFrom_foldl_remainderStep (ds : List Byte) (a : Byte) {r : List Byte} (hr : r.length = gen.length)
    (h : hornerFrom x a r = 0#8) : hornerFrom x (hornerFrom x a ds) (ds.foldl (remainderStep gen) r) = 0#8 := by
  induction ds generalizing a r with
  | nil => exact h
  | cons dk ds ih =>
    refine ih _ (length_remainderStep dk hr) ?_
    rw [hornerFrom_remainderStep hroot a dk hr, h, gfMul_zero_left]

end AtARoot

/-- Settles O31: at a root, data followed by the register keeps the value 0 through the division. -/
theorem codewordVanishesAtTheRoots : Obligations.CodewordVanishesAtTheRoots := by
  refine fun c ds _ _ => ⟨length_rsRemainder c ds, fun i hi => ?_⟩
  have hroot : hornerFrom (gfAlphaPow i) 1#8 (genDivisor c.eccLen) = 0#8 := by
    simpa [evalPoly_eq_hornerFrom] using evalPoly_genDivisor_eq_zero hi
  rw [evalPoly_eq_hornerFrom, hornerFrom_append]
  unfold rsRemainder rsRemainderBy
  exact hornerFrom_foldl_remainderStep hroot ds _ (List.length_replicate ..) (hornerFrom_replicate_zero _ _)

/-- Taking in the register's own first byte only shifts it: the factor is 0. -/
theorem remainderStep_head {gen l : List Byte} (b : Byte) (h : l.length + 1 = gen.length) :
    remainderStep gen (b :: l) b = l ++ [0x00] := by
  refine List.ext_getElem (by simp [remainderStep, h]) fun i _ _ => ?_
  simp [remainderStep]

/-- Taking in the register's own bytes shifts them all out. -/
theorem foldl_remainderStep_self {gen l : List Byte} (k : Nat) (h : l.length + k = gen.length) :
    l.foldl (remainderStep gen) (l ++ List.replicate k 0x00) = List.replicate gen.length 0x00 := by
  induction l generalizing k with
  | nil => rw [← h]; simp
  | cons b l ih =>
    rw [List.foldl_cons, List.cons_append, remainderStep_head b (by simp at h ⊢; omega), List.append_assoc,
      ← List.replicate_succ', ih (k + 1) (by simp at h ⊢; omega)]

theorem rsRemainder_append (c : Cfg) (ds l : List Byte) :
    rsRemainder c (ds ++ l) = l.foldl (remainderStep (genDivisor c.eccLen)) (rsRemainder c ds) := by
  unfold rsRemainder rsRemainderBy
  exact List.foldl_append

/-- Settles O32: after the data the register holds the remainder, and taking that in shifts it out. -/
theorem remainderOfACodewordIsZero : Obligations.RemainderOfACodewordIsZero := by
  intro c ds
  have hself := foldl_remainderStep_self (gen := genDivisor c.eccLen) (l := rsRemainder c ds) 0 (by simp)
  rw [List.replicate_zero, List.append_nil, length_genDivisor] at hself
  exact (rsRemainder_append c ds _).trans hself

/-- Settles O33, by what REM holds of a remainder and the remainder's length. -/
theorem rsremSetsRem : Obligations.RsremSetsRem := by
  refine fun s _ => ⟨_, rfl, fun i hi => ?_⟩
  have hslice : dataSlice s 0 s.dlen.toNat = (List.range s.dlen.toNat).map (dataAt s) := by simp [dataSlice]
  rw [rsremBody_rem, getElem?_remEntries _ hi, hslice]
  split
  · rfl
  · exact List.getD_eq_default _ _ (by simpa using ‹¬ i < s.cfg.eccLen›)

end Sys2Proof.Machine
end

section
/-! PROOF. The block split (R263). -/

namespace Sys2Proof.Machine

theorem blockStart_eq (c : Cfg) (j : Nat) : blockStart c j = j * c.shortDataLen + (j - c.numShortBlocks) := by
  induction j with
  | zero => simp [blockStart]
  | succ j ih =>
    rw [blockStart, ih, blockLen, Nat.add_one_mul]
    split <;> omega

theorem shortDataLen_le (c : Cfg) : c.shortDataLen ≤ c.shortBlockLen := Nat.sub_le _ _

/-- The data codewords are those of equal blocks, and one more for each long block (R17). -/
theorem dataCodewords_eq {c : Cfg} (h : c.Admitted) :
    c.dataCodewords = c.numBlocks * c.shortDataLen + (c.numBlocks - c.numShortBlocks) := by
  obtain ⟨-, ⟨hn, -⟩, -, hs, -⟩ := h
  have hdiv := Nat.div_add_mod c.rawCodewords c.numBlocks
  have hmod := Nat.mod_lt c.rawCodewords hn
  unfold Cfg.shortDataLen Cfg.shortBlockLen at hs
  have hecc := Nat.mul_le_mul_left c.numBlocks (Nat.lt_of_sub_pos hs).le
  unfold Cfg.dataCodewords Cfg.numShortBlocks Cfg.shortDataLen Cfg.shortBlockLen
  rw [Nat.mul_sub]
  omega

theorem one_le_numShortBlocks {c : Cfg} (h : c.Admitted) : 1 ≤ c.numShortBlocks := by
  obtain ⟨-, ⟨hn, -⟩, -⟩ := h
  exact Nat.sub_pos_of_lt (Nat.mod_lt c.rawCodewords hn)

/-- Settles O34, by the start of each block in closed form. -/
theorem blocksCoverTheData : Obligations.BlocksCoverTheData := fun c h =>
  ⟨rfl, (blockStart_eq c c.numBlocks).trans (dataCodewords_eq h).symm, fun _ _ => ⟨rfl, rfl⟩, one_le_numShortBlocks h,
    numShortBlocks_le c⟩

end Sys2Proof.Machine
end

section
/-! PROOF. The interleaved codewords (R265, R266): where ECC puts each byte of the blocks. -/

namespace Sys2Proof.Machine

/-! ### The columns -/

/-- In a concatenation of lists the `m`-th begins after the lengths of those before it. -/
theorem getElem?_flatMap_range {α : Type} (f : Nat → List α) {n m p : Nat} (hm : m < n) (hp : p < (f m).length) :
    ((List.range n).flatMap f)[((List.range m).map fun i => (f i).length).sum + p]? = (f m)[p]? := by
  obtain ⟨k, rfl⟩ := Nat.exists_eq_add_of_lt hm
  rw [Nat.add_assoc, List.range_add, List.range_succ_eq_map, List.flatMap_append, ← List.length_flatMap,
    List.getElem?_append_right (Nat.le_add_right _ _), Nat.add_sub_cancel_left, List.map_cons, List.flatMap_cons,
    Nat.add_zero, List.getElem?_append_left hp]

/-- Column `i` begins at `i · NUM_BLOCKS`, less the pad bytes left out before it. -/
theorem getElem?_interleave {c : Cfg} {blocks : List (List Byte)} {i p : Nat} {v : Byte} (hi : i ≤ c.shortBlockLen)
    (h : (interleaveColumn c blocks i)[p]? = some v) :
    (interleave c blocks)[i * c.numBlocks - (if c.shortDataLen < i then c.numShortBlocks else 0) + p]? = some v := by
  obtain ⟨hp, -⟩ := List.getElem?_eq_some_iff.1 h
  have hsum := sum_lengths_interleaveColumn c blocks i
  rw [← h, ← getElem?_flatMap_range (interleaveColumn c blocks) (Nat.lt_succ_of_le hi) hp, ← Nat.eq_sub_of_add_eq hsum]
  unfold interleave
  rfl

/-- A column of data or ECC bytes takes a byte of every block. -/
theorem getElem?_interleaveColumn (c : Cfg) (blocks : List (List Byte)) {i j : Nat} (hi : i ≠ c.shortDataLen)
    (hj : j < c.numBlocks) : (interleaveColumn c blocks i)[j]? = some ((blocks.getD j []).getD i 0) := by
  simp [interleaveColumn, beq_false_of_ne hi, hj]

/-- The column of the pad bytes takes a byte of the long blocks only. -/
theorem getElem?_interleaveColumn_pad (c : Cfg) (blocks : List (List Byte)) {j : Nat} (hs : c.numShortBlocks ≤ j)
    (hj : j < c.numBlocks) : (interleaveColumn c blocks c.shortDataLen)[j - c.numShortBlocks]? =
      some ((blocks.getD j []).getD c.shortDataLen 0) := by
  have hfilter : ((List.range c.numBlocks).filter fun j => !(c.shortDataLen == c.shortDataLen && decide (j < c.numShortBlocks)))
      = List.Ico c.numShortBlocks c.numBlocks := by
    have h := List.Ico.filter_le 0 c.numBlocks c.numShortBlocks
    rw [List.Ico.zero_bot, Nat.zero_max] at h
    simpa [← decide_not] using h
  rw [interleaveColumn, hfilter, List.getElem?_map, List.Ico, List.getElem?_range' (by omega)]
  simp [hs]

/-! ### The padded blocks -/

theorem getD_paddedBlocks (s : State) {j : Nat} (hj : j < s.cfg.numBlocks) : (paddedBlocks s).getD j [] = paddedBlock s j := by
  unfold paddedBlocks
  simp [hj]

@[simp] theorem length_blockData (s : State) (j : Nat) : (blockData s j).length = blockLen s.cfg j := by
  simp [blockData, dataSlice]

theorem getD_paddedBlock_data (s : State) {j k : Nat} (hk : k < blockLen s.cfg j) :
    (paddedBlock s j).getD k 0 = dataAt s (blockStart s.cfg j + k) := by
  rw [paddedBlock, List.append_assoc, List.getD_append _ _ _ _ (by simpa using hk)]
  simp [blockData, dataSlice, hk]

theorem getD_paddedBlock_ecc (s : State) (j k : Nat) :
    (paddedBlock s j).getD (s.cfg.shortDataLen + 1 + k) 0 = (blockEcc s j).getD k 0 := by
  have hlen : (blockData s j ++ if j < s.cfg.numShortBlocks then [0x00] else []).length = s.cfg.shortDataLen + 1 := by
    rw [List.length_append, length_blockData, blockLen]
    split <;> simp
  rw [paddedBlock, List.getD_append_right _ _ _ _ (by omega), hlen, Nat.add_sub_cancel_left]

/-! ### CW after ECC -/

theorem cwAt_writeFrom {s : State} {out : List Byte} (hlen : out.length = s.cfg.rawCodewords) {p : Nat} {v : Byte}
    (h : out[p]? = some v) : cwAt { s with cw := s.cw.writeFrom 0 out } p = v := by
  obtain ⟨hp, -⟩ := List.getElem?_eq_some_iff.1 h
  simp only [cwAt]
  rw [if_pos (hlen ▸ hp), read?_writeFrom, if_pos ⟨Nat.zero_le p, by omega⟩, Nat.sub_zero, h]
  rfl

/-- What ECC leaves of a state: the interleaved stream in CW. -/
def withInterleavedCw (s : State) : State := { s with cw := s.cw.writeFrom 0 (interleave s.cfg (paddedBlocks s)) }

section Admitted

variable {s : State} (ha : s.cfg.Admitted)
include ha

theorem cwAt_of_column {i p : Nat} {v : Byte} (hi : i ≤ s.cfg.shortBlockLen)
    (h : (interleaveColumn s.cfg (paddedBlocks s) i)[p]? = some v) :
    cwAt (withInterleavedCw s) (i * s.cfg.numBlocks - (if s.cfg.shortDataLen < i then s.cfg.numShortBlocks else 0) + p) = v :=
  cwAt_writeFrom (length_interleave ha _) (getElem?_interleave hi h)

/-- The data bytes that every block has, column by column. -/
theorem cwAt_data {j k : Nat} (hj : j < s.cfg.numBlocks) (hk : k < s.cfg.shortDataLen) :
    cwAt (withInterleavedCw s) (k * s.cfg.numBlocks + j) = dataAt s (blockStart s.cfg j + k) := by
  have hlen : k < blockLen s.cfg j := by
    rw [blockLen]
    split <;> omega
  have h := cwAt_of_column ha (hk.le.trans (shortDataLen_le s.cfg)) (getElem?_interleaveColumn s.cfg (paddedBlocks s) hk.ne hj)
  rwa [if_neg (by omega), Nat.sub_zero, getD_paddedBlocks s hj, getD_paddedBlock_data s hlen] at h

/-- The last data bytes of the long blocks. -/
theorem cwAt_lastData {j : Nat} (hj : j < s.cfg.numBlocks) (hs : s.cfg.numShortBlocks ≤ j) :
    cwAt (withInterleavedCw s) (s.cfg.shortDataLen * s.cfg.numBlocks + (j - s.cfg.numShortBlocks)) =
      dataAt s (blockStart s.cfg j + s.cfg.shortDataLen) := by
  have hlen : s.cfg.shortDataLen < blockLen s.cfg j := by
    rw [blockLen, if_neg (Nat.not_lt.2 hs)]
    exact Nat.lt_succ_self _
  have h := cwAt_of_column ha (shortDataLen_le s.cfg) (getElem?_interleaveColumn_pad s.cfg (paddedBlocks s) hs hj)
  rwa [if_neg (Nat.lt_irrefl _), Nat.sub_zero, getD_paddedBlocks s hj, getD_paddedBlock_data s hlen] at h

/-- The ECC bytes, column by column, after the data. -/
theorem cwAt_ecc {j k : Nat} (hj : j < s.cfg.numBlocks) (hk : k < s.cfg.eccLen) :
    cwAt (withInterleavedCw s) (s.cfg.dataCodewords + k * s.cfg.numBlocks + j) = (blockEcc s j).getD k 0 := by
  have hcol : s.cfg.shortDataLen + 1 + k ≤ s.cfg.shortBlockLen := by
    obtain ⟨-, -, -, hpos, -⟩ := ha
    unfold Cfg.shortDataLen at *
    omega
  have hpos : (s.cfg.shortDataLen + 1 + k) * s.cfg.numBlocks - s.cfg.numShortBlocks =
      s.cfg.dataCodewords + k * s.cfg.numBlocks := by
    have hle := numShortBlocks_le s.cfg
    rw [dataCodewords_eq ha, Nat.add_mul, Nat.add_one_mul, Nat.mul_comm s.cfg.numBlocks]
    omega
  have h := cwAt_of_column ha hcol (getElem?_interleaveColumn s.cfg (paddedBlocks s) (by omega) hj)
  rwa [if_pos (by omega), hpos, getD_paddedBlocks s hj, getD_paddedBlock_ecc] at h

end Admitted

/-- ECC, accepted, writes the interleaved stream and enters ECCD (R262). -/
theorem exec_ecc {s : State} (ha : s.cfg.Admitted) (hp : s.phase = .func) (hd : s.dlen.toNat = s.cfg.dataCodewords) :
    exec .ecc s = .next { withInterleavedCw s with phase := .eccd, irq := true, busy := false } := by
  have hbody : bodyOf .ecc s = eccBody s := by simp [bodyOf, requirePhase, requireDataLength, hp, hd]
  rw [exec_eq_finish, hbody, eccBody_eq ha]
  rfl

/-- Settles O35, by where the interleaver puts the columns and what they take from the padded blocks. -/
theorem eccInterleavesTheBlocks : Obligations.EccInterleavesTheBlocks := fun _ ha hp hd =>
  ⟨_, exec_ecc ha hp hd, fun _ hj _ hk => cwAt_data ha hj hk, fun _ hj hs => cwAt_lastData ha hj hs,
    fun _ hj _ hk => cwAt_ecc ha hj hk, fun _ hi => if_neg (Nat.not_lt.2 hi)⟩

end Sys2Proof.Machine
end

section
/-! PROOF. The function patterns (R305 to R316): what DRAWFN leaves of each cell, and how many cells it leaves to data. -/

namespace Sys2Proof.Machine

/-! ### What each pattern draws -/

/-- If all calls at a cell agree on what is drawn there, drawing them leaves it so; a cell without a call stays (R301). -/
theorem modules_drawAll_of_agree {ws : List FnWrite} (h : InWindow ws) (p : Planes) {x y : Nat} {b : Bool}
    (hb : ∀ w ∈ ws, w.x = x → w.y = y → w.dark = b) :
    (drawAll ws p).modules.get y x = if (x, y) ∈ writtenCells ws then b else p.modules.get y x := by
  split
  · next hm =>
    rw [modules_drawAll ws p h]
    cases hf : ws.reverse.find? (FnWrite.at · y x) with
    | some w =>
      have hat := List.find?_some hf
      simp only [FnWrite.at, decide_eq_true_eq] at hat
      exact hb w (List.mem_reverse.1 (List.mem_of_find?_eq_some hf)) hat.2.symm hat.1.symm
    | none =>
      obtain ⟨w, hw, hx, hy⟩ := mem_writtenCells.1 hm
      exact absurd (List.find?_eq_none.1 hf w (List.mem_reverse.2 hw)) (by simp [FnWrite.at, hx, hy])
  · next hm => exact modules_drawAll_other h p fun w hw hc => hm (mem_writtenCells.2 ⟨w, hw, hc.2.symm, hc.1.symm⟩)

theorem dark_of_mem_timingWrites {size : Nat} {w : FnWrite} (h : w ∈ timingWrites size) :
    w.dark = if w.x = 6 then w.y % 2 == 0 else w.x % 2 == 0 := by
  simp only [timingWrites, List.mem_flatMap, List.mem_range, List.mem_cons, List.not_mem_nil, or_false] at h
  obtain ⟨i, -, rfl | rfl⟩ := h
  · rfl
  · dsimp only
    split
    · next hi => rw [hi]
    · rfl

theorem chebyshev_sub (x y cx cy : Nat) :
    chebyshev ((x : Int) - cx) ((y : Int) - cy) = max (Claims.dist x cx) (Claims.dist y cy) := by
  unfold chebyshev Claims.dist
  omega

theorem dark_of_mem_finderWrites {size : Nat} {centre : Nat × Nat} {w : FnWrite} (h : w ∈ finderWrites size centre) :
    w.dark = Claims.finderDark centre.1 centre.2 w.x w.y := by
  simp only [finderWrites, List.mem_flatMap, List.mem_filterMap, clippedWrite_eq_some] at h
  obtain ⟨dy, -, dx, -, -, -, rfl, rfl, hd⟩ := h
  rw [hd, chebyshev_sub, Claims.finderDark]

theorem dark_of_mem_alignmentWrites {size : Nat} {centre : Nat × Nat} {w : FnWrite} (h : w ∈ alignmentWrites size centre) :
    w.dark = (max (Claims.dist w.x centre.1) (Claims.dist w.y centre.2) != 1) := by
  simp only [alignmentWrites, List.mem_flatMap, List.mem_filterMap, clippedWrite_eq_some] at h
  obtain ⟨dy, -, dx, -, -, -, rfl, rfl, hd⟩ := h
  rw [hd, chebyshev_sub]

/-- The cells of copy 1, bit by bit: down column 8 past the timing row, then along row 8 past the timing column (R477). -/
theorem getElem_formatCopy1 : ∀ i (hi : i < formatCopy1.length),
    formatCopy1[i] = if i ≤ 5 then (8, i) else if i ≤ 7 then (8, i + 1) else if i = 8 then (7, 8) else (14 - i, 8) := by
  decide

theorem getElem_formatCopy2 {size i : Nat} (hi : i < (formatCopy2 size).length) :
    (formatCopy2 size)[i] = if i ≤ 7 then (size - 1 - i, 8) else (8, size - 15 + i) := by
  simp [formatCopy2]

/-! ### The patterns together (R314) -/

/-- What is drawn over the timing patterns: the finders, the alignment pattern and the format information (R305). -/
def overlayWrites (c : Cfg) (bits : BitVec 15) : List FnWrite :=
  (finderCentres c.size).flatMap (finderWrites c.size) ++ (alignmentCentres c).flatMap (alignmentWrites c.size) ++
    formatWrites c.size bits

theorem patternWrites_append_formatWrites (c : Cfg) (bits : BitVec 15) :
    patternWrites c ++ formatWrites c.size bits = timingWrites c.size ++ overlayWrites c bits := by
  simp only [patternWrites, overlayWrites, List.append_assoc]

section Admitted

variable {c : Cfg} (hc : c.Admitted) (bits : BitVec 15)
include hc

theorem dark_of_mem_finders {w : FnWrite} (h : w ∈ (finderCentres c.size).flatMap (finderWrites c.size)) :
    w.dark = Claims.functionDark c bits w.x w.y := by
  have hs := size_bounds hc
  obtain ⟨centre, hcentre, hw⟩ := List.mem_flatMap.1 h
  have hcell := (mem_writtenCells_finder centre).1 (mem_writtenCells.2 ⟨w, hw, rfl, rfl⟩)
  rw [dark_of_mem_finderWrites hw]
  simp only [finderCentres, List.mem_cons, List.not_mem_nil, or_false] at hcentre
  unfold Claims.functionDark
  rcases hcentre with rfl | rfl | rfl <;> grind

theorem dark_of_mem_alignment {w : FnWrite} (h : w ∈ (alignmentCentres c).flatMap (alignmentWrites c.size)) :
    w.dark = Claims.functionDark c bits w.x w.y := by
  have hs := size_bounds hc
  have hcell := (mem_writtenCells_alignment (by omega)).1 (mem_writtenCells.2 ⟨w, h, rfl, rfl⟩)
  obtain ⟨centre, hcentre, hw⟩ := List.mem_flatMap.1 h
  rw [alignmentCentres_eq, if_neg (by omega), List.mem_singleton] at hcentre
  rw [dark_of_mem_alignmentWrites hw, hcentre]
  unfold Claims.functionDark
  grind

theorem dark_of_mem_formatWrites {w : FnWrite} (h : w ∈ formatWrites c.size bits) :
    w.dark = Claims.functionDark c bits w.x w.y := by
  have hs := size_bounds hc
  unfold formatWrites at h
  simp only [List.mem_append, List.mem_mapIdx, List.mem_singleton] at h
  obtain (⟨i, hi, rfl⟩ | ⟨i, hi, rfl⟩) | rfl := h
  · have hi' : i < 15 := hi
    dsimp only
    rw [getElem_formatCopy1]
    split_ifs <;> unfold Claims.functionDark <;> grind
  · have hi' : i < 15 := by simpa [formatCopy2] using hi
    dsimp only
    rw [getElem_formatCopy2]
    split_ifs <;> unfold Claims.functionDark <;> grind
  · unfold Claims.functionDark
    grind

theorem dark_of_mem_overlay {w : FnWrite} (h : w ∈ overlayWrites c bits) : w.dark = Claims.functionDark c bits w.x w.y := by
  rw [overlayWrites, List.mem_append, List.mem_append] at h
  obtain (h | h) | h := h
  · exact dark_of_mem_finders hc bits h
  · exact dark_of_mem_alignment hc bits h
  · exact dark_of_mem_formatWrites hc bits h

/-- The timing modules that stay visible: those outside the finders (R314). -/
theorem dark_of_mem_timing_of_visible {w : FnWrite} (h : w ∈ timingWrites c.size)
    (hv : (w.x, w.y) ∉ writtenCells (overlayWrites c bits)) : w.dark = Claims.functionDark c bits w.x w.y := by
  have hs := size_bounds hc
  have hcell := mem_writtenCells_timing.1 (mem_writtenCells.2 ⟨w, h, rfl, rfl⟩)
  rw [overlayWrites, mem_writtenCells_append, mem_writtenCells_append, mem_writtenCells_finders (by omega)] at hv
  rw [dark_of_mem_timingWrites h]
  unfold Claims.functionDark
  grind

theorem mem_writtenCells_patterns {x y : Nat} (hx : x < c.size) (hy : y < c.size) :
    (x, y) ∈ writtenCells (patternWrites c ++ formatWrites c.size bits) ↔ Claims.functionCell c x y = true := by
  rw [← get_functionPatterns hc hx hy, get_functionPatterns_iff hc, mem_writtenCells_append, mem_writtenCells_append]
  simp only [writtenCells, formatWrites_cells]

/-- Drawing the patterns and then a format word leaves each function cell dark as its pattern says, and every other cell as
it was: only timing modules are drawn over (R314). -/
theorem modules_drawAll_patterns (p : Planes) {x y : Nat} (hx : x < c.size) (hy : y < c.size) :
    (drawAll (patternWrites c ++ formatWrites c.size bits) p).modules.get y x =
      if Claims.functionCell c x y then Claims.functionDark c bits x y else p.modules.get y x := by
  have hw : InWindow (patternWrites c ++ formatWrites c.size bits) := fun w hw =>
    (List.mem_append.1 hw).elim (patternWrites_inWindow hc w) (formatWrites_inWindow bits (size_bounds hc) w)
  have hmem := mem_writtenCells_patterns hc bits hx hy
  rw [patternWrites_append_formatWrites] at hw hmem ⊢
  have ht : InWindow (timingWrites c.size) := fun w h => hw w (List.mem_append_left _ h)
  have ho : InWindow (overlayWrites c bits) := fun w h => hw w (List.mem_append_right _ h)
  have hover : ∀ w ∈ overlayWrites c bits, w.x = x → w.y = y → w.dark = Claims.functionDark c bits x y := by
    rintro w h rfl rfl
    exact dark_of_mem_overlay hc bits h
  rw [mem_writtenCells_append] at hmem
  rw [drawAll_append, modules_drawAll_of_agree ho _ hover]
  by_cases hv : (x, y) ∈ writtenCells (overlayWrites c bits)
  · rw [if_pos hv, if_pos (hmem.1 (.inr hv))]
  · have htiming : ∀ w ∈ timingWrites c.size, w.x = x → w.y = y → w.dark = Claims.functionDark c bits x y := by
      rintro w h rfl rfl
      exact dark_of_mem_timing_of_visible hc bits h hv
    rw [if_neg hv, modules_drawAll_of_agree ht p htiming]
    simp only [← hmem, hv, or_false]

end Admitted

/-! ### DRAWFN, and the data cells it leaves -/

/-- DRAWFN, accepted, draws the patterns and then the placeholder format word, and enters FUNC (R305). -/
theorem exec_drawfn {s : State} (hp : s.phase = .init) :
    exec .drawfn s = .next { s with
      modPlane := (drawfnBody s).modPlane, fnPlane := (drawfnBody s).fnPlane, fmt := formatWord s.cfg.ecl 0, phase := .func,
      irq := true, busy := false } := by
  rw [exec_eq_finish, bodyOf, requirePhase_pos (by rw [hp]; exact List.mem_singleton_self _)]
  rfl

theorem modPlane_drawfnBody (s : State) :
    (drawfnBody s).modPlane =
      (drawAll (patternWrites s.cfg ++ formatWrites s.cfg.size (formatWord s.cfg.ecl 0)) (planesOf s)).modules := by
  rw [drawAll_append]
  rfl

/-- Settles O37: the function plane was light, and each cell of the module plane is what the last pattern there drew. -/
theorem drawfnDrawsTheFunctionPatterns : Obligations.DrawfnDrawsTheFunctionPatterns := by
  rintro s ⟨hc, -, -, -, ⟨hlight, -⟩, -⟩ hp
  refine ⟨_, _, exec_drawfn hp, fun y hy x hx => ⟨?_, ?_⟩⟩
  · rw [fnPlane_drawfnBody (hlight hp), get_functionPatterns hc hx hy]
  · have hmod : modAt s y x = s.modPlane.get y x := by simp [modAt, hx, hy]
    rw [modPlane_drawfnBody, modules_drawAll_patterns hc _ _ hx hy, hmod]
    rfl

/-- R316's count at each size: the cells outside the regions of R315. -/
theorem sum_dataCells_ofVersion : ∀ v ∈ [1, 2, 3, 4, 5, 6],
    let c := { Cfg.ref with version := v }
    ((List.range c.size).map fun y => ((List.range c.size).filter fun x => !Claims.functionCell c x y).length).sum =
      c.rawDataModules := by
  decide +kernel

/-- Settles O38, version by version. -/
theorem dataCellCountsPerVersion : Obligations.DataCellCountsPerVersion := by
  intro c h1 h6
  refine ⟨sum_dataCells_ofVersion c.version (by simp only [List.mem_cons, List.not_mem_nil, or_false]; omega), ?_⟩
  unfold Cfg.rawCodewords Cfg.remainderBits Cfg.rawDataModules Cfg.size
  generalize c.version = v at h1 h6
  interval_cases v <;> decide

end Sys2Proof.Machine
end

section
/-! PROOF. The zig-zag scan (R352 to R355): its strips, their directions, and the cells in order. -/

namespace Sys2Proof.Machine

/-! ### The strips -/

/-- From an even column 6 or more, with a strip for each pair of columns left, the loop goes down by twos, past
column 6. -/
theorem stripsFrom_even {k n : Nat} (hk : 3 ≤ k) (hn : k ≤ n) :
    stripsFrom n (2 * k) = ((List.range (k - 3)).map fun i => 2 * k - 2 * i) ++ [5, 3, 1] := by
  induction k, hk using Nat.le_induction generalizing n with
  | base =>
    obtain ⟨n, rfl⟩ := Nat.exists_eq_add_of_le' hn
    cases n <;> simp [stripsFrom]
  | succ k hk ih =>
    obtain ⟨n, rfl⟩ := Nat.exists_eq_add_of_le' (Nat.le_of_add_left_le hn)
    have hstep : stripsFrom (n + 1) (2 * (k + 1)) = 2 * (k + 1) :: stripsFrom n (2 * k) := by
      rw [stripsFrom, if_neg (by omega), if_neg (by omega)]
      rfl
    rw [hstep, ih (Nat.le_of_succ_le_succ hn), Nat.sub_add_comm hk, List.range_succ_eq_map]
    simp [Function.comp_def, Nat.mul_add, Nat.add_sub_add_right]

/-- The strips of a matrix of odd size (R352). -/
theorem strips_odd {k : Nat} (hk : 3 ≤ k) :
    strips (2 * k + 1) = ((List.range (k - 3)).map fun i => 2 * k - 2 * i) ++ [5, 3, 1] :=
  stripsFrom_even hk (by omega)

/-- The strips take the pairs of columns one by one from right to left, the move past column 6 being within a pair. -/
theorem half_add_index_of_stripsFrom {n right i r : Nat} (h : (stripsFrom n right)[i]? = some r) :
    (r + 1) / 2 + i = (right + 1) / 2 := by
  induction n generalizing right i with
  | zero => simp [stripsFrom] at h
  | succ n ih =>
    rw [stripsFrom] at h
    split at h
    · simp at h
    · have hhalf : ((if right = 6 then 5 else right) + 1) / 2 = (right + 1) / 2 := by split <;> omega
      cases i with
      | zero =>
        obtain rfl : (if right = 6 then 5 else right) = r := Option.some.inj h
        exact hhalf
      | succ i =>
        have hnext := ih h
        have hbounds := mem_stripsFrom (List.mem_of_getElem? h)
        omega

theorem mem_strips {k r : Nat} (hk : 3 ≤ k) :
    r ∈ strips (2 * k + 1) ↔ r = 1 ∨ r = 3 ∨ r = 5 ∨ (8 ≤ r ∧ r ≤ 2 * k ∧ r % 2 = 0) := by
  simp only [strips_odd hk, List.mem_append, List.mem_map, List.mem_range, List.mem_cons, List.not_mem_nil, or_false]
  constructor
  · rintro (⟨i, hi, rfl⟩ | h) <;> omega
  · rintro (h | h | h | h)
    · omega
    · omega
    · omega
    · exact .inl ⟨k - r / 2, by omega, by omega⟩

/-- Each strip lies left of the one before it. -/
theorem pairwise_stripsFrom (n right : Nat) : (stripsFrom n right).Pairwise fun a b => b + 2 ≤ a := by
  induction n generalizing right with
  | zero => simp [stripsFrom]
  | succ n ih =>
    rw [stripsFrom]
    split
    · exact .nil
    · refine .cons (fun b hb => ?_) (ih _)
      have hbounds := mem_stripsFrom hb
      omega

/-- The direction is the parity of the pair of columns (R354). -/
theorem scansUpward_iff (right : Nat) : scansUpward right = true ↔ (right + 1) / 2 % 2 = 0 := by
  have h : (right + 1) &&& 2 = ((right + 1).testBit 1).toNat * 2 := Nat.and_two_pow (right + 1) 1
  rw [scansUpward, h, Nat.testBit_eq_decide_div_mod_eq]
  simp

/-! ### The cells of the scan -/

/-- In a concatenation of lists of one length `m` the `i`-th begins at `m · i`. -/
theorem getElem?_flatMap_of_length {α β : Type} {f : α → List β} {m p : Nat} (hf : ∀ a, (f a).length = m) (hp : p < m)
    {l : List α} {i : Nat} {a : α} (h : l[i]? = some a) : (l.flatMap f)[m * i + p]? = (f a)[p]? := by
  induction l generalizing i with
  | nil => simp at h
  | cons b l ih =>
    cases i with
    | zero =>
      obtain rfl : b = a := by simpa using h
      simp [List.getElem?_append, hf, hp]
    | succ i =>
      have hle : (f b).length ≤ m * i + p + m := hf b ▸ Nat.le_add_left _ _
      rw [List.flatMap_cons, Nat.mul_succ, Nat.add_right_comm, List.getElem?_append_right hle, hf b, Nat.add_sub_cancel]
      exact ih h

@[simp] theorem length_stripCells (size right : Nat) : (stripCells size right).length = 2 * size := by
  simp [stripCells, List.length_flatMap, Nat.mul_comm]

theorem length_scanCells (size : Nat) : (scanCells size).length = 2 * size * (strips size).length := by
  simp [scanCells, List.length_flatMap, Nat.mul_comm]

/-- The two cells of a vertical step of a strip (R355). -/
theorem getElem?_stripCells {size v j : Nat} (right : Nat) (hv : v < size) (hj : j < 2) :
    (stripCells size right)[2 * v + j]? = some (right - j, if scansUpward right then size - 1 - v else v) := by
  rw [stripCells, getElem?_flatMap_of_length (m := 2) (fun _ => rfl) hj (List.getElem?_range hv)]
  interval_cases j <;> rfl

theorem getElem?_scanCells {size i r v j : Nat} (hr : (strips size)[i]? = some r) (hv : v < size) (hj : j < 2) :
    (scanCells size)[2 * size * i + 2 * v + j]? = some (r - j, if scansUpward r then size - 1 - v else v) := by
  rw [scanCells, Nat.add_assoc, getElem?_flatMap_of_length (length_stripCells size) (by omega) hr,
    getElem?_stripCells r hv hj]

theorem mem_stripCells {size right x y : Nat} :
    (x, y) ∈ stripCells size right ↔ y < size ∧ (x = right ∨ x = right - 1) := by
  simp only [stripCells, List.mem_flatMap, List.mem_range, List.mem_cons, List.not_mem_nil, or_false, Prod.mk.injEq,
    ← or_and_right]
  constructor
  · rintro ⟨v, hv, hx, rfl⟩
    exact ⟨by split <;> omega, hx⟩
  · rintro ⟨hy, hx⟩
    exact ⟨if scansUpward right then size - 1 - y else y, by split <;> omega, hx, by split <;> omega⟩

theorem nodup_stripCells (size : Nat) {right : Nat} (h : 1 ≤ right) : (stripCells size right).Nodup := by
  rw [stripCells, List.nodup_flatMap]
  have hcol : right ≠ right - 1 := by omega
  refine ⟨fun v _ => by simp [hcol], List.pairwise_lt_range.imp_of_mem fun {v w} hv hw hvw => ?_⟩
  rw [List.mem_range] at hv hw
  have hrow : (if scansUpward right then size - 1 - w else w) ≠ if scansUpward right then size - 1 - v else v := by
    split <;> omega
  simp [Function.onFun, hrow]

theorem nodup_scanCells (size : Nat) : (scanCells size).Nodup := by
  rw [scanCells, List.nodup_flatMap]
  refine ⟨fun r hr => nodup_stripCells size (mem_stripsFrom hr).1, (pairwise_stripsFrom _ _).imp fun {a b} hab => ?_⟩
  rintro ⟨x, y⟩ ha hb
  rw [mem_stripCells] at ha hb
  omega

/-- The scan leaves out column 6 only (R352, R355). -/
theorem mem_scanCells_iff {k x y : Nat} (hk : 4 ≤ k) (hx : x < 2 * k + 1) (hy : y < 2 * k + 1) :
    (x, y) ∈ scanCells (2 * k + 1) ↔ x ≠ 6 := by
  simp only [scanCells, List.mem_flatMap, mem_stripCells, mem_strips (by omega : 3 ≤ k)]
  constructor
  · omega
  · intro h6
    exact ⟨if x < 6 then 2 * (x / 2) + 1 else 2 * ((x + 1) / 2), by split <;> omega, hy, by split <;> omega⟩

/-- Settles O41: the pair of columns a strip takes gives its place and its direction; the cells follow strip by strip. -/
theorem scanVisitsEveryCellOnce : Obligations.ScanVisitsEveryCellOnce := by
  intro c h1 h6
  obtain ⟨k, hsize, hk, heven⟩ : ∃ k, c.size = 2 * k + 1 ∧ 4 ≤ k ∧ k % 2 = 0 :=
    ⟨2 * c.version + 8, by unfold Cfg.size; omega, by omega, by omega⟩
  have hstrips := strips_odd (k := k) (by omega)
  rw [hsize]
  have hlen : (strips (2 * k + 1)).length = (2 * k + 1 - 1) / 2 := by
    simp only [hstrips, List.length_append, List.length_map, List.length_range, List.length_cons, List.length_nil]
    omega
  refine ⟨?_, hlen, fun i r hr => ?_, by rw [length_scanCells, hlen], nodup_scanCells _,
    fun x hx y hy => mem_scanCells_iff hk hx hy, fun _ => mem_scanCells⟩
  · rw [hstrips, show (2 * k + 1 - 7) / 2 = k - 3 by omega, Nat.add_sub_cancel]
  · have hup : scansUpward r = true ↔ i % 2 = 0 := by
      have hhalf := half_add_index_of_stripsFrom hr
      rw [scansUpward_iff]
      omega
    refine ⟨by rw [← hup, scansUpward, beq_iff_eq], fun v hv j hj => ?_⟩
    rw [getElem?_scanCells hr hv hj]
    simp only [hup]

end Sys2Proof.Machine
end

section
/-! PROOF. PLACE (R351, R353, R356, R357): which cell takes which bit of the codeword stream, and what is not written. -/

namespace Sys2Proof.Machine

/-! ### One visit -/

section Visit

variable {s : State} {limit : Nat} {sc : Scan} {cell : Nat × Nat}

theorem placeCell_of_function (h : s.fnPlane.get cell.2 cell.1 = true) : placeCell s limit sc cell = sc :=
  if_neg fun hd => Bool.false_ne_true (hd.1.symm.trans h)

theorem placeCell_of_full (h : limit ≤ sc.index) : placeCell s limit sc cell = sc :=
  if_neg fun hd => Nat.not_lt.2 h hd.2

theorem placeCell_of_data (h : s.fnPlane.get cell.2 cell.1 = false) (hi : sc.index < limit) :
    placeCell s limit sc cell = { modules := sc.modules.set cell.2 cell.1 (streamBit s sc.index), index := sc.index + 1 } :=
  if_pos ⟨h, hi⟩

end Visit

/-! ### The bits along a list of cells -/

/-- Function cells take no part in the scan (R356). -/
theorem foldl_placeCell_filter (s : State) (limit : Nat) (cells : List (Nat × Nat)) (sc : Scan) :
    cells.foldl (placeCell s limit) sc =
      (cells.filter fun cell => !s.fnPlane.get cell.2 cell.1).foldl (placeCell s limit) sc := by
  rw [List.foldl_filter]
  refine List.foldl_ext _ _ _ fun sc cell _ => ?_
  cases h : s.fnPlane.get cell.2 cell.1
  · rfl
  · exact placeCell_of_function h

section Scan

variable {s : State} {limit : Nat} {cells : List (Nat × Nat)}
  (hd : ∀ cell ∈ cells, s.fnPlane.get cell.2 cell.1 = false) (hw : ∀ cell ∈ cells, cell.2 < 64 ∧ cell.1 < 64)
include hd hw

/-- The bits go to as many cells as the limit leaves, and no other cell is written (R356, R357). -/
theorem get_foldl_placeCell_of_not_mem {sc : Scan} {x y : Nat} (h : (x, y) ∉ cells.take (limit - sc.index)) :
    (cells.foldl (placeCell s limit) sc).modules.get y x = sc.modules.get y x := by
  induction cells generalizing sc with
  | nil => rfl
  | cons cell cells ih =>
    obtain ⟨hdata, hds⟩ := List.forall_mem_cons.1 hd
    obtain ⟨⟨hrow, hcol⟩, hws⟩ := List.forall_mem_cons.1 hw
    rw [List.foldl_cons]
    by_cases hi : sc.index < limit
    · rw [show limit - sc.index = limit - (sc.index + 1) + 1 by omega, List.take_succ_cons, List.mem_cons, not_or] at h
      obtain ⟨hne, hrest⟩ := h
      rw [placeCell_of_data hdata hi, ih hds hws hrest, get_set _ _ _ _ hrow hcol, if_neg]
      rintro ⟨rfl, rfl⟩
      exact hne rfl
    · rw [placeCell_of_full (Nat.le_of_not_lt hi)]
      exact ih hds hws (by simp [show limit - sc.index = 0 by omega])

/-- The `k`-th of different data cells takes the `k`-th bit from the scan's index on (R353, R356). -/
theorem get_foldl_placeCell_of_getElem? {sc : Scan} {k x y : Nat} (hn : cells.Nodup) (h : cells[k]? = some (x, y))
    (hk : sc.index + k < limit) :
    (cells.foldl (placeCell s limit) sc).modules.get y x = streamBit s (sc.index + k) := by
  induction cells generalizing sc k with
  | nil => simp at h
  | cons cell cells ih =>
    obtain ⟨hdata, hds⟩ := List.forall_mem_cons.1 hd
    obtain ⟨⟨hrow, hcol⟩, hws⟩ := List.forall_mem_cons.1 hw
    obtain ⟨hfresh, hns⟩ := List.nodup_cons.1 hn
    rw [List.foldl_cons, placeCell_of_data hdata (by omega)]
    cases k with
    | zero =>
      obtain rfl : cell = (x, y) := by simpa using h
      rw [get_foldl_placeCell_of_not_mem hds hws fun hm => hfresh (List.mem_of_mem_take hm), get_set _ _ _ _ hrow hcol,
        if_pos ⟨rfl, rfl⟩]
      rfl
    | succ k =>
      rw [ih hds hws hns h (by simp only; omega), Nat.add_assoc, Nat.add_comm 1 k]

end Scan

/-! ### PLACE -/

section Place

variable {s : State} (hc : s.cfg.Admitted) (hf : s.fnPlane = (functionPatterns s.cfg).functions)
include hc hf

/-- Once the patterns are drawn the cells outside the function plane are those of R315. -/
theorem dataCells_eq_filter :
    Claims.dataCells s.cfg = (scanCells s.cfg.size).filter fun cell => !s.fnPlane.get cell.2 cell.1 :=
  List.filter_congr fun cell hcell => by
    obtain ⟨hx, hy⟩ := mem_scanCells hcell
    rw [hf, get_functionPatterns hc hx hy]

/-- The scan is a pass over the data cells (R351). -/
theorem placeScan_eq_foldl_dataCells : placeScan s =
    (Claims.dataCells s.cfg).foldl (placeCell s (s.cfg.rawCodewords * 8)) { modules := s.modPlane, index := 0 } := by
  rw [dataCells_eq_filter hc hf, ← foldl_placeCell_filter, placeScan]

theorem fnPlane_of_mem_dataCells {cell : Nat × Nat} (h : cell ∈ Claims.dataCells s.cfg) :
    s.fnPlane.get cell.2 cell.1 = false := by
  rw [dataCells_eq_filter hc hf] at h
  simpa using (List.mem_filter.1 h).2

/-- PLACE, accepted, enters PLACED with the modules of the scan and every bit counted (R351, R357). -/
theorem exec_place (hp : s.phase = .eccd) :
    exec .place s = .next { s with
      modPlane := (placeScan s).modules, bits := BitVec.ofNat 16 (8 * s.cfg.rawCodewords), phase := .placed, irq := true,
      busy := false } := by
  rw [exec_eq_finish, bodyOf, requirePhase_pos (by rw [hp]; exact List.mem_singleton_self _), placeBody_eq hc hf,
    index_placeScan hc hf, Nat.mul_comm]
  rfl

end Place

theorem inWindow_of_mem_dataCells {c : Cfg} (hc : c.Admitted) {cell : Nat × Nat} (h : cell ∈ Claims.dataCells c) :
    cell.2 < 64 ∧ cell.1 < 64 := by
  have hs := size_bounds hc
  have hcell := mem_scanCells (List.mem_filter.1 h).1
  omega

/-- Settles O42: PLACE is a pass over the data cells, all different, that writes the first `8 · RAW_CODEWORDS` of them. -/
theorem placeWritesTheCodewordBits : Obligations.PlaceWritesTheCodewordBits := by
  rintro s ⟨hc, -, -, -, ⟨-, hf⟩, -⟩ hp
  replace hf := hf (by rw [hp]; rfl)
  have hd : ∀ cell ∈ Claims.dataCells s.cfg, s.fnPlane.get cell.2 cell.1 = false := fun _ => fnPlane_of_mem_dataCells hc hf
  have hw : ∀ cell ∈ Claims.dataCells s.cfg, cell.2 < 64 ∧ cell.1 < 64 := fun _ => inWindow_of_mem_dataCells hc
  refine ⟨_, exec_place hc hf hp, ?_, fun k hk x y hcell => ?_, fun x hx y hy hcell => ?_⟩
  · rw [length_dataCells hc]
    exact Nat.div_add_mod _ _
  · rw [placeScan_eq_foldl_dataCells hc hf, get_foldl_placeCell_of_getElem? hd hw ((nodup_scanCells _).filter _) hcell
      (by simp only; omega), Nat.zero_add, streamBit]
  · rw [placeScan_eq_foldl_dataCells hc hf, get_foldl_placeCell_of_not_mem hd hw (by rwa [Nat.mul_comm])]
    simp [modAt, hx, hy]

end Sys2Proof.Machine
end

section
/-! PROOF. The mask predicates and `applyMask` (R381 to R384). -/

namespace Sys2Proof.Machine

/-! ### The predicates -/

/-- A product's residue is fixed by residues of its factors to multiples of the modulus. -/
theorem mod_mul_mod {m n k : Nat} (hm : k ∣ m) (hn : k ∣ n) (x y : Nat) : x % m * (y % n) % k = x * y % k :=
  ((Nat.mod_modEq x m).of_dvd hm).mul ((Nat.mod_modEq y n).of_dvd hn)

/-- Every predicate is fixed by the column modulo 6 and the row modulo 12. -/
theorem maskPred_mod (m : BitVec 3) (x y : Nat) : maskPred m (x % 6) (y % 12) = maskPred m x y := by
  have hsum2 : (x % 6 + y % 12) % 2 = (x + y) % 2 := by omega
  have hsum3 : (x % 6 + y % 12) % 3 = (x + y) % 3 := by omega
  have hy2 : y % 12 % 2 = y % 2 := by omega
  have hx3 : x % 6 % 3 = x % 3 := by omega
  have hdiv : (x % 6 / 3 + y % 12 / 2) % 2 = (x / 3 + y / 2) % 2 := by omega
  have hmul2 : x % 6 * (y % 12) % 2 = x * y % 2 := mod_mul_mod (by decide) (by decide) x y
  have hmul3 : x % 6 * (y % 12) % 3 = x * y % 3 := mod_mul_mod (by decide) (by decide) x y
  unfold maskPred
  rw [hsum2, hsum3, hy2, hx3, hdiv, hmul2, hmul3]

/-! The periods within one tile of 6 columns and 12 rows -/

theorem maskPred_tile_rows : ∀ m : BitVec 3, ∀ x < 6, ∀ y < 12,
    (m ≠ 4 → maskPred m x ((y + 6) % 12) = maskPred m x y) ∧ (m = 4 → maskPred m x ((y + 4) % 12) = maskPred m x y) := by
  decide +kernel

theorem maskPred_tile_period_two : ∀ m : BitVec 3, ∀ x < 6, ∀ y < 12, m = 0 ∨ m = 1 →
    maskPred m ((x + 2) % 6) y = maskPred m x y ∧ maskPred m x ((y + 2) % 12) = maskPred m x y := by
  decide +kernel

theorem maskPred_tile_period_three : ∀ m : BitVec 3, ∀ x < 6, ∀ y < 12, m = 2 ∨ m = 3 →
    maskPred m ((x + 3) % 6) y = maskPred m x y ∧ maskPred m x ((y + 3) % 12) = maskPred m x y := by
  decide +kernel

/-- Settles O44: the tiles by evaluation; a predicate is fixed within one tile, which shows its periods. -/
theorem maskPredicateTiles : Obligations.MaskPredicateTiles := by
  refine ⟨by decide +kernel, fun x y => ?_⟩
  have hx : x % 6 < 6 := Nat.mod_lt x (by decide)
  have hy : y % 12 < 12 := Nat.mod_lt y (by decide)
  have hrows := fun m => maskPred_tile_rows m (x % 6) hx (y % 12) hy
  have htwo := fun m => maskPred_tile_period_two m (x % 6) hx (y % 12) hy
  have hthree := fun m => maskPred_tile_period_three m (x % 6) hx (y % 12) hy
  simp only [Nat.mod_add_mod, maskPred_mod] at hrows htwo hthree
  refine ⟨fun m => ⟨?_, (hrows m).1⟩, htwo, hthree, (hrows 4).2 rfl⟩
  rw [← maskPred_mod m (x + 6), Nat.add_mod_right, maskPred_mod]

/-! ### `applyMask` -/

/-- The cells after a mask: the data cells of the matrix where the predicate holds are inverted (R383). -/
theorem get_maskPlane (m : BitVec 3) {size : Nat} (h : size ≤ 64) (functions modules : Plane) (y x : Nat) :
    (maskPlane m size functions modules).get y x =
      (modules.get y x ^^ (decide (y < size ∧ x < size) && (maskPred m x y && !functions.get y x))) := by
  by_cases hy : y < size
  · unfold maskPlane
    rw [get_ofRows _ _ (hy.trans_le h), if_pos hy, BitVec.getLsbD_xor, maskRow, getLsbD_bitsOf, ← Plane.get]
    by_cases hx : x < size
    · have hx64 : x < 64 := hx.trans_le h
      simp only [hy, hx, hx64, and_self]
    · simp [hx]
  · by_cases hy64 : y < 64
    · unfold maskPlane
      rw [get_ofRows _ _ hy64, if_neg hy]
      simp [hy, Plane.get]
    · rw [get_of_ge _ (.inl (Nat.le_of_not_lt hy64)), get_of_ge _ (.inl (Nat.le_of_not_lt hy64))]
      simp [hy]

theorem maskPlane_maskPlane (m : BitVec 3) {size : Nat} (h : size ≤ 64) (functions modules : Plane) :
    maskPlane m size functions (maskPlane m size functions modules) = modules :=
  plane_ext fun y _ x _ => by rw [get_maskPlane m h, get_maskPlane m h, Bool.xor_assoc, Bool.xor_self, Bool.xor_false]

theorem size_le_of_admitted {c : Cfg} (h : c.Admitted) : c.size ≤ 64 := by
  have := size_bounds h
  omega

theorem applyMask_applyMask (m : BitVec 3) {s : State} (h : s.cfg.Admitted) : applyMask m (applyMask m s) = s := by
  unfold applyMask
  simp only [maskPlane_maskPlane m (size_le_of_admitted h)]

/-- In the matrix `modAt` and `fnAt` are the cells of the planes. -/
theorem modAt_of_lt {s : State} {y x : Nat} (hy : y < s.cfg.size) (hx : x < s.cfg.size) : modAt s y x = s.modPlane.get y x := by
  simp [modAt, hy, hx]

theorem fnAt_of_lt {s : State} {y x : Nat} (hy : y < s.cfg.size) (hx : x < s.cfg.size) : fnAt s y x = s.fnPlane.get y x := by
  simp [fnAt, hy, hx]

/-- The cell of the matrix at column `x` of row `y` after a mask (R383). -/
theorem get_modPlane_applyMask (m : BitVec 3) {s : State} (h : s.cfg.Admitted) {y x : Nat} (hy : y < s.cfg.size)
    (hx : x < s.cfg.size) :
    (applyMask m s).modPlane.get y x = (s.modPlane.get y x ^^ (maskPred m x y && !s.fnPlane.get y x)) := by
  rw [applyMask_modPlane, get_maskPlane m (size_le_of_admitted h)]
  simp [hy, hx]

/-- Settles O43, cell by cell; the second XOR undoes the first. -/
theorem maskIsSelfInverse : Obligations.MaskIsSelfInverse := by
  refine fun m s ha => ⟨rfl, fun y hy x hx => ?_, applyMask_applyMask m ha⟩
  rw [modAt_of_lt (s := applyMask m s) hy hx, modAt_of_lt hy hx, fnAt_of_lt hy hx, get_modPlane_applyMask m ha hy hx]

end Sys2Proof.Machine
end

section
/-! PROOF. BEST (R387): a result of lower rank wins, whatever the order. -/

namespace Sys2Proof.Machine

/-- The place of a result in the order of R387: by its penalty, and of equal ones by the mask index. -/
def resultRank (m : BitVec 3) (p : Word) : Nat := 8 * p.toNat + m.toNat

theorem resultRank_lt_iff {m n : BitVec 3} {p q : Word} : resultRank m p < resultRank n q ↔ p < q ∨ (p = q ∧ m < n) := by
  have hm := m.isLt
  have hn := n.isLt
  rw [resultRank, resultRank, BitVec.lt_def, BitVec.lt_def, ← BitVec.toNat_inj]
  omega

theorem resultRank_inj {m n : BitVec 3} {p q : Word} (h : resultRank m p = resultRank n q) : m = n ∧ p = q := by
  have hm := m.isLt
  have hn := n.isLt
  rw [resultRank, resultRank] at h
  exact ⟨BitVec.eq_of_toNat_eq (by omega), BitVec.eq_of_toNat_eq (by omega)⟩

/-- The state with this result in BEST. -/
def State.withBest (s : State) (m : BitVec 3) (p : Word) : State := { s with best := m, bestValid := true, bestPen := p }

/-- A result goes into BEST if BEST holds none or one of higher rank. -/
theorem updateBest_eq_ite (m : BitVec 3) (p : Word) (s : State) :
    updateBest m p s =
      if s.bestValid = false ∨ resultRank m p < resultRank s.best s.bestPen then s.withBest m p else s := by
  simp only [resultRank_lt_iff]
  rfl

theorem updateBest_of_lt {m : BitVec 3} {p : Word} {s : State}
    (h : s.bestValid = false ∨ resultRank m p < resultRank s.best s.bestPen) : updateBest m p s = s.withBest m p := by
  rw [updateBest_eq_ite, if_pos h]

theorem updateBest_of_le {m : BitVec 3} {p : Word} {s : State} (hv : s.bestValid = true)
    (h : resultRank s.best s.bestPen ≤ resultRank m p) : updateBest m p s = s := by
  rw [updateBest_eq_ite, if_neg (by simp [hv, h])]

/-- The result taken in is in BEST and ranks below the old one, or the old one is and does not rank above it. -/
theorem updateBest_cases (m : BitVec 3) (p : Word) (s : State) :
    ((updateBest m p s).best = m ∧ (updateBest m p s).bestPen = p ∧
        (s.bestValid = false ∨ resultRank m p < resultRank s.best s.bestPen)) ∨
      ((updateBest m p s).best = s.best ∧ (updateBest m p s).bestPen = s.bestPen ∧ s.bestValid = true ∧
        resultRank s.best s.bestPen ≤ resultRank m p) := by
  by_cases h : s.bestValid = false ∨ resultRank m p < resultRank s.best s.bestPen
  · rw [updateBest_of_lt h]
    exact .inl ⟨rfl, rfl, h⟩
  · obtain ⟨hv, hle⟩ : s.bestValid = true ∧ resultRank s.best s.bestPen ≤ resultRank m p := by simpa using h
    rw [updateBest_of_le hv hle]
    exact .inr ⟨rfl, rfl, hv, hle⟩

/-- A result taken in leaves in BEST a result of no higher rank. -/
theorem resultRank_updateBest_le (m : BitVec 3) (p : Word) (s : State) :
    resultRank (updateBest m p s).best (updateBest m p s).bestPen ≤ resultRank m p := by
  rcases updateBest_cases m p s with ⟨e, ep, -⟩ | ⟨e, ep, -, hle⟩ <;> rw [e, ep]
  exact hle

theorem resultRank_updateBest_le_old (m : BitVec 3) (p : Word) {s : State} (hv : s.bestValid = true) :
    resultRank (updateBest m p s).best (updateBest m p s).bestPen ≤ resultRank s.best s.bestPen := by
  rcases updateBest_cases m p s with ⟨e, ep, hnew⟩ | ⟨e, ep, -⟩ <;> rw [e, ep]
  exact (hnew.resolve_left (by simp [hv])).le

/-- What is left in BEST depends on what was there only. -/
theorem updateBest_congr {s u : State} (m : BitVec 3) (p : Word) (hv : u.bestValid = s.bestValid) (hb : u.best = s.best)
    (hp : u.bestPen = s.bestPen) :
    (updateBest m p u).best = (updateBest m p s).best ∧ (updateBest m p u).bestPen = (updateBest m p s).bestPen := by
  simp only [updateBest_eq, hv, hb, hp, and_self]

/-- A result leaves no trace beside one of lower rank, before it or after it. -/
theorem updateBest_absorbs {m n : BitVec 3} {p q : Word} (h : resultRank m p ≤ resultRank n q) (s : State) :
    updateBest n q (updateBest m p s) = updateBest m p s ∧ updateBest m p (updateBest n q s) = updateBest m p s := by
  refine ⟨updateBest_of_le (updateBest_bestValid m p s) ((resultRank_updateBest_le m p s).trans h), ?_⟩
  by_cases hn : s.bestValid = false ∨ resultRank n q < resultRank s.best s.bestPen
  · have hm : s.bestValid = false ∨ resultRank m p < resultRank s.best s.bestPen := hn.imp_right h.trans_lt
    rw [updateBest_of_lt hn, updateBest_of_lt hm]
    rcases h.lt_or_eq with hlt | heq
    · exact updateBest_of_lt (s := s.withBest n q) (.inr hlt)
    · obtain ⟨rfl, rfl⟩ := resultRank_inj heq
      exact updateBest_of_le (s := s.withBest m p) rfl (Nat.le_refl _)
  · rw [updateBest_eq_ite n q, if_neg hn]

/-- Settles O46: of two results the one of lower rank absorbs the other in either order. -/
theorem bestDoesNotDependOnTheOrderOfTrials : Obligations.BestDoesNotDependOnTheOrderOfTrials := by
  intro m n p q s
  rcases Nat.le_total (resultRank m p) (resultRank n q) with h | h
  · obtain ⟨hnm, hmn⟩ := updateBest_absorbs h s
    rw [hnm, hmn]
  · obtain ⟨hmn, hnm⟩ := updateBest_absorbs h s
    rw [hnm, hmn]

end Sys2Proof.Machine
end

section
/-! PROOF. `draw_format` (R476 to R479) by its cells, and beside a mask: the two write different cells. -/

namespace Sys2Proof.Machine

/-! ### The cells of `draw_format` -/

/-- The call that draws a format cell. -/
theorem mem_formatWrites_of_holdsFormatBit {c : Cfg} {i x y : Nat} (bits : BitVec 15) (h : Claims.holdsFormatBit c i x y) :
    ⟨x, y, bits.getLsbD i⟩ ∈ formatWrites c.size bits := by
  unfold formatWrites
  rw [List.mem_append, List.mem_append]
  refine .inl (h.imp (fun h1 => ?_) fun h2 => ?_)
  · exact List.mem_of_getElem? (i := i) (by rw [List.getElem?_mapIdx, h1]; rfl)
  · exact List.mem_of_getElem? (i := i) (by rw [List.getElem?_mapIdx, h2]; rfl)

/-- The last call draws the dark module (R479). -/
theorem mem_formatWrites_darkModule (size : Nat) (bits : BitVec 15) : ⟨8, size - 8, true⟩ ∈ formatWrites size bits := by
  unfold formatWrites
  exact List.mem_append_right _ (List.mem_singleton_self _)

/-- `draw_format` writes the format cells and the dark module, whatever the word (R476, R478). -/
theorem mem_writtenCells_formatWrites_iff {c : Cfg} (bits : BitVec 15) {x y : Nat} :
    (x, y) ∈ writtenCells (formatWrites c.size bits) ↔ Claims.formatCell c x y := by
  have hlen1 : formatCopy1.length = 15 := rfl
  have hlen2 : (formatCopy2 c.size).length = 15 := by simp [formatCopy2]
  rw [writtenCells, formatWrites_cells, List.mem_append, List.mem_append, List.mem_singleton, Prod.mk.injEq,
    Claims.formatCell, List.mem_iff_getElem?, List.mem_iff_getElem?, ← exists_or]
  refine or_congr_left (exists_congr fun i => ⟨fun h => ⟨?_, h⟩, And.right⟩)
  rcases h with h | h <;> have := (List.getElem?_eq_some_iff.1 h).1 <;> omega

section Admitted

variable {c : Cfg} (hc : c.Admitted) (bits : BitVec 15)
include hc

theorem functionDark_of_holdsFormatBit {i x y : Nat} (h : Claims.holdsFormatBit c i x y) :
    Claims.functionDark c bits x y = bits.getLsbD i :=
  (dark_of_mem_formatWrites hc bits (mem_formatWrites_of_holdsFormatBit bits h)).symm

theorem functionDark_darkModule : Claims.functionDark c bits 8 (c.size - 8) = true :=
  (dark_of_mem_formatWrites hc bits (mem_formatWrites_darkModule c.size bits)).symm

/-- The cells that `draw_format` writes are function cells (R315). -/
theorem get_functionPatterns_of_formatCell {x y : Nat} (h : Claims.formatCell c x y) :
    (functionPatterns c).functions.get y x = true := by
  rw [get_functionPatterns_iff hc, mem_writtenCells_append]
  exact .inr ((mem_writtenCells_formatWrites_iff _).2 h)

/-- The module plane after `draw_format`: its cells hold the format word and the dark module, the others stay (R476, R479). -/
theorem get_drawAll_formatWrites (p : Planes) (y x : Nat) :
    (drawAll (formatWrites c.size bits) p).modules.get y x =
      if (x, y) ∈ writtenCells (formatWrites c.size bits) then Claims.functionDark c bits x y else p.modules.get y x := by
  have hagree : ∀ w ∈ formatWrites c.size bits, w.x = x → w.y = y → w.dark = Claims.functionDark c bits x y := by
    rintro w hw rfl rfl
    exact dark_of_mem_formatWrites hc bits hw
  exact modules_drawAll_of_agree (formatWrites_inWindow bits (size_bounds hc)) p hagree

end Admitted

/-! ### `draw_format` on a state -/

section Admitted

variable {s : State} (ha : s.cfg.Admitted) (m : BitVec 3)
include ha

theorem get_drawFormat_of_formatCell {x y : Nat} (h : Claims.formatCell s.cfg x y) :
    (drawFormat m s).modPlane.get y x = Claims.functionDark s.cfg (formatWord s.cfg.ecl m) x y := by
  rw [drawFormat_modPlane, get_drawAll_formatWrites ha, if_pos ((mem_writtenCells_formatWrites_iff _).2 h)]

theorem get_drawFormat_of_not_formatCell {x y : Nat} (h : ¬ Claims.formatCell s.cfg x y) :
    (drawFormat m s).modPlane.get y x = s.modPlane.get y x := by
  rw [drawFormat_modPlane, get_drawAll_formatWrites ha, if_neg (mt (mem_writtenCells_formatWrites_iff _).1 h)]
  rfl

/-- A format cell holds its bit of the format word (R477). -/
theorem get_drawFormat_formatBit {i x y : Nat} (hi : i < 15) (h : Claims.holdsFormatBit s.cfg i x y) :
    (drawFormat m s).modPlane.get y x = (formatWord s.cfg.ecl m).getLsbD i := by
  rw [get_drawFormat_of_formatCell ha m (.inl ⟨i, hi, h⟩), functionDark_of_holdsFormatBit ha _ h]

/-- The dark module is dark whatever the mask (R479). -/
theorem get_drawFormat_darkModule : (drawFormat m s).modPlane.get (s.cfg.size - 8) 8 = true := by
  rw [get_drawFormat_of_formatCell ha m (.inr ⟨rfl, rfl⟩), functionDark_darkModule ha]

/-- A later `draw_format` writes all that an earlier one wrote (R478). -/
theorem modPlane_drawFormat_drawFormat (n : BitVec 3) :
    (drawFormat n (drawFormat m s)).modPlane = (drawFormat n s).modPlane := by
  refine plane_ext fun y _ x _ => ?_
  by_cases h : Claims.formatCell s.cfg x y
  · rw [get_drawFormat_of_formatCell (s := drawFormat m s) ha n h, get_drawFormat_of_formatCell ha n h]
    rfl
  · rw [get_drawFormat_of_not_formatCell (s := drawFormat m s) ha n h, get_drawFormat_of_not_formatCell ha n h,
      get_drawFormat_of_not_formatCell ha m h]

variable (hf : s.fnPlane = (functionPatterns s.cfg).functions)
include hf

/-- Once the patterns are drawn a `draw_format` changes the module plane and FMT only. -/
theorem drawFormat_eq_of_patternsDrawn :
    drawFormat m s = { s with modPlane := (drawFormat m s).modPlane, fmt := formatWord s.cfg.ecl m } := by
  have h := fnPlane_drawFormat ha m hf
  rw [drawFormat_fnPlane] at h
  rw [drawFormat_eq, h]

/-- A mask does not touch the cells of `draw_format`, which are function cells: the two commute. -/
theorem applyMask_drawFormat (k : BitVec 3) : applyMask k (drawFormat m s) = drawFormat m (applyMask k s) := by
  have hp : (applyMask k (drawFormat m s)).modPlane = (drawFormat m (applyMask k s)).modPlane := by
    refine plane_ext fun y _ x _ => ?_
    have hsize := size_le_of_admitted ha
    rw [applyMask_modPlane, fnPlane_drawFormat ha m hf, drawFormat_cfg, get_maskPlane k hsize]
    by_cases h : Claims.formatCell s.cfg x y
    · have hfn : s.fnPlane.get y x = true := by rw [hf, get_functionPatterns_of_formatCell ha h]
      rw [get_drawFormat_of_formatCell ha m h, get_drawFormat_of_formatCell (s := applyMask k s) ha m h, hfn]
      simp
    · rw [get_drawFormat_of_not_formatCell ha m h, get_drawFormat_of_not_formatCell (s := applyMask k s) ha m h,
        applyMask_modPlane, get_maskPlane k hsize]
  rw [drawFormat_eq_of_patternsDrawn ha m hf] at hp ⊢
  rw [drawFormat_eq_of_patternsDrawn (s := applyMask k s) ha m hf, ← hp]
  rfl

end Admitted

end Sys2Proof.Machine
end

section
/-! PROOF. TRIAL (R385 to R388): a trial undoes its mask, so it leaves a format redraw and the records of its score. -/

namespace Sys2Proof.Machine

/-! ### The value of a trial -/

/-- No admitted configuration's bound needs more than 22 bits (R440). -/
theorem penaltyBound_lt {c : Cfg} (h : c.Admitted) : c.penaltyBound < 2 ^ 22 := by
  obtain ⟨-, hs⟩ := size_bounds h
  obtain ⟨-, -, -, -, -, h1, h2, h3, h4⟩ := h
  have hs1 : c.size - 1 ≤ 40 := by omega
  calc c.penaltyBound
      ≤ 2 * 41 ^ 2 * (1 + 255) + 40 ^ 2 * 255 + 4 * 41 * (41 + 2) * 255 + 9 * 255 := by unfold Cfg.penaltyBound; gcongr
    _ < 2 ^ 22 := by norm_num

/-- The penalty of the trial of mask `m` from `s`, as TRIALPEN records it. -/
def trialPenalty (m : BitVec 3) (s : State) : Word := BitVec.ofNat 32 (Claims.trialTotal m s)

theorem trialTotal_lt (m : BitVec 3) {s : State} (h : s.cfg.Admitted) : Claims.trialTotal m s < 2 ^ 32 :=
  (penaltyParts_total_le s.cfg _).trans_lt ((penaltyBound_lt h).trans (by norm_num))

theorem toNat_trialPenalty (m : BitVec 3) {s : State} (h : s.cfg.Admitted) :
    (trialPenalty m s).toNat = Claims.trialTotal m s := by
  rw [trialPenalty, BitVec.toNat_ofNat, Nat.mod_eq_of_lt (trialTotal_lt m h)]

theorem trialTotal_congr {s t : State} {m : BitVec 3} (hc : t.cfg = s.cfg) (h : Claims.trialPlane m t = Claims.trialPlane m s) :
    Claims.trialTotal m t = Claims.trialTotal m s := by
  rw [Claims.trialTotal, Claims.trialTotal, hc, h]

/-- A trial reads the planes and the configuration only. -/
theorem trialPlane_congr {s t : State} (m : BitVec 3) (hc : t.cfg = s.cfg) (hm : t.modPlane = s.modPlane)
    (hf : t.fnPlane = s.fnPlane) : Claims.trialPlane m t = Claims.trialPlane m s := by
  unfold Claims.trialPlane
  simp only [drawFormat_modPlane, planesOf, applyMask_modPlane, applyMask_fnPlane, applyMask_cfg, hc, hm, hf]

/-! ### TRIALPEN and TRIALVALID -/

theorem trialPen_recordTrial (m : BitVec 3) (p : Word) (s : State) (j : Nat) :
    (recordTrial m p s).trialPen[j]?.getD 0 = if j = m.toNat then p else s.trialPen[j]?.getD 0 := by
  rw [recordTrial_trialPen, Vector.getElem?_setIfInBounds]
  by_cases h : j = m.toNat
  · simp [h, m.isLt]
  · simp [h, Ne.symm h]

theorem trialValid_recordTrial (m : BitVec 3) (p : Word) (s : State) (j : Nat) :
    (recordTrial m p s).trialValid.getLsbD j = (decide (j = m.toNat) || s.trialValid.getLsbD j) := by
  rw [recordTrial_trialValid, getLsbD_putBit _ _ _ _ m.isLt]
  by_cases h : j = m.toNat <;> simp [h]

/-! ### One trial -/

theorem applyMask_updateBest (k m : BitVec 3) (p : Word) (s : State) :
    applyMask k (updateBest m p s) = updateBest m p (applyMask k s) := by
  rw [updateBest_eq, updateBest_eq]
  rfl

/-- The records of a trial that scored `q` (R385, R387). -/
def recordScore (m : BitVec 3) (q : PenaltyParts) (s : State) : State :=
  updateBest m (BitVec.ofNat 32 q.total) (recordTrial m (BitVec.ofNat 32 q.total) (setPenalties q s))

section Drawn

variable {s : State} (ha : s.cfg.Admitted) (hf : s.fnPlane = (functionPatterns s.cfg).functions) (m : BitVec 3)
include ha hf

/-- A trial leaves the planes as a `draw_format` alone does (R386). -/
theorem afterTrial_eq : afterTrial m s = recordScore m (penaltyParts s.cfg (Claims.trialPlane m s)) (drawFormat m s) := by
  have hmask : applyMask m (drawFormat m (applyMask m s)) = drawFormat m s := by
    rw [applyMask_drawFormat (s := applyMask m s) ha m hf, applyMask_applyMask m ha]
  rw [← hmask]
  exact applyMask_updateBest m m _ _

/-! What a trial records (R385, R387) -/

theorem afterTrial_penalty : (afterTrial m s).penalty = trialPenalty m s := by
  rw [afterTrial_eq ha hf, recordScore, updateBest_penalty]
  rfl

theorem afterTrial_trialPen (j : Nat) :
    (afterTrial m s).trialPen[j]?.getD 0 = if j = m.toNat then trialPenalty m s else s.trialPen[j]?.getD 0 := by
  rw [afterTrial_eq ha hf, recordScore, updateBest_trialPen, trialPen_recordTrial]
  rfl

theorem afterTrial_trialValid (j : Nat) :
    (afterTrial m s).trialValid.getLsbD j = (decide (j = m.toNat) || s.trialValid.getLsbD j) := by
  rw [afterTrial_eq ha hf, recordScore, updateBest_trialValid, trialValid_recordTrial]
  rfl

theorem afterTrial_best : (afterTrial m s).best = (updateBest m (trialPenalty m s) s).best ∧
    (afterTrial m s).bestPen = (updateBest m (trialPenalty m s) s).bestPen ∧ (afterTrial m s).bestValid = true := by
  rw [afterTrial_eq ha hf, recordScore]
  obtain ⟨hb, hp⟩ := updateBest_congr (u := recordTrial m (trialPenalty m s) (setPenalties _ (drawFormat m s))) (s := s) m
    (trialPenalty m s) rfl rfl rfl
  exact ⟨hb, hp, updateBest_bestValid m _ _⟩

/-- A trial leaves to every later trial what it scores (R388). -/
theorem trialPlane_afterTrial (k : BitVec 3) : Claims.trialPlane k (afterTrial m s) = Claims.trialPlane k s := by
  rw [afterTrial_eq ha hf]
  calc Claims.trialPlane k (recordScore m _ (drawFormat m s))
      = Claims.trialPlane k (drawFormat m s) :=
        trialPlane_congr k (updateBest_cfg _ _ _) (updateBest_modPlane _ _ _) (updateBest_fnPlane _ _ _)
    _ = (drawFormat k (drawFormat m (applyMask k s))).modPlane := by rw [Claims.trialPlane, applyMask_drawFormat ha m hf]
    _ = Claims.trialPlane k s := modPlane_drawFormat_drawFormat (s := applyMask k s) ha m k

end Drawn

/-- TRIAL, accepted, is one trial (R386). -/
theorem exec_trial {m : BitVec 4} {k : BitVec 3} {s : State} (hp : s.phase = .placed) (hm : m.toNat = k.toNat) :
    exec (.trial m) s = .next (complete (afterTrial k s)) := by
  rw [exec_eq_finish, bodyOf, requirePhase_pos (by rw [hp]; exact List.mem_singleton_self _), maskOperand_mask hm]
  dsimp only
  rw [trialBody_eq]
  rfl

/-- In PLACED the function plane is the one that DRAWFN left (R97). -/
theorem fnPlane_of_placed {s : State} (h : s.Inv) (hp : s.phase = .placed) :
    s.fnPlane = (functionPatterns s.cfg).functions := by
  obtain ⟨-, -, -, -, ⟨-, hf⟩, -⟩ := h
  exact hf (by rw [hp]; rfl)

/-- Settles O45: the trial undoes its mask, and what it draws and records is written out. -/
theorem trialScoresWithoutCommitting : Obligations.TrialScoresWithoutCommitting := by
  intro m k s hi hp hm q total better
  have ha : s.cfg.Admitted := hi.1
  have hf := fnPlane_of_placed hi hp
  have hbetter : (s.bestValid = false ∨ total < s.bestPen ∨ (total = s.bestPen ∧ k < s.best)) = (better = true) := by
    simp [better, or_assoc]
  refine ⟨(drawFormat k s).modPlane, (recordTrial k total s).trialPen, (recordTrial k total s).trialValid, ?_,
    trialTotal_lt k ha, fun j _ => trialPen_recordTrial k total s j, fun j _ => trialValid_recordTrial k total s j,
    get_drawFormat_darkModule ha k, fun y hy x hx => ⟨fun h => ?_, fun i hi h => get_drawFormat_formatBit ha k hi h⟩⟩
  · rw [exec_trial hp hm, afterTrial_eq ha hf, drawFormat_eq_of_patternsDrawn ha k hf, recordScore, updateBest_eq]
    simp only [← hbetter]
    rfl
  · rw [get_drawFormat_of_not_formatCell ha k h, modAt_of_lt hy hx]

end Sys2Proof.Machine
end

section
/-! PROOF. COMMIT (R390 to R393): the explicit form, and the least penalty among the eight trials. -/

namespace Sys2Proof.Machine

/-! ### The two forms -/

/-- COMMIT with a mask (R390). -/
theorem exec_commit_mask {m : BitVec 4} {k : BitVec 3} {s : State} (hp : s.phase = .placed) (hm : m.toNat = k.toNat) :
    exec (.commit m) s = .next (complete (commitMask k s)) := by
  rw [exec_eq_finish, bodyOf, requirePhase_pos (by rw [hp]; exact List.mem_singleton_self _), commitBody, maskOperand_mask hm]
  rfl

/-- COMMIT without one commits the best of the eight trials (R390). -/
theorem exec_commit_auto {s : State} (hp : s.phase = .placed) :
    exec (.commit 15) s =
      .next (complete (commitMask (afterTrials allMasks (clearBest s)).best (afterTrials allMasks (clearBest s)))) := by
  rw [exec_eq_finish, bodyOf, requirePhase_pos (by rw [hp]; exact List.mem_singleton_self _), commitBody]
  have hauto : maskOperand 15 = .auto := by decide
  rw [hauto]
  dsimp only
  rw [trialsBody_eq]
  rfl

/-- Settles O47: the mask inverts the data cells, which are none of the format cells drawn after it. -/
theorem explicitCommitAppliesTheMask : Obligations.ExplicitCommitAppliesTheMask := by
  intro m k s hi hp hm
  have ha : s.cfg.Admitted := hi.1
  have hf := fnPlane_of_placed hi hp
  have ham : (applyMask k s).cfg.Admitted := ha
  refine ⟨(drawFormat k (applyMask k s)).modPlane, ?_, get_drawFormat_darkModule ham k, fun y hy x hx =>
    ⟨fun h => ?_, fun i hi h => get_drawFormat_formatBit ham k hi h⟩⟩
  · rw [exec_commit_mask hp hm, commitMask, drawFormat_eq_of_patternsDrawn (s := applyMask k s) ha k hf]
    rfl
  · rw [get_drawFormat_of_not_formatCell ham k h, get_modPlane_applyMask k ha hy hx, modAt_of_lt hy hx, hf,
      get_functionPatterns ha hx hy]

/-- The dark module once COMMIT has completed (R393). -/
theorem modAt_commitMask_darkModule (k : BitVec 3) {s : State} (ha : s.cfg.Admitted) :
    modAt (complete (commitMask k s)) (s.cfg.size - 8) 8 = true := by
  have hs := size_bounds ha
  have hc : (complete (commitMask k s)).cfg = s.cfg := (complete_cfg _).trans (commitMask_cfg k s)
  rw [modAt_of_lt (by rw [hc]; omega) (by rw [hc]; omega), complete_modPlane, commitMask_modPlane]
  exact get_drawFormat_darkModule (s := applyMask k s) ha k

/-- Settles O50: each form of COMMIT ends with `draw_format`. -/
theorem darkModuleIsDarkAfterCommit : Obligations.DarkModuleIsDarkAfterCommit := by
  rintro m s hi ⟨hp, hw, -⟩
  have ha : s.cfg.Admitted := hi.1
  replace hp : s.phase = .placed := List.mem_singleton.1 hp
  rcases maskOperand_cases m with ⟨hm, -⟩ | ⟨rfl, -⟩ | ⟨h8, h14, -⟩
  · have hk : m.toNat = (m.setWidth 3).toNat := by rw [BitVec.toNat_setWidth]; omega
    exact ⟨_, exec_commit_mask hp hk, modAt_commitMask_darkModule (m.setWidth 3) ha⟩
  · obtain ⟨hc, -⟩ := fnPlane_afterTrials allMasks (s := clearBest s) ha (fnPlane_of_placed hi hp)
    replace hc : (afterTrials allMasks (clearBest s)).cfg = s.cfg := hc
    refine ⟨_, exec_commit_auto hp, ?_⟩
    rw [← hc]
    exact modAt_commitMask_darkModule _ (hc ▸ ha)
  · simp only [Instr.wellFormed, namesMask, asksAuto, Bool.or_eq_true, decide_eq_true_eq, beq_iff_eq] at hw
    omega

/-! ### What the trials record -/

/-- `s` with what trials write taken from `t`: the format cells, FMT, and the records of the scores (R385, R387). -/
def State.withTrials (s t : State) : State :=
  { s with
    modPlane := t.modPlane, fmt := t.fmt, penalty := t.penalty, penRun := t.penRun, penBlock := t.penBlock,
    penFinder := t.penFinder, penBalance := t.penBalance, darkCount := t.darkCount, darkK := t.darkK, trialPen := t.trialPen,
    trialValid := t.trialValid, best := t.best, bestValid := t.bestValid, bestPen := t.bestPen }

/-- What a later state takes from trials it takes from `s` too. -/
theorem withTrials_trans {s t u : State} (h : t = s.withTrials t) (hu : u = t.withTrials u) : u = s.withTrials u :=
  hu.trans (congrArg (State.withTrials · u) h :)

/-- What a state `t` holds of the trials of `ms`, made in turn from `s` with BEST cleared (R388, R391). -/
structure TrialsRecorded (s : State) (ms : List (BitVec 3)) (t : State) : Prop where
  frame : t = s.withTrials t
  plane : ∀ k, Claims.trialPlane k t = Claims.trialPlane k s
  trialPen : ∀ k ∈ ms, t.trialPen[k.toNat]?.getD 0 = trialPenalty k s
  trialValid : ∀ k ∈ ms, t.trialValid.getLsbD k.toNat = true
  penalty : ∀ k, ms.getLast? = some k → t.penalty = trialPenalty k s
  bestPen : t.bestValid = true → t.bestPen = trialPenalty t.best s
  least : ∀ k ∈ ms, t.bestValid = true ∧ resultRank t.best t.bestPen ≤ resultRank k (trialPenalty k s)

theorem afterTrial_eq_withTrials {s : State} (ha : s.cfg.Admitted) (hf : s.fnPlane = (functionPatterns s.cfg).functions)
    (m : BitVec 3) : afterTrial m s = s.withTrials (afterTrial m s) := by
  rw [afterTrial_eq ha hf, drawFormat_eq_of_patternsDrawn ha m hf, recordScore, updateBest_eq]
  rfl

/-- One trial more. -/
theorem trialsRecorded_afterTrial {s t : State} {ms : List (BitVec 3)} (ha : s.cfg.Admitted)
    (hf : s.fnPlane = (functionPatterns s.cfg).functions) (h : TrialsRecorded s ms t) (m : BitVec 3) :
    TrialsRecorded s (ms ++ [m]) (afterTrial m t) := by
  obtain ⟨hframe, hplane, hpen, hvalid, -, hbest, hleast⟩ := h
  have hcfg : t.cfg = s.cfg := (congrArg State.cfg hframe :)
  have hfn : t.fnPlane = s.fnPlane := (congrArg State.fnPlane hframe :)
  have hat : t.cfg.Admitted := hcfg ▸ ha
  have hft : t.fnPlane = (functionPatterns t.cfg).functions := by rw [hfn, hcfg, hf]
  have hscore : trialPenalty m t = trialPenalty m s := congrArg (BitVec.ofNat 32) (trialTotal_congr hcfg (hplane m))
  obtain ⟨ebest, epen, evalid⟩ := afterTrial_best hat hft m
  rw [hscore] at ebest epen
  refine ⟨?frame, fun k => (trialPlane_afterTrial hat hft m k).trans (hplane k), fun k hk => ?trialPen,
    fun k hk => ?trialValid, fun k hk => ?penalty, fun _ => ?bestPen, fun k hk => ⟨evalid, ?least⟩⟩
  case frame => exact withTrials_trans hframe (afterTrial_eq_withTrials hat hft m)
  case trialPen =>
    rw [afterTrial_trialPen hat hft, hscore]
    split
    · next he => rw [BitVec.eq_of_toNat_eq he]
    · next he =>
      rcases List.mem_append.1 hk with hk | hk
      · exact hpen k hk
      · exact absurd (congrArg BitVec.toNat (List.mem_singleton.1 hk)) he
  case trialValid =>
    rw [afterTrial_trialValid hat hft]
    rcases List.mem_append.1 hk with hk | hk
    · simp [hvalid k hk]
    · simp [List.mem_singleton.1 hk]
  case penalty =>
    obtain rfl : m = k := by simpa using hk
    rw [afterTrial_penalty hat hft, hscore]
  case bestPen =>
    rw [ebest, epen]
    rcases updateBest_cases m (trialPenalty m s) t with ⟨e, ep, -⟩ | ⟨e, ep, hv, -⟩
    · rw [e, ep]
    · rw [e, ep, hbest hv]
  case least =>
    rw [ebest, epen]
    rcases List.mem_append.1 hk with hk | hk
    · obtain ⟨hv, hle⟩ := hleast k hk
      exact (resultRank_updateBest_le_old m (trialPenalty m s) hv).trans hle
    · rw [List.mem_singleton.1 hk]
      exact resultRank_updateBest_le m _ t

/-- All the trials of a list. -/
theorem trialsRecorded_afterTrials {s : State} (ha : s.cfg.Admitted) (hf : s.fnPlane = (functionPatterns s.cfg).functions)
    (ms : List (BitVec 3)) : TrialsRecorded s ms (afterTrials ms (clearBest s)) := by
  induction ms using List.reverseRecOn with
  | nil => exact ⟨rfl, fun _ => rfl, nofun, nofun, nofun, nofun, nofun⟩
  | append_singleton ms m ih =>
    rw [afterTrials, List.foldl_append]
    exact trialsRecorded_afterTrial ha hf ih m

theorem mem_allMasks : ∀ m : BitVec 3, m ∈ allMasks := by decide

/-- Every bit of TRIALVALID is some mask's. -/
theorem eq_allOnes_of_trialValid {v : BitVec 8} (h : ∀ k : BitVec 3, v.getLsbD k.toNat = true) : v = 0xFF := by
  refine BitVec.eq_of_getLsbD_eq fun i hi => ?_
  have hk := h (BitVec.ofNat 3 i)
  rw [BitVec.toNat_ofNat, Nat.mod_eq_of_lt (by simpa using hi)] at hk
  rw [hk]
  interval_cases i <;> rfl

/-! ### Auto COMMIT -/

/-- `s` with what auto COMMIT writes taken from `t`: beside the records of the trials those of the commit (R390). -/
def State.withCommit (s t : State) : State :=
  { s.withTrials t with
    mask := t.mask, maskValid := t.maskValid, fnValid := t.fnValid, phase := t.phase, irq := t.irq, busy := t.busy }

theorem withCommit_of_withTrials {s t u : State} (h : t = s.withTrials t) (hu : u = t.withCommit u) : u = s.withCommit u :=
  hu.trans (congrArg (State.withCommit · u) h :)

theorem commitMask_eq_withCommit {s : State} (ha : s.cfg.Admitted) (hf : s.fnPlane = (functionPatterns s.cfg).functions)
    (m : BitVec 3) : complete (commitMask m s) = s.withCommit (complete (commitMask m s)) := by
  rw [commitMask, drawFormat_eq_of_patternsDrawn (s := applyMask m s) ha m hf]
  rfl

/-- Settles O48: the trials leave in BEST the result of least rank, and a commit draws the plane that its trial scored. -/
theorem autoCommitPicksTheLeastPenalty : Obligations.AutoCommitPicksTheLeastPenalty := by
  intro s hi hp
  have ha : s.cfg.Admitted := hi.1
  have hf := fnPlane_of_placed hi hp
  obtain ⟨hframe, hplane, hpen, hvalid, hlast, hbest, hleast⟩ := trialsRecorded_afterTrials ha hf allMasks
  have hexec := exec_commit_auto hp
  generalize afterTrials allMasks (clearBest s) = t at *
  have hcfg : t.cfg = s.cfg := (congrArg State.cfg hframe :)
  have hfn : t.fnPlane = s.fnPlane := (congrArg State.fnPlane hframe :)
  have hv : t.bestValid = true := (hleast 0 (mem_allMasks 0)).1
  have hcommit : complete (commitMask t.best t) = s.withCommit (complete (commitMask t.best t)) :=
    withCommit_of_withTrials hframe (commitMask_eq_withCommit (hcfg ▸ ha) (by rw [hfn, hcfg, hf]) t.best)
  refine ⟨_, hexec, by simp, by simp, by simp, by simp, by simpa using hv, ?trialValid, by simp [hcfg], fun m => ?trialPen,
    ?bestPen, ?penalty, fun m => ?least, fun y hy x hx => ?plane, ?frame⟩
  case trialValid =>
    rw [complete_trialValid, commitMask_trialValid]
    exact eq_allOnes_of_trialValid fun k => hvalid k (mem_allMasks k)
  case trialPen =>
    rw [complete_trialPen, commitMask_trialPen]
    exact hpen m (mem_allMasks m)
  case bestPen =>
    rw [complete_bestPen, commitMask_bestPen, complete_mask, commitMask_mask]
    exact hbest hv
  case penalty =>
    rw [complete_penalty, commitMask_penalty]
    exact hlast 7 rfl
  case least =>
    obtain ⟨-, hle⟩ := hleast m (mem_allMasks m)
    rw [hbest hv, resultRank, resultRank, toNat_trialPenalty _ ha, toNat_trialPenalty _ ha] at hle
    have hm := m.isLt
    have hb := t.best.isLt
    simp only [complete_mask, commitMask_mask, BitVec.le_def]
    omega
  case plane =>
    have hc : (complete (commitMask t.best t)).cfg = s.cfg := by rw [complete_cfg, commitMask_cfg, hcfg]
    rw [modAt_of_lt (by rwa [hc]) (by rwa [hc]), complete_modPlane, commitMask_modPlane, complete_mask, commitMask_mask,
      ← hplane t.best, Claims.trialPlane]
  case frame =>
    rw [hcommit]
    rfl

end Sys2Proof.Machine
end

section
/-! PROOF. The balance index (R436). -/

namespace Sys2Proof.Machine

theorem le_leastIndex (dev total n k : Nat) : k ≤ leastIndex dev total n k := by
  induction n generalizing k with
  | zero => exact Nat.le_refl k
  | succ n ih =>
    simp only [leastIndex]
    split
    · exact Nat.le_refl k
    · exact Nat.le_of_succ_le (ih (k + 1))

/-- The trials from `k` up stop at the first index the deviation allows, or after the last trial. -/
theorem leastIndex_le_iff {dev total k j : Nat} (n : Nat) (hkj : k ≤ j) :
    leastIndex dev total n k ≤ j ↔ k + n ≤ j ∨ dev ≤ (j + 1) * total := by
  induction n generalizing k with
  | zero => simp [leastIndex, hkj]
  | succ n ih =>
    simp only [leastIndex]
    split
    next h =>
      have hj : dev ≤ (j + 1) * total := h.trans (Nat.mul_le_mul_right total (by omega))
      simp [hkj, hj]
    next h =>
      rcases hkj.eq_or_lt with rfl | hlt
      · have := le_leastIndex dev total n (k + 1)
        omega
      · rw [ih hlt]
        omega

/-- The deviation of R436 within `k` steps is the dark share within its bounds, ends included. -/
theorem deviation_le_iff (dark total k : Nat) :
    (20 * (dark : Int) - 10 * (total : Int)).natAbs ≤ (k + 1) * total ↔
      (45 - 5 * (k : Int)) * total ≤ 100 * dark ∧ 100 * (dark : Int) ≤ (55 + 5 * k) * total := by
  rw [Int.sub_mul, Int.add_mul, Int.mul_assoc, Nat.add_mul, ← Nat.cast_mul]
  omega

/-- The balance index is the least index whose bounds hold the dark share; no share needs more than 9. -/
theorem balanceIndex_le_iff {dark total : Nat} (h : dark ≤ total) (j : Nat) :
    balanceIndex dark total ≤ j ↔
      (45 - 5 * (j : Int)) * total ≤ 100 * dark ∧ 100 * (dark : Int) ≤ (55 + 5 * j) * total := by
  rw [← deviation_le_iff, balanceIndex, leastIndex_le_iff 9 (Nat.zero_le j), or_iff_right_iff_imp]
  intro hj
  have h10 : (20 * (dark : Int) - 10 * (total : Int)).natAbs ≤ 10 * total := by omega
  exact h10.trans (Nat.mul_le_mul_right total (by omega))

/-- Settles O53: an index is at least the balance index exactly when its bounds hold the dark share. -/
theorem balanceIndexIsTheLeast : Obligations.BalanceIndexIsTheLeast := by
  intro dark total _ hd k
  obtain ⟨hlow, hhigh⟩ := (balanceIndex_le_iff hd k).1 (Nat.le_refl k)
  have h9 : k ≤ 9 := balanceIndex_le_nine dark total
  have h8 := balanceIndex_le_iff hd 8
  refine ⟨hlow, hhigh, fun j hl hh => (balanceIndex_le_iff hd j).2 ⟨hl, hh⟩, h9, ?_⟩
  change k ≤ 8 ↔ _ at h8
  omega

end Sys2Proof.Machine
end

section
/-! PROOF. The components of a plane's penalty (R420, R421, R433, R435, R440) and the command PENALTY (R445). -/

namespace Sys2Proof.Machine

/-! ### The bounds -/

/-- Settles O51, by the bound of each component. -/
theorem penaltyIsBounded : Obligations.PenaltyIsBounded := by
  refine ⟨fun c p => ⟨penaltyParts_p1_le c p, penaltyParts_p2_le c p, penaltyParts_p3_le c p, penaltyParts_p4_le c p,
    penaltyParts_total_le c p⟩, fun c h1 h2 h3 h4 => ?_, fun c ha => penaltyBound_lt ha⟩
  constructor <;> intro hv <;> simp [Cfg.penaltyBound, Cfg.size, hv, h1, h2, h3, h4]

/-! ### The cells the penalty reads -/

theorem matrixLines_congr {size : Nat} {p q : Plane} (h : ∀ y < size, ∀ x < size, p.get y x = q.get y x) :
    matrixLines size p = matrixLines size q := by
  unfold matrixLines
  congr 1 <;> refine List.map_congr_left fun a ha => List.map_congr_left fun b hb => ?_
  · exact h a (List.mem_range.1 ha) b (List.mem_range.1 hb)
  · exact h b (List.mem_range.1 hb) a (List.mem_range.1 ha)

theorem isBlock_congr {size y x : Nat} {p q : Plane} (h : ∀ y < size, ∀ x < size, p.get y x = q.get y x)
    (hy : y + 1 < size) (hx : x + 1 < size) : isBlock p y x = isBlock q y x := by
  have hy' := Nat.lt_of_succ_lt hy
  have hx' := Nat.lt_of_succ_lt hx
  simp only [isBlock, h y hy' x hx', h y hy' (x + 1) hx, h (y + 1) hy x hx', h (y + 1) hy (x + 1) hx]

theorem blockScore_congr {c : Cfg} {p q : Plane} (h : ∀ y < c.size, ∀ x < c.size, p.get y x = q.get y x) :
    blockScore c p = blockScore c q := by
  unfold blockScore
  refine congrArg List.sum (List.map_congr_left fun y hy => congrArg List.sum (List.map_congr_left fun x hx => ?_))
  rw [List.mem_range] at hy hx
  rw [isBlock_congr h (by omega) (by omega)]

theorem darkModules_congr {size : Nat} {p q : Plane} (h : ∀ y < size, ∀ x < size, p.get y x = q.get y x) :
    darkModules size p = darkModules size q := by
  unfold darkModules
  refine congrArg List.sum (List.map_congr_left fun y hy => congrArg List.length (List.filter_congr fun x hx => ?_))
  exact h y (List.mem_range.1 hy) x (List.mem_range.1 hx)

/-- The penalty reads the cells of the matrix only (R420). -/
theorem penaltyParts_congr {c : Cfg} {p q : Plane} (h : ∀ y < c.size, ∀ x < c.size, p.get y x = q.get y x) :
    penaltyParts c p = penaltyParts c q := by
  unfold penaltyParts
  rw [matrixLines_congr h, blockScore_congr h, darkModules_congr h]

/-- Settles O54: the cells that two states agree on are all that the penalty reads, and its result registers are no cells. -/
theorem penaltyReadsOnlyTheModules : Obligations.PenaltyReadsOnlyTheModules := by
  refine ⟨fun s u hc h => ?_, fun s _ => ⟨_, evaluatePenalty_eq s, setPenalties_modPlane _ s, setPenalties_fnPlane _ s⟩⟩
  rw [hc]
  refine penaltyParts_congr fun y hy x hx => ?_
  have hcell := h y hy x hx
  rwa [modAt_of_lt (by rwa [hc]) (by rwa [hc]), modAt_of_lt hy hx] at hcell

/-! ### Windows and dark cells -/

@[simp] theorem mem_cellsBelow {n x y : Nat} : (x, y) ∈ Claims.cellsBelow n ↔ x < n ∧ y < n := by
  simp [Claims.cellsBelow, and_comm]

theorem nodup_cellsBelow (n : Nat) : (Claims.cellsBelow n).Nodup := by
  have hswap : Claims.cellsBelow n = (List.range n ×ˢ List.range n).map Prod.swap := by
    simp [Claims.cellsBelow, SProd.sprod, List.product, List.map_flatMap, Function.comp_def]
  rw [hswap]
  exact (List.nodup_range.product List.nodup_range).map Prod.swap_injective

/-- Counting cells row by row. -/
theorem length_filter_cellsBelow (n : Nat) (f : Nat → Nat → Bool) :
    ((Claims.cellsBelow n).filter fun cell => f cell.2 cell.1).length =
      ((List.range n).map fun y => ((List.range n).filter (f y)).length).sum := by
  simp [Claims.cellsBelow, List.filter_flatMap, List.length_flatMap, List.filter_map, Function.comp_def]

theorem isBlock_iff (p : Plane) (y x : Nat) : isBlock p y x = true ↔ Claims.oneColour p x y := by
  simp only [isBlock, Claims.oneColour, Bool.and_eq_true, beq_iff_eq, and_assoc]
  exact and_congr eq_comm (and_congr eq_comm eq_comm)

/-- The windows of one colour, by their top-left cells (R433). -/
def blockWindows (size : Nat) (p : Plane) : List (Nat × Nat) :=
  (Claims.cellsBelow (size - 1)).filter fun cell => isBlock p cell.2 cell.1

theorem mem_blockWindows {size : Nat} {p : Plane} {x y : Nat} :
    (x, y) ∈ blockWindows size p ↔ x + 1 < size ∧ y + 1 < size ∧ Claims.oneColour p x y := by
  simp only [blockWindows, List.mem_filter, mem_cellsBelow, isBlock_iff, Nat.lt_sub_iff_add_lt, and_assoc]

theorem blockScore_eq (c : Cfg) (p : Plane) : blockScore c p = c.n2 * (blockWindows c.size p).length := by
  rw [blockWindows, length_filter_cellsBelow, blockScore, ← List.sum_map_mul_left]
  simp [List.sum_map_ite, Nat.mul_comm]

/-! ### The command PENALTY -/

theorem exec_penalty {s : State} (h : s.phase ∈ [Phase.init, .func, .eccd, .placed, .done]) :
    exec .penalty s = .next (complete (setPenalties (penaltyParts s.cfg s.modPlane) s)) := by
  rw [exec_eq_finish, bodyOf, requirePhase_pos h, evaluatePenalty_eq, finish_done]

/-- Settles O55: the sums of R421 counted by lines, windows and cells, and the registers that PENALTY writes. -/
theorem penaltyScoresTheModulePlane : Obligations.PenaltyScoresTheModulePlane := by
  refine ⟨fun c p => ?_, fun s _ hp => exec_penalty hp⟩
  unfold penaltyParts
  refine ⟨?p1, ?p3, ⟨blockWindows c.size p, (nodup_cellsBelow _).filter _, blockScore_eq c p, fun x y => mem_blockWindows⟩,
    ?dark, rfl, rfl⟩
  case p1 => simp only [List.map_map]; rfl
  case p3 => simp only [List.map_map]; rfl
  case dark => exact (length_filter_cellsBelow c.size p.get).symm

/-- Settles O49: auto COMMIT leaves the plane whose trial gave BESTPEN, and PENALTY scores that plane. -/
theorem penaltyAfterAutoCommitIsBestpen : Obligations.PenaltyAfterAutoCommitIsBestpen := by
  intro s hi hp
  obtain ⟨t, hcommit, hdone, -, -, -, -, -, -, -, hbest, -, -, hplane, hframe⟩ := autoCommitPicksTheLeastPenalty s hi hp
  have hc : t.cfg = s.cfg := (congrArg State.cfg hframe :)
  have hparts : penaltyParts t.cfg t.modPlane = penaltyParts s.cfg (Claims.trialPlane t.mask s) := by
    rw [hc]
    refine penaltyParts_congr fun y hy x hx => ?_
    rw [← modAt_of_lt (by rwa [hc]) (by rwa [hc]), hplane y hy x hx]
  refine ⟨t, _, hcommit, exec_penalty (by simp [hdone]), ?_, hdone, rfl⟩
  rw [complete_penalty, setPenalties_penalty, hparts, hbest, Claims.trialTotal]

end Sys2Proof.Machine
end

section
/-! PROOF. The lines of the penalty (R425 to R430), by their maximal runs. -/

namespace Sys2Proof.Machine

open Claims (runLengths borderedRuns finderMatches)

theorem size_pos (c : Cfg) : 0 < c.size := by
  unfold Cfg.size; omega

/-! ### Maximal runs -/

theorem runLengths_append {l m : List Bool} (h : ∀ b ∈ l.getLast?, ∀ b' ∈ m.head?, b ≠ b') :
    runLengths (l ++ m) = runLengths l ++ runLengths m := by
  unfold runLengths
  rw [List.splitBy_append fun b hb b' hb' => beq_eq_false_iff_ne.2 (h b hb b' hb'), List.map_append]

theorem runLengths_replicate {n : Nat} (hn : 0 < n) (b : Bool) : runLengths (List.replicate n b) = [n] := by
  have hne : List.replicate n b ≠ [] := by simp [Nat.ne_of_gt hn]
  have hchain : (List.replicate n b).IsChain fun x y => (x == y) = true := List.isChain_replicate_of_rel n BEq.rfl
  simp [runLengths, List.splitBy_of_isChain hne hchain]

/-- A run of `n` modules after a line that ends in the other colour. -/
theorem runLengths_append_replicate {l : List Bool} {b : Bool} {n : Nat} (hl : l.getLast? ≠ some b) (hn : 0 < n) :
    runLengths (l ++ List.replicate n b) = runLengths l ++ [n] := by
  rw [runLengths_append, runLengths_replicate hn]
  rintro b' hb' b'' hb'' rfl
  rw [List.head?_replicate, if_neg (Nat.ne_of_gt hn)] at hb''
  cases hb''
  exact hl hb'

theorem zero_notMem_runLengths (l : List Bool) : 0 ∉ runLengths l := by
  simp [runLengths]

/-- A line that ends in a run has that run's colour last. -/
theorem getLast?_append_replicate_ne {done : List Bool} {b b' : Bool} {n : Nat} (hn : n = 0 → done = []) (hb : b' ≠ b) :
    (done ++ List.replicate n b).getLast? ≠ some b' := by
  rcases n.eq_zero_or_pos with rfl | hpos
  · simp [hn]
  · simp [List.getLast?_append, List.getLast?_replicate, Nat.ne_of_gt hpos, Ne.symm hb]

/-! ### The run sub-score (R426, R427) -/

/-- What a maximal run of this length adds to P1 (R426). -/
def runScore (c : Cfg) (len : Nat) : Nat := if len < 5 then 0 else c.n1 + (len - 5)

/-- One module more of the current run (R427). -/
theorem runScore_succ (c : Cfg) (len : Nat) :
    runScore c (len + 1) = if len + 1 = 5 then runScore c len + c.n1
      else if 5 < len + 1 then runScore c len + 1 else runScore c len := by
  unfold runScore
  split_ifs <;> omega

/-- What the scan holds of P1 after `line`: the scores of the runs in `done` and of the current run after them, which is empty
at the start only. -/
structure RunsScored (c : Cfg) (line : List Bool) (st : LineScan) (done : List Bool) : Prop where
  line_eq : line = done ++ List.replicate st.run st.color
  last_ne : done.getLast? ≠ some st.color
  nil_of_run : st.run = 0 → done = []
  p1_eq : st.p1 = ((runLengths done).map (runScore c)).sum + runScore c st.run

/-- The scores of a line's runs, the last of them split off. -/
theorem sum_runScore_append (c : Cfg) {done : List Bool} {b : Bool} {n : Nat} (hlast : done.getLast? ≠ some b)
    (hn : n = 0 → done = []) :
    ((runLengths (done ++ List.replicate n b)).map (runScore c)).sum =
      ((runLengths done).map (runScore c)).sum + runScore c n := by
  rcases n.eq_zero_or_pos with rfl | hpos
  · simp [runScore]
  · simp [runLengths_append_replicate hlast hpos]

theorem runsScored_foldl (c : Cfg) (line : List Bool) :
    ∃ done, RunsScored c line (line.foldl (scanModule c) LineScan.start) done := by
  induction line using List.reverseRecOn with
  | nil => exact ⟨[], rfl, by simp, fun _ => rfl, rfl⟩
  | append_singleton line b ih =>
    rw [List.foldl_append]
    generalize line.foldl (scanModule c) LineScan.start = st at ih ⊢
    obtain ⟨done, hline, hlast, hrun, hp1⟩ := ih
    rw [List.foldl_cons, List.foldl_nil, scanModule]
    split
    next hb =>
      refine ⟨done, ?_, hlast, nofun, ?_⟩
      · rw [hline, hb, List.append_assoc, ← List.replicate_succ']
      · dsimp only
        rw [runScore_succ, hp1]
        split_ifs <;> omega
    next hb =>
      refine ⟨line, rfl, hline ▸ getLast?_append_replicate_ne hrun hb, nofun, ?_⟩
      rw [hp1, hline, sum_runScore_append c hlast hrun]
      simp [runScore]

theorem lineScore_fst (c : Cfg) (line : List Bool) : (lineScore c line).1 = ((runLengths line).map (runScore c)).sum := by
  obtain ⟨done, hline, hlast, hrun, hp1⟩ := runsScored_foldl c line
  rw [lineScore, hp1, ← sum_runScore_append c hlast hrun, ← hline]

/-! ### The windows of seven runs (R428 to R430) -/

/-- The last seven of these runs, the newest first (R425). -/
def historyOf (runs : List Nat) : RunHistory :=
  let r (j : Nat) := runs.reverse.getD j 0
  ⟨r 0, r 1, r 2, r 3, r 4, r 5, r 6⟩

/-- Pushing a run: the first run of a line is the one that meets an empty history (R428). -/
theorem addHist_historyOf (size run : Nat) {runs : List Nat} (h : 0 ∉ runs) :
    addHist size run (historyOf runs) = historyOf (runs ++ [if runs = [] then run + size else run]) := by
  cases runs using List.reverseRecOn with
  | nil => simp [addHist, historyOf]
  | append_singleton rs r =>
    have hr : r ≠ 0 := fun e => h (by simp [e])
    simp [addHist, historyOf, hr]

theorem finderMatches_congr {r r' : Nat → Nat} (h : ∀ j ≤ 6, r j = r' j) : finderMatches r = finderMatches r' := by
  simp [finderMatches, h]

/-- A match reads the same from both ends. -/
theorem finderMatches_reverse (r : Nat → Nat) : finderMatches (fun j => r (6 - j)) = finderMatches r := by
  simp only [finderMatches, Nat.reduceSub]
  by_cases h : 0 < r 1 ∧ r 2 = r 1 ∧ r 3 = 3 * r 1 ∧ r 4 = r 1 ∧ r 5 = r 1
  · obtain ⟨h1, h2, h3, h4, h5⟩ := h
    simp [h1, h2, h3, h4, h5, Nat.add_comm]
  · rw [if_neg h, if_neg (by omega)]

/-- The light run on either side has to be there. -/
theorem finderMatches_eq_zero {r : Nat → Nat} (h : r 6 = 0) : finderMatches r = 0 := by
  unfold finderMatches
  split_ifs <;> omega

theorem countPatterns_eq (r : Nat → Nat) :
    countPatterns ⟨r 0, r 1, r 2, r 3, r 4, r 5, r 6⟩ = finderMatches r := by
  unfold countPatterns finderMatches
  by_cases h : 0 < r 1 ∧ r 2 = r 1 ∧ r 3 = 3 * r 1 ∧ r 4 = r 1 ∧ r 5 = r 1 <;> simp [h]

theorem countPatterns_historyOf (runs : List Nat) :
    countPatterns (historyOf runs) = finderMatches fun j => runs.reverse.getD j 0 :=
  countPatterns_eq fun j => runs.reverse.getD j 0

/-- The matches of the seven runs from run `2 * i` on. -/
def windowMatches (runs : List Nat) (i : Nat) : Nat := finderMatches fun j => runs.getD (2 * i + j) 0

theorem windowMatches_append {runs : List Nat} {i : Nat} (h : 2 * i + 6 < runs.length) (more : List Nat) :
    windowMatches (runs ++ more) i = windowMatches runs i :=
  finderMatches_congr fun j hj => List.getD_append _ _ _ _ (by omega)

/-- The history holds the last window, the other way round. -/
theorem countPatterns_historyOf_of_length {runs : List Nat} {i : Nat} (h : runs.length = 2 * i + 7) :
    countPatterns (historyOf runs) = windowMatches runs i := by
  rw [countPatterns_historyOf, windowMatches, ← finderMatches_reverse]
  refine finderMatches_congr fun j hj => ?_
  rw [List.getD_eq_getElem?_getD, List.getElem?_reverse (by omega), List.getD_eq_getElem?_getD]
  congr 2
  omega

theorem countPatterns_historyOf_of_length_lt {runs : List Nat} (h : runs.length < 7) : countPatterns (historyOf runs) = 0 := by
  rw [countPatterns_historyOf]
  exact finderMatches_eq_zero (List.getD_eq_default _ _ (by simpa using Nat.le_of_lt_succ h))

/-- The matches among all windows of seven runs that begin at an even place. -/
def finderCount (runs : List Nat) : Nat := ((List.range ((runs.length - 5) / 2)).map (windowMatches runs)).sum

theorem finderCount_eq (runs : List Nat) :
    finderCount runs =
      ((List.range runs.length).map fun i => if 2 * i + 6 < runs.length then windowMatches runs i else 0).sum := by
  change ∑ i ∈ Finset.range ((runs.length - 5) / 2), windowMatches runs i =
    ∑ i ∈ Finset.range runs.length, if 2 * i + 6 < runs.length then windowMatches runs i else 0
  rw [← Finset.sum_filter]
  congr 1
  ext i
  simp only [Finset.mem_range, Finset.mem_filter]
  omega

/-- One run more ends one window more when it is light and six runs come before it. -/
theorem finderCount_append_singleton (runs : List Nat) (r : Nat) :
    finderCount (runs ++ [r]) =
      finderCount runs + if runs.length.bodd = false then countPatterns (historyOf (runs ++ [r])) else 0 := by
  have hold : ((List.range ((runs.length - 5) / 2)).map (windowMatches (runs ++ [r]))).sum = finderCount runs :=
    congrArg List.sum (List.map_congr_left fun i hi => windowMatches_append (by rw [List.mem_range] at hi; omega) [r])
  rw [← hold, finderCount, List.length_append, List.length_singleton]
  have hmod := Nat.mod_two_of_bodd runs.length
  cases hb : runs.length.bodd with
  | true =>
    rw [hb, Bool.toNat_true] at hmod
    have hrange : (runs.length + 1 - 5) / 2 = (runs.length - 5) / 2 := by omega
    rw [hrange, if_neg Bool.noConfusion, Nat.add_zero]
  | false =>
    rw [hb, Bool.toNat_false] at hmod
    rw [if_pos rfl]
    rcases Nat.lt_or_ge runs.length 6 with hlen | hlen
    · have hrange : (runs.length + 1 - 5) / 2 = (runs.length - 5) / 2 := by omega
      rw [hrange, countPatterns_historyOf_of_length_lt (by simp; omega), Nat.add_zero]
    · have hrange : (runs.length + 1 - 5) / 2 = (runs.length - 5) / 2 + 1 := by omega
      have hlast : (runs ++ [r]).length = 2 * ((runs.length - 5) / 2) + 7 := by simp; omega
      rw [countPatterns_historyOf_of_length hlast, hrange, List.range_succ, List.map_append, List.sum_append,
        List.map_singleton, List.sum_singleton]

/-- What the scan holds of P3 after `line`, with the border of `c.size` light modules before it: the matches among the runs in
`done`. The current run, of length `n` with that border, is light exactly when their number is even. -/
structure FindersCounted (c : Cfg) (line : List Bool) (st : LineScan) (done : List Bool) (n : Nat) : Prop where
  line_eq : List.replicate c.size false ++ line = done ++ List.replicate n st.color
  last_ne : done.getLast? ≠ some st.color
  length_pos : 0 < n
  length_eq : n = if runLengths done = [] then st.run + c.size else st.run
  hist_eq : st.hist = historyOf (runLengths done)
  color_eq : (runLengths done).length.bodd = st.color
  p3_eq : st.p3 = finderCount (runLengths done) * c.n3

namespace FindersCounted

variable {c : Cfg} {line : List Bool} {st : LineScan} {done : List Bool} {n : Nat} (h : FindersCounted c line st done n)
include h

theorem runLengths_eq : runLengths (List.replicate c.size false ++ line) = runLengths done ++ [n] := by
  rw [h.line_eq, runLengths_append_replicate h.last_ne h.length_pos]

theorem getLast?_ne {b : Bool} (hb : b ≠ st.color) : (List.replicate c.size false ++ line).getLast? ≠ some b := by
  rw [h.line_eq]
  exact getLast?_append_replicate_ne (fun h0 => absurd h0 h.length_pos.ne') hb

/-- The history once the current run is pushed. -/
theorem addHist_eq : addHist c.size st.run st.hist = historyOf (runLengths (List.replicate c.size false ++ line)) := by
  rw [h.hist_eq, addHist_historyOf _ _ (zero_notMem_runLengths done), h.runLengths_eq, h.length_eq]

end FindersCounted

theorem findersCounted_foldl (c : Cfg) (line : List Bool) :
    ∃ done n, FindersCounted c line (line.foldl (scanModule c) LineScan.start) done n := by
  induction line using List.reverseRecOn with
  | nil =>
    exact ⟨[], c.size, List.append_nil _, by simp, size_pos c, by simp [runLengths, LineScan.start], rfl, rfl,
      by simp [LineScan.start, finderCount, runLengths]⟩
  | append_singleton line b ih =>
    rw [List.foldl_append]
    generalize line.foldl (scanModule c) LineScan.start = st at ih ⊢
    obtain ⟨done, n, h⟩ := ih
    rw [List.foldl_cons, List.foldl_nil, scanModule]
    split
    next hb =>
      refine ⟨done, n + 1, ?line, h.last_ne, n.succ_pos, ?length, h.hist_eq, h.color_eq, h.p3_eq⟩
      case line => rw [← List.append_assoc, h.line_eq, hb, List.append_assoc, ← List.replicate_succ']
      case length =>
        rw [h.length_eq]
        split
        · exact Nat.add_right_comm _ _ _
        · rfl
    next hb =>
      refine ⟨List.replicate c.size false ++ line, 1, by simp, h.getLast?_ne hb, one_pos, by simp [h.runLengths_eq],
        h.addHist_eq, ?color, ?p3⟩
      case color =>
        rw [h.runLengths_eq, List.length_append, List.length_singleton, Nat.bodd_succ, h.color_eq]
        exact (Bool.eq_not.2 hb).symm
      case p3 =>
        dsimp only
        rw [h.addHist_eq, h.runLengths_eq, finderCount_append_singleton, h.color_eq, h.p3_eq]
        split
        · rw [Nat.add_mul]
        · rw [Nat.add_zero]

/-- The border after the line is a run of its own after a dark run, and lengthens a light one (R430). -/
theorem finderCount_borderedRuns {c : Cfg} {line : List Bool} {st : LineScan} {done : List Bool} {n : Nat}
    (h : FindersCounted c line st done n) :
    finderCount (borderedRuns c.size line) = finderCount (runLengths done) + terminateAndCount c.size st := by
  unfold terminateAndCount borderedRuns
  split
  next hdark =>
    have hodd : (runLengths done).length.bodd = true := h.color_eq.trans hdark
    rw [runLengths_append_replicate (h.getLast?_ne (by simp [hdark])) (size_pos c), h.addHist_eq,
      addHist_historyOf _ _ (zero_notMem_runLengths _), h.runLengths_eq, finderCount_append_singleton,
      finderCount_append_singleton]
    simp [hodd]
  next hlight =>
    rw [Bool.not_eq_true] at hlight
    have heven : (runLengths done).length.bodd = false := h.color_eq.trans hlight
    have hruns : runLengths (List.replicate c.size false ++ line ++ List.replicate c.size false) =
        runLengths done ++ [n + c.size] := by
      rw [h.line_eq, hlight, List.append_assoc, List.replicate_append_replicate,
        runLengths_append_replicate (hlight ▸ h.last_ne) (Nat.add_pos_left h.length_pos _)]
    have hlength : n + c.size = if runLengths done = [] then st.run + c.size + c.size else st.run + c.size := by
      rw [h.length_eq]
      split <;> rfl
    rw [h.hist_eq, addHist_historyOf _ _ (zero_notMem_runLengths done), ← hlength, hruns, finderCount_append_singleton,
      if_pos heven]

theorem lineScore_snd (c : Cfg) (line : List Bool) : (lineScore c line).2 = finderCount (borderedRuns c.size line) * c.n3 := by
  obtain ⟨done, n, h⟩ := findersCounted_foldl c line
  rw [lineScore, h.p3_eq, finderCount_borderedRuns h, Nat.add_mul]

/-- Settles O52: the scan of a line, run by run. -/
theorem lineScoresFollowTheMaximalRuns : Obligations.LineScoresFollowTheMaximalRuns := by
  intro c line
  refine ⟨lineScore_fst c line, ?_⟩
  rw [lineScore_snd, finderCount_eq, Nat.mul_comm]
  rfl

end Sys2Proof.Machine
end

section
/-! PROOF. The thirty-two format words (R471 to R474): their division by 0x537 is additive over XOR, so they lie as far apart as
the nonzero code words are heavy. -/

namespace Sys2Proof.Machine

/-! ### The code words -/

/-- The code word of R472: the data above its remainder, before the format mask is added (R473). -/
def formatCode (d : BitVec 5) : BitVec 15 := d ++ formatBch d

theorem formatWord_eq_formatCode (e : Ecl) (m : BitVec 3) : formatWord e m = formatCode (formatData e m) ^^^ 0x5412#15 := by
  unfold formatWord
  rfl

theorem bchStep_xor (a b : BitVec 11) : bchStep (a ^^^ b) = bchStep a ^^^ bchStep b := by
  unfold bchStep
  rw [xor_xor_xor_comm, BitVec.shiftLeft_xor_distrib, BitVec.getLsbD_xor]
  cases a.getLsbD 9 <;> cases b.getLsbD 9 <;> rfl

theorem formatBch_xor (a b : BitVec 5) : formatBch (a ^^^ b) = formatBch a ^^^ formatBch b := by
  unfold formatBch
  rw [BitVec.setWidth_xor, foldl_xor fun z z' _ => bchStep_xor z z', BitVec.setWidth_xor]

theorem formatCode_xor (a b : BitVec 5) : formatCode (a ^^^ b) = formatCode a ^^^ formatCode b := by
  unfold formatCode
  rw [formatBch_xor, BitVec.xor_append]

/-! ### Their distance -/

/-- The number of bits that are 1. -/
def bitWeight (b : BitVec 15) : Nat := ((List.range 15).filter b.getLsbD).length

theorem bitWeight_xor (a b : BitVec 15) :
    bitWeight (a ^^^ b) = ((List.range 15).filter fun i => a.getLsbD i != b.getLsbD i).length := by
  unfold bitWeight
  congr 2
  funext i
  rw [BitVec.getLsbD_xor]

/-- The code is linear, so this weight is its distance. -/
theorem seven_le_bitWeight_formatCode : ∀ d : BitVec 5, d ≠ 0 → 7 ≤ bitWeight (formatCode d) := by decide

theorem eclBits_injective {e f : Ecl} (h : e.bits = f.bits) : e = f := by
  revert h
  cases e <;> cases f <;> decide

theorem formatData_injective {e f : Ecl} {m n : BitVec 3} (h : formatData e m = formatData f n) : (e, m) = (f, n) := by
  unfold formatData at h
  obtain rfl : m = n := by
    rw [← BitVec.extractLsb'_append_eq_right (a := e.bits) (b := m), h, BitVec.extractLsb'_append_eq_right]
  rw [eclBits_injective ((BitVec.append_left_inj m).1 h)]

/-- The mask of R473 cancels in the sum of two format words, which is a code word. -/
theorem formatWord_xor_formatWord (e f : Ecl) (m n : BitVec 3) :
    formatWord e m ^^^ formatWord f n = formatCode (formatData e m ^^^ formatData f n) := by
  rw [formatWord_eq_formatCode, formatWord_eq_formatCode, xor_xor_xor_cancel, formatCode_xor]

/-- Two format words differ in the bits of a nonzero code word (R474). -/
theorem seven_le_formatWord_distance (e f : Ecl) (m n : BitVec 3) (hne : (e, m) ≠ (f, n)) :
    7 ≤ ((List.range 15).filter fun i => (formatWord e m).getLsbD i != (formatWord f n).getLsbD i).length := by
  have hdata : formatData e m ^^^ formatData f n ≠ 0 := fun h => hne (formatData_injective (BitVec.xor_eq_zero_iff.1 h))
  rw [← bitWeight_xor, formatWord_xor_formatWord]
  exact seven_le_bitWeight_formatCode _ hdata

/-- Settles O39: the words by evaluation, their distance by the linearity of the code. -/
theorem formatWordTable : Obligations.FormatWordTable := by
  have hword : ∀ e, formatWord e = fun m => formatCode (formatData e m) ^^^ 0x5412#15 :=
    fun e => funext (formatWord_eq_formatCode e)
  refine ⟨?_, ?_, ?_, ?_, seven_le_formatWord_distance⟩ <;> rw [hword] <;> decide

end Sys2Proof.Machine
end

section
/-! PROOF. The cells of `draw_format` are 31 and always the same, so a redraw is all that is left of an earlier draw (R478). -/

namespace Sys2Proof.Machine

/-! ### The cells are distinct (R477, R479) -/

theorem nodup_formatCopy2 {size : Nat} (h : 17 ≤ size) : (formatCopy2 size).Nodup := by
  unfold formatCopy2
  refine List.Nodup.map_on (fun i hi j hj hij => ?_) List.nodup_range
  rw [List.mem_range] at hi hj
  split at hij <;> split at hij <;> rw [Prod.mk.injEq] at hij <;> omega

/-- Copy 1 lies in the first nine rows and columns, copy 2 in the last eight columns or the last seven rows; the dark module is
in neither. -/
theorem nodup_formatCells {size : Nat} (h : 17 ≤ size) : (formatCopy1 ++ formatCopy2 size ++ [(8, size - 8)]).Nodup := by
  rw [List.nodup_append', List.nodup_append', List.disjoint_singleton, List.mem_append, mem_formatCopy1,
    mem_formatCopy2 (by omega)]
  refine ⟨⟨by decide, nodup_formatCopy2 h, ?_⟩, List.nodup_singleton _, by omega⟩
  rintro ⟨x, y⟩ h1 h2
  rw [mem_formatCopy1] at h1
  rw [mem_formatCopy2 (by omega)] at h2
  omega

theorem length_formatWrites (size : Nat) (bits : BitVec 15) : (formatWrites size bits).length = 31 := by
  have h := congrArg List.length (formatWrites_cells size bits)
  simpa [formatCopy1, formatCopy2] using h

/-! ### One draw after another -/

section Admitted

variable {s : State} (ha : s.cfg.Admitted) (m n : BitVec 3)
include ha

/-- A function cell after `draw_format` was one before or is one of its cells, whatever the mask. -/
theorem get_fnPlane_drawFormat (y x : Nat) :
    (drawFormat m s).fnPlane.get y x = true ↔ s.fnPlane.get y x = true ∨ Claims.formatCell s.cfg x y := by
  rw [drawFormat_fnPlane, functions_drawAll _ _ (formatWrites_inWindow _ (size_bounds ha)), Bool.or_eq_true, any_at_iff,
    mem_writtenCells_formatWrites_iff]
  rfl

theorem fnPlane_drawFormat_congr : (drawFormat n s).fnPlane = (drawFormat m s).fnPlane :=
  plane_ext fun y _ x _ => by rw [Bool.eq_iff_iff, get_fnPlane_drawFormat ha, get_fnPlane_drawFormat ha]

theorem fnPlane_drawFormat_drawFormat : (drawFormat n (drawFormat m s)).fnPlane = (drawFormat m s).fnPlane :=
  plane_ext fun y _ x _ => by
    rw [Bool.eq_iff_iff, get_fnPlane_drawFormat (s := drawFormat m s) ha, get_fnPlane_drawFormat ha, drawFormat_cfg, or_assoc,
      or_self]

theorem drawFormat_drawFormat : drawFormat n (drawFormat m s) = drawFormat n s := by
  have hframe : drawFormat n (drawFormat m s) = { drawFormat n s with
      modPlane := (drawFormat n (drawFormat m s)).modPlane, fnPlane := (drawFormat n (drawFormat m s)).fnPlane } := rfl
  rw [hframe, modPlane_drawFormat_drawFormat ha, fnPlane_drawFormat_drawFormat ha, ← fnPlane_drawFormat_congr ha m n]

end Admitted

/-- Settles O40: the cells do not depend on the word, so the later draw writes each of them again. -/
theorem laterFormatDrawOverwritesTheEarlier : Obligations.LaterFormatDrawOverwritesTheEarlier := by
  refine ⟨fun c b d hc => ⟨?_, ?_, length_formatWrites c.size b⟩,
    fun m n s ha => ⟨drawFormat_drawFormat ha m n, fnPlane_drawFormat_drawFormat ha m n⟩⟩
  · rw [formatWrites_cells, formatWrites_cells]
  · have hsize := size_bounds hc
    rw [formatWrites_cells]
    exact nodup_formatCells (by omega)

end Sys2Proof.Machine
end

section
/-! PROOF. What the host's reference function fits (R506): beside the bytes there are twelve bits of header, and the four
bits that they leave of a second byte are no room for another one. -/

namespace Sys2Proof.Machine

/-- The two limits of the one segment (R504): its count has eight bits, and a count of eight bits keeps the sum below 2 ^ 31. -/
theorem totalBitsFrom_makeSegments (text : List Byte) :
    totalBitsFrom (makeSegments text) 0 = if text.length ≤ 255 then some (12 + 8 * text.length) else none := by
  simp only [makeSegments, totalBitsFrom]
  split
  case isTrue htoo => rw [if_neg (by omega)]
  case isFalse hfits => rw [if_pos (by omega), Nat.zero_add]

/-- The function overflows where the count is too long for its field or the bits for the symbol; otherwise it packs one byte
for each data codeword (R505). -/
theorem hostCodewordsOf_cases (c : Cfg) (text : List Byte) :
    (hostCodewordsOf c text = none ∧ ¬(text.length ≤ 255 ∧ 12 + 8 * text.length ≤ c.dataCodewords * 8)) ∨
      ∃ ds, hostCodewordsOf c text = some ds ∧ ds.length = c.dataCodewords ∧
        text.length ≤ 255 ∧ 12 + 8 * text.length ≤ c.dataCodewords * 8 := by
  simp only [hostCodewordsOf, totalBitsFrom_makeSegments]
  by_cases hcount : text.length ≤ 255
  · simp only [if_pos hcount]
    by_cases hbits : 12 + 8 * text.length > c.dataCodewords * 8
    · exact .inl ⟨if_pos hbits, fun h => absurd h.2 (Nat.not_le.2 hbits)⟩
    · exact .inr ⟨_, if_neg hbits, by rw [List.length_map, List.length_range], hcount, Nat.not_lt.1 hbits⟩
  · simp only [if_neg hcount]
    exact .inl ⟨trivial, fun h => hcount h.1⟩

/-- Settles O60: the bits used fit `8 * DATA_CODEWORDS` just when the bytes fit `DATA_CODEWORDS - 2`. -/
theorem hostCodewordsFillTheCapacity : Obligations.HostCodewordsFillTheCapacity := by
  intro c text
  obtain ⟨hnone, hover⟩ | ⟨ds, hsome, hlen, hcount, hbits⟩ := hostCodewordsOf_cases c text
  · simp only [hnone, reduceCtorEq, exists_false, iff_false, false_implies, implies_true, and_true]
    omega
  · simp only [hsome, Option.some.injEq, exists_eq', iff_true, reduceCtorEq, imp_false, forall_eq', hlen, and_true]
    omega

end Sys2Proof.Machine
end

section
/-! PROOF. Control (R540 to R545): the phase table, and ENCODE as the five construction commands in turn. -/

namespace Sys2Proof.Machine

/-! ### The phase check (R541) -/

theorem mem_allPhases (p : Phase) : p ∈ [Phase.idle, .init, .func, .eccd, .placed, .done, .fault] := by
  cases p <;> decide

/-- Outside its phases a command does nothing but raise SEQUENCE. -/
theorem bodyOf_of_not_allowed {i : Instr} {s : State} (h : s.phase ∉ allowedPhases i) : bodyOf i s = .reject .sequence := by
  cases i with
  | nop | init | encode | gfmul | rsrem => exact absurd (mem_allPhases s.phase) h
  | drawfn | ecc | place | trial | commit | penalty => exact requirePhase_neg h _

/-! ### Accepted commands -/

/-- The error record: ERR, ERRCODE, ERRINFO and ERROVF (R610). -/
def State.errorRecord (s : State) := (s.err, s.errCode, s.errInfo, s.errOvf)

/-- A body that started in `s` runs to its last write, records no error and leaves PHASE `p`. -/
def CmdResult.Succeeds (r : CmdResult) (s : State) (p : Phase) : Prop :=
  ∃ t, r = .done t ∧ t.phase = p ∧ t.errorRecord = s.errorRecord

/-- Once the patterns are drawn the function plane is theirs (R97). -/
theorem fnPlane_of_patternsDrawn {s : State} {p : Phase} (hf : s.FunctionsWf) (hp : s.phase ∈ [p])
    (hd : p.patternsDrawn = true) : s.fnPlane = (functionPatterns s.cfg).functions :=
  hf.2 (by rw [List.mem_singleton.1 hp, hd])

theorem maskOperand_of_namesMask {m : BitVec 4} (h : namesMask m = true) : maskOperand m = .mask (m.setWidth 3) :=
  if_pos (of_decide_eq_true h)

/-- A mask operand that COMMIT and ENCODE admit is not out of range (R210). -/
theorem maskOperand_ne_outOfRange {m : BitVec 4} (h : (namesMask m || asksAuto m) = true) : maskOperand m ≠ .outOfRange := by
  revert m; decide

/-- COMMIT with an operand in range commits that mask, or the best of the eight trials (R390). -/
theorem commitBody_succeeds {m : BitVec 4} {s : State} (ha : s.cfg.Admitted)
    (hf : s.fnPlane = (functionPatterns s.cfg).functions) (hm : maskOperand m ≠ .outOfRange) :
    (commitBody m s).Succeeds s .done := by
  unfold commitBody
  cases h : maskOperand m with
  | mask k => exact ⟨commitMask k s, rfl, rfl, rfl⟩
  | auto =>
    have htrials := (trialsRecorded_afterTrials ha hf allMasks).frame
    dsimp only
    rw [trialsBody_eq]
    generalize afterTrials allMasks (clearBest s) = t at htrials ⊢
    exact ⟨commitMask t.best t, rfl, rfl, (congrArg State.errorRecord htrials :)⟩
  | outOfRange => exact absurd h hm

/-- The bodies of a construction, each run on what the one before left, go through to the end (R545). -/
theorem construction_succeeds {m : BitVec 4} {s : State} (ha : s.cfg.Admitted) (hm : maskOperand m ≠ .outOfRange) :
    ∃ u v, eccBody (drawfnBody (initBody s)) = .done u ∧ u.phase = .eccd ∧ placeBody u = .done v ∧ v.phase = .placed ∧
      (commitBody m v).Succeeds s .done := by
  have hf : (drawfnBody (initBody s)).fnPlane = (functionPatterns s.cfg).functions := fnPlane_drawfnBody rfl
  exact ⟨_, _, eccBody_eq ha, rfl, placeBody_eq ha hf, rfl, commitBody_succeeds ha hf hm⟩

/-- ENCODE with an operand in range and a full DATA buffer runs those bodies (R545). -/
theorem encodeBody_eq {m : BitVec 4} {s u v : State} (hm : maskOperand m ≠ .outOfRange)
    (hd : s.dlen.toNat = s.cfg.dataCodewords) (hu : eccBody (drawfnBody (initBody s)) = .done u) (hv : placeBody u = .done v) :
    encodeBody m s = commitBody m v := by
  rw [encodeBody, if_neg hm, requireDataLength_pos hd, hu, andThen_done, hv, andThen_done]

/-- An accepted command runs to its last write: the checks of its body pass, and the three Faults are not reached. -/
theorem bodyOf_succeeds {i : Instr} {s : State} (ha : s.cfg.Admitted) (hf : s.FunctionsWf) (h : Accepts i s) :
    (bodyOf i s).Succeeds s (phaseAfter i s.phase) := by
  obtain ⟨hp, hw, hd⟩ := h
  cases i with
  | nop => exact ⟨s, rfl, rfl, rfl⟩
  | init => exact ⟨initBody s, rfl, rfl, rfl⟩
  | drawfn => exact ⟨drawfnBody s, requirePhase_pos hp _, rfl, rfl⟩
  | ecc =>
    exact ⟨_, (requirePhase_pos hp _).trans ((requireDataLength_pos (hd rfl) _).trans (eccBody_eq ha)), rfl, rfl⟩
  | place =>
    exact ⟨_, (requirePhase_pos hp _).trans (placeBody_eq ha (fnPlane_of_patternsDrawn hf hp rfl)), rfl, rfl⟩
  | trial m =>
    have htrial := afterTrial_eq_withTrials ha (fnPlane_of_patternsDrawn hf hp rfl) (m.setWidth 3)
    have hbody : bodyOf (.trial m) s = trialBody (m.setWidth 3) s := by
      rw [bodyOf, maskOperand_of_namesMask hw]
      exact requirePhase_pos hp _
    exact ⟨_, hbody.trans (trialBody_eq _ s), (afterTrial_phase _ s).trans (List.mem_singleton.1 hp),
      (congrArg State.errorRecord htrial :)⟩
  | commit m =>
    have hbody : bodyOf (.commit m) s = commitBody m s := requirePhase_pos hp _
    rw [hbody]
    exact commitBody_succeeds ha (fnPlane_of_patternsDrawn hf hp rfl) (maskOperand_ne_outOfRange hw)
  | penalty => exact ⟨_, (requirePhase_pos hp _).trans (evaluatePenalty_eq s), rfl, rfl⟩
  | encode m =>
    have hm := maskOperand_ne_outOfRange hw
    obtain ⟨u, v, hu, -, hv, -, hc⟩ := construction_succeeds ha hm
    rw [bodyOf, encodeBody_eq hm (hd rfl) hu hv]
    exact hc
  | gfmul a b => exact ⟨gfmulBody a b s, rfl, rfl, rfl⟩
  | rsrem => exact ⟨rsremBody s, rfl, rfl, rfl⟩

/-- Settles O12: the phase check comes first, and a body that succeeds is only completed. -/
theorem phaseTableHolds : Obligations.PhaseTableHolds := by
  intro i s ha hf
  rw [exec_eq_finish]
  refine ⟨fun h => by rw [bodyOf_of_not_allowed h, finish_reject], fun h => ?_⟩
  obtain ⟨t, ht, hp, he⟩ := bodyOf_succeeds ha hf h
  simp only [State.errorRecord, Prod.mk.injEq] at he
  exact ⟨complete t, by rw [ht, finish_done], hp, he⟩

/-! ### No command reads IRQ or BUSY (R620) -/

/-- The result with the completion of an earlier command in its states. -/
def CmdResult.completed : CmdResult → CmdResult
  | .done t => .done (complete t)
  | .reject c => .reject c
  | .fault c t => .fault c (complete t)

theorem paddedBlocks_complete (s : State) : paddedBlocks (complete s) = paddedBlocks s := by
  unfold paddedBlocks; rfl

theorem eccBody_complete (s : State) : eccBody (complete s) = (eccBody s).completed := by
  rw [eccBody, eccBody, paddedBlocks_complete, apply_ite CmdResult.completed]
  rfl

theorem placeScan_complete (s : State) : placeScan (complete s) = placeScan s := by
  unfold placeScan; rfl

theorem placeBody_complete (s : State) : placeBody (complete s) = (placeBody s).completed := by
  rw [placeBody, placeBody, placeScan_complete, apply_ite CmdResult.completed]
  rfl

theorem updateBest_complete (m : BitVec 3) (p : Word) (s : State) :
    updateBest m p (complete s) = complete (updateBest m p s) := by
  rw [updateBest_eq, updateBest_eq]; rfl

theorem afterTrial_complete (m : BitVec 3) (s : State) : afterTrial m (complete s) = complete (afterTrial m s) := by
  unfold afterTrial
  exact congrArg (applyMask m) (updateBest_complete m _ (recordTrial m _ (setPenalties _ (drawFormat m (applyMask m s)))))

theorem afterTrials_complete (ms : List (BitVec 3)) (s : State) : afterTrials ms (complete s) = complete (afterTrials ms s) := by
  induction ms generalizing s with
  | nil => rfl
  | cons m ms ih => exact (congrArg (afterTrials ms) (afterTrial_complete m s)).trans (ih (afterTrial m s))

theorem commitBody_complete (m : BitVec 4) (s : State) : commitBody m (complete s) = (commitBody m s).completed := by
  unfold commitBody
  cases maskOperand m with
  | mask k => rfl
  | auto =>
    have h : afterTrials allMasks (clearBest (complete s)) = complete (afterTrials allMasks (clearBest s)) :=
      afterTrials_complete allMasks (clearBest s)
    dsimp only
    rw [trialsBody_eq, trialsBody_eq, h]
    rfl
  | outOfRange => rfl

/-! ### ENCODE (R545) -/

@[simp] theorem complete_complete (s : State) : complete (complete s) = complete s := rfl

/-- A command whose body runs to its last write completes with it (R540). -/
theorem exec_of_bodyOf {i : Instr} {s t : State} (h : bodyOf i s = .done t) : exec i s = .next (complete t) := by
  rw [exec_eq_finish, h, finish_done]

/-- The same after an earlier command, whose completion is still to be seen in IRQ and BUSY. -/
theorem exec_complete {i : Instr} {s t : State} (h : bodyOf i (complete s) = .done (complete t)) :
    exec i (complete s) = .next (complete t) := by
  rw [exec_of_bodyOf h, complete_complete]

theorem requirePhase_complete {p : Phase} {s : State} (h : s.phase = p) (b : CmdResult) :
    requirePhase [p] (complete s) b = b :=
  requirePhase_pos (List.mem_singleton.2 h) b

/-- Settles O57: the bodies are those of ENCODE, and the completions between them change nothing that a later body reads. -/
theorem encodeEqualsTheStepwiseSequence : Obligations.EncodeEqualsTheStepwiseSequence := by
  rintro m s ha ⟨-, hw, hd⟩
  replace hd := hd rfl
  have hm := maskOperand_ne_outOfRange hw
  obtain ⟨u, v, hu, hup, hv, hvp, t, ht, htp, hte⟩ := construction_succeeds ha hm
  have hdrawfn : bodyOf .drawfn (complete (initBody s)) = .done (complete (drawfnBody (initBody s))) :=
    requirePhase_complete rfl _
  have hecc : bodyOf .ecc (complete (drawfnBody (initBody s))) = .done (complete u) := by
    rw [bodyOf, requirePhase_complete (drawfnBody_phase _),
      requireDataLength_pos (s := complete (drawfnBody (initBody s))) hd, eccBody_complete, hu]
    rfl
  have hplace : bodyOf .place (complete u) = .done (complete v) := by
    rw [bodyOf, requirePhase_complete hup, placeBody_complete, hv]
    rfl
  have hcommit : bodyOf (.commit m) (complete v) = .done (complete t) := by
    rw [bodyOf, requirePhase_complete hvp, commitBody_complete, ht]
    rfl
  have hencode : bodyOf (.encode m) s = .done t := (encodeBody_eq hm hd hu hv).trans ht
  exact ⟨_, _, _, _, _, exec_of_bodyOf (i := .init) rfl, exec_complete hdrawfn, exec_complete hecc, exec_complete hplace,
    exec_complete hcommit, exec_of_bodyOf hencode, htp, congrArg Prod.fst hte⟩

/-! ### INIT and NOP -/

/-- Settles O36: the planes that INIT writes are light, and the rest is its body's own list. -/
theorem initStartsAConstruction : Obligations.InitStartsAConstruction := fun _ =>
  ⟨Plane.light, Plane.light, Vector.replicate 8 0, exec_of_bodyOf (i := .init) rfl,
    fun y _ x _ => ⟨get_light y x, get_light y x⟩, fun m hm => by simp [hm]⟩

/-- Settles O56: NOP's body writes nothing, and completing it sets IRQ and clears BUSY. -/
theorem nopOnlyCompletes : Obligations.NopOnlyCompletes := fun _ => exec_of_bodyOf (i := .nop) rfl

end Sys2Proof.Machine
end

section
/-! PROOF. The step of the command in flight, and the events of a wait (R540, R232). -/

namespace Sys2Proof.Machine

section Ready

variable {s : State} (hb : s.busy = true) (hr : s.rstN = true)
include hb hr

/-- With a command in flight and out of reset the Engine's turn runs the command that PENDING decodes to. -/
theorem engineTurn_of_decode {i : Instr} (hi : decode s.pending = .ok i) : engineTurn s = exec i s := by
  obtain ⟨-, -, e⟩ | ⟨hn, -⟩ := engineTurn_cases s
  · rw [e, engineStep, hi]
  · exact absurd ⟨hb, hr⟩ hn

/-- A wait whose latency has passed lets the command run, and is still to be finished (R232). -/
theorem hostWait_of_decode {i : Instr} (hi : decode s.pending = .ok i) :
    hostWait 0 s = exec i { s with schedule := .waitIdle 0 :: s.schedule } := by
  obtain ⟨-, -, -, e⟩ | ⟨hn, -⟩ | ⟨hn, -⟩ := hostWait_cases 0 s
  · rw [e, engineStep]
    simp only [hi]
  all_goals exact absurd ⟨rfl, hb, hr⟩ hn

/-- Before that it reads STATUS and goes on (R232). -/
theorem hostWait_of_busy {polls : Nat} (hpos : 0 < polls) :
    hostWait polls s = .next { s with rdata := statusWord s, schedule := .waitIdle (polls - 1) :: s.schedule } := by
  obtain ⟨h0, -⟩ | ⟨-, -, e⟩ | ⟨-, h, -⟩ := hostWait_cases polls s
  · exact absurd h0 hpos.ne'
  · rw [e, hostRead_status hr]
  · rw [hostRead_status hr, statusWord_busy s, hb] at h
    cases h

end Ready

/-- With no command in flight a wait is over with its first read of STATUS (R232). -/
theorem hostWait_of_idle {s : State} (polls : Nat) (hb : s.busy = false) (hr : s.rstN = true) :
    hostWait polls s = .next { s with rdata := statusWord s } := by
  obtain ⟨-, h, -⟩ | ⟨-, h, -⟩ | ⟨-, -, e⟩ := hostWait_cases polls s
  · exact absurd (hb.symm.trans h) Bool.false_ne_true
  · rw [hostRead_status hr, statusWord_busy s, hb] at h
    cases h
  · rw [e, hostRead_status hr]

theorem step_waitIdle {s : State} {polls : Nat} {rest : List Event} (ha : s.cfg.Admitted)
    (hs : s.schedule = .waitIdle polls :: rest) : step s = hostWait polls { s with schedule := rest } := by
  rw [step, if_pos ha, hs]

/-- Settles O5, by the event that comes next. -/
theorem stepRunsTheDecodedCommand : Obligations.StepRunsTheDecodedCommand := by
  refine ⟨fun s i ha hb hr hi => ⟨fun hs => ?empty, fun rest hs => ?turn, fun rest hs => ?wait⟩,
    fun s polls rest ha hr hs => ⟨fun hb hpos => ?busy, fun hb => ?idle⟩⟩
  case empty =>
    rw [step, if_pos ha, hs]
    exact engineTurn_of_decode hb hr hi
  case turn =>
    rw [step, if_pos ha, hs]
    exact engineTurn_of_decode (s := { s with schedule := rest }) hb hr hi
  case wait =>
    rw [step_waitIdle ha hs, hostWait_of_decode (s := { s with schedule := rest }) hb hr hi, ← hs]
  case busy => exact (step_waitIdle ha hs).trans (hostWait_of_busy (s := { s with schedule := rest }) hb hr hpos)
  case idle => exact (step_waitIdle ha hs).trans (hostWait_of_idle (s := { s with schedule := rest }) polls hb hr)

end Sys2Proof.Machine
end

section
/-! PROOF. Errors (R602, R603, R610 to R613): which one a command reports, what recording it leaves, and how a STATUS write
clears it. -/

namespace Sys2Proof.Machine

/-! ### The error record -/

/-- The first error since ERR was last cleared is kept (R610). -/
theorem recordError_of_no_err {s : State} (h : s.err = false) (c : ErrCode) (info : Word) :
    recordError c info s = { s with err := true, errCode := some c, errInfo := info } :=
  if_neg (ne_true_of_eq_false h)

/-- A later error only sets ERROVF (R610). -/
theorem recordError_of_err {s : State} (h : s.err = true) (c : ErrCode) (info : Word) :
    recordError c info s = { s with errOvf := true } :=
  if_pos h

/-- Settles O15: a Reject is the record of its error, completed, and a Fault sets PHASE besides. -/
theorem errorsAreRecordedOnceAndComplete : Obligations.ErrorsAreRecordedOnceAndComplete := by
  refine fun c s => ⟨fun h => ?_, fun h => ?_, raiseFault_eq c s⟩
  · rw [raiseReject, recordError_of_no_err h, complete]
  · rw [raiseReject, recordError_of_err h, complete]

/-! ### The first error that applies (R602) -/

/-- A mask operand that is neither a mask nor auto is out of range (R210). -/
theorem maskOperand_eq_outOfRange {m : BitVec 4} (h : (namesMask m || asksAuto m) = false) : maskOperand m = .outOfRange := by
  revert m; decide

/-- In its phases a command whose mask operand is out of range raises MASK_RANGE, whatever DLEN is (R386, R390, R545). -/
theorem bodyOf_of_not_wellFormed {i : Instr} {s : State} (hp : s.phase ∈ allowedPhases i) (hw : i.wellFormed = false) :
    bodyOf i s = .reject .maskRange := by
  cases i with
  | nop | init | drawfn | ecc | place | penalty | gfmul | rsrem => cases hw
  | trial m =>
    refine (requirePhase_pos hp _).trans ?_
    obtain ⟨hm, -⟩ | ⟨-, e⟩ | ⟨-, -, e⟩ := maskOperand_cases m
    · exact absurd hm (of_decide_eq_false hw)
    · rw [e]
    · rw [e]
  | commit m =>
    refine (requirePhase_pos hp _).trans ?_
    rw [commitBody, maskOperand_eq_outOfRange hw]
  | encode m => exact if_pos (maskOperand_eq_outOfRange hw)

/-- With its other checks met a command that needs DATA raises DATA_LENGTH where DLEN is another length (R270). -/
theorem bodyOf_of_dlen_ne {i : Instr} {s : State} (hp : s.phase ∈ allowedPhases i) (hw : i.wellFormed = true)
    (hc : checksDataLength i = true) (hd : s.dlen.toNat ≠ s.cfg.dataCodewords) : bodyOf i s = .reject .dataLength := by
  cases i with
  | nop | init | drawfn | place | trial | commit | penalty | gfmul | rsrem => cases hc
  | ecc => exact (requirePhase_pos hp _).trans (requireDataLength_neg hd _)
  | encode m => exact (if_neg (maskOperand_ne_outOfRange hw)).trans (requireDataLength_neg hd _)

/-- The checks of a body come in the order of R602. -/
theorem bodyOf_of_firstReject {i : Instr} {s : State} {c : ErrCode} (h : firstReject i s = some c) :
    bodyOf i s = .reject c := by
  unfold firstReject at h
  split_ifs at h with hp hw hd <;> cases h
  · exact bodyOf_of_not_wellFormed hp hw
  · exact bodyOf_of_dlen_ne hp (eq_true_of_ne_false hw) hd.1 hd.2
  · exact bodyOf_of_not_allowed hp

/-- No check rejects exactly the accepted commands. -/
theorem firstReject_eq_none_iff (i : Instr) (s : State) : firstReject i s = none ↔ Accepts i s := by
  unfold firstReject
  split_ifs with hp hw hd
  · exact iff_of_false nofun fun ⟨_, h, _⟩ => ne_true_of_eq_false hw h
  · exact iff_of_false nofun fun ⟨_, _, h⟩ => hd.2 (h hd.1)
  · exact iff_of_true rfl ⟨hp, eq_true_of_ne_false hw, fun hc => by_contra fun hn => hd ⟨hc, hn⟩⟩
  · exact iff_of_false nofun fun ⟨h, _⟩ => hp h

theorem engineStep_of_encode {i : Instr} {s : State} (h : s.pending = encode i) : engineStep s = exec i s := by
  rw [engineStep, h, decode_encode]

/-- A command in flight that a check rejects ends in that Reject. -/
theorem engineStep_of_firstReject {i : Instr} {s : State} {c : ErrCode} (hi : s.pending = encode i)
    (h : firstReject i s = some c) : engineStep s = .next (raiseReject c s) := by
  rw [engineStep_of_encode hi, exec_eq_finish, bodyOf_of_firstReject h, finish_reject]

/-- Settles O13: an illegal word does not decode, the checks come in their order, and an accepted command succeeds. -/
theorem theFirstErrorThatAppliesIsReported : Obligations.TheFirstErrorThatAppliesIsReported := by
  refine fun s => ⟨engineStep_of_illegalWord, fun i c => engineStep_of_firstReject, fun i ha hf hi h => ?_⟩
  have haccepts := (firstReject_eq_none_iff i s).1 h
  obtain ⟨t, ht, -, herr, hcode, -, hovf⟩ := (phaseTableHolds i s ha hf).2 haccepts
  exact ⟨t, (engineStep_of_encode hi).trans ht, herr, hcode, hovf⟩

/-! ### Precise Rejects (R603) -/

/-- A word that is no command, or a command that is not accepted, ends in a Reject. -/
theorem engineStep_of_not_accepted {s : State}
    (h : Claims.IllegalWord s.pending ∨ ∃ i, s.pending = encode i ∧ ¬ Accepts i s) :
    ∃ c, engineStep s = .next (raiseReject c s) := by
  obtain hill | ⟨i, hi, hna⟩ := h
  · exact ⟨.illegal, engineStep_of_illegalWord hill⟩
  · obtain ⟨c, hc⟩ := Option.ne_none_iff_exists'.1 (mt (firstReject_eq_none_iff i s).1 hna)
    exact ⟨c, engineStep_of_firstReject hi hc⟩

/-- Settles O14: the step is a Reject, whose writes are those of `raiseReject_eq`. -/
theorem rejectIsPrecise : Obligations.RejectIsPrecise := by
  intro s h
  obtain ⟨c, hc⟩ := engineStep_of_not_accepted h
  refine ⟨_, hc, ?_⟩
  rw [raiseReject_eq]
  exact ⟨rfl, rfl, rfl, fun herr => by simp [herr], rfl⟩

/-! ### STATUS writes (R612) -/

theorem hostWrite_status {a : Offset} {s : State} (v : Word) (hr : s.rstN = true) (h : decodeOffset a = .status) :
    hostWrite a v s = clearFlags v s := by
  simp [hostWrite, h, hr]

/-- Settles O16: a write to the STATUS word clears the flags, whatever BUSY is. -/
theorem statusWriteClearsOnlyTheWrittenFlags : Obligations.StatusWriteClearsOnlyTheWrittenFlags := by
  intro a v s hr ha
  rw [hostWrite_status v hr ((decodeOffset_of_aligned ha).trans (by decide)), clearFlags]
  simp [Bool.and_comm]

/-! ### Writes to an Engine input while a command is in flight (R613) -/

/-- The words whose writes R160(b) drops while BUSY = 1. -/
def BusWord.engineInput : BusWord → Bool
  | .cmd | .dlen | .data _ | .modRow _ _ => true
  | _ => false

theorem engineInput_decodeOffset_iff (a : Offset) :
    (decodeOffset a).engineInput = true ↔ Claims.EngineInput (a &&& 0xFFC).toNat := by
  have hlow : ∀ w ≤ 22, (lowRegisters.getD w .reserved).engineInput = true ↔ Claims.EngineInput (4 * w) := by
    unfold Claims.EngineInput; decide
  rw [toNat_aligned, decodeOffset]
  rcases busWordAt_cases (a.toNat / 4) with ⟨hw, e⟩ | ⟨hw, e⟩ | ⟨hw, e⟩ | ⟨hw, e⟩ | ⟨hw, e⟩ | ⟨hw, e⟩ | ⟨hw, e⟩ | ⟨hw, e⟩ |
    ⟨hw, e⟩ | ⟨hw, e⟩ <;> rw [e]
  · exact hlow _ hw
  all_goals
    simp only [BusWord.engineInput, Claims.EngineInput, Bool.false_eq_true, true_iff, false_iff]
    omega

/-- A dropped write leaves nothing but its error record. -/
theorem hostWrite_of_busy {a : Offset} {s : State} (v : Word) (hr : s.rstN = true) (hb : s.busy = true)
    (h : (decodeOffset a).engineInput = true) :
    hostWrite a v s = recordError .busy (BitVec.ofNat 32 (a &&& 0xFFC).toNat) s := by
  rw [BitVec.ofNat_toNat]
  cases e : decodeOffset a with
  | cmd | dlen | data _ | modRow _ _ => simp [hostWrite, e, hr, unlessBusy, hb]
  | _ => rw [e] at h; cases h

/-- Settles O17, by whether an error is recorded already. -/
theorem busyWriteIsDroppedAndRecorded : Obligations.BusyWriteIsDroppedAndRecorded := by
  intro a v s hr hb ha
  rw [hostWrite_of_busy v hr hb ((engineInput_decodeOffset_iff a).2 ha)]
  exact ⟨fun h => recordError_of_no_err h _ _, fun h => recordError_of_err h _ _⟩

end Sys2Proof.Machine
end

section
/-! PROOF. Over all steps: who changes the configuration (nobody, R702), and who sets and clears IRQ (R620). -/

namespace Sys2Proof.Machine

/-! ### What a step can be -/

/-- With a command in flight the next event of the schedule, or its end, is one at which the Engine takes its step (R50). -/
abbrev State.EngineMoves (s : State) : Prop :=
  s.busy = true ∧ (s.schedule = [] ∨ (∃ rest, s.schedule = .engineTurn :: rest) ∨ ∃ rest, s.schedule = .waitIdle 0 :: rest)

theorem hostRead_eq (a : Offset) (s : State) : ∃ r n, hostRead a s = { s with rdata := r, draws := n } := by
  unfold hostRead
  split <;> exact ⟨_, _, rfl⟩

/-- By what it may change a step is the Engine's step, an event that changes no register (the Engine idle, or a read), a host
write, or a level of the reset input. -/
theorem step_effect {s t : State} (h : step s = .next t) :
    (s.EngineMoves ∧ ∃ events, engineStep { s with schedule := events } = .next t) ∨
      (∃ events r n, t = { s with schedule := events, rdata := r, draws := n }) ∨
      (∃ a v rest, s.schedule = .write a v :: rest ∧ t = hostWrite a v { s with schedule := rest }) ∨
      ∃ level rest, s.schedule = .rstN level :: rest ∧ t = driveReset level { s with schedule := rest } := by
  obtain ⟨-, ⟨hs, hn⟩ | ⟨rest, hs, hn⟩ | ⟨polls, rest, hs, hn⟩ | ⟨a, rest, -, rfl⟩ | hwrite | hreset⟩ := step_cases h
  · obtain ⟨hb, -, e⟩ | ⟨-, e⟩ := engineTurn_cases s <;> rw [e] at hn
    · exact .inl ⟨⟨hb, .inl hs⟩, s.schedule, hn⟩
    · cases hn; exact .inr (.inl ⟨_, _, _, rfl⟩)
  · obtain ⟨hb, -, e⟩ | ⟨-, e⟩ := engineTurn_cases { s with schedule := rest } <;> rw [e] at hn
    · exact .inl ⟨⟨hb, .inr (.inl ⟨rest, hs⟩)⟩, rest, hn⟩
    · cases hn; exact .inr (.inl ⟨_, _, _, rfl⟩)
  · obtain ⟨r, n, hread⟩ := hostRead_eq 0x014 { s with schedule := rest }
    obtain ⟨rfl, hb, -, e⟩ | ⟨-, -, e⟩ | ⟨-, -, e⟩ := hostWait_cases polls { s with schedule := rest } <;> rw [e] at hn
    · exact .inl ⟨⟨hb, .inr (.inr ⟨rest, hs⟩)⟩, _, hn⟩
    · cases hn; rw [hread]; exact .inr (.inl ⟨_, _, _, rfl⟩)
    · cases hn; rw [hread]; exact .inr (.inl ⟨_, _, _, rfl⟩)
  · obtain ⟨r, n, hread⟩ := hostRead_eq a { s with schedule := rest }
    rw [hread]
    exact .inr (.inl ⟨_, _, _, rfl⟩)
  · exact .inr (.inr (.inl hwrite))
  · exact .inr (.inr (.inr hreset))

/-! ### The configuration (R702) -/

/-- The Engine's step writes the host's side of the block no more than a command does: an illegal word leaves only the record
of its Reject. -/
theorem engineStep_inputs {s t : State} (h : engineStep s = .next t) : t.inputs = s.inputs := by
  unfold engineStep at h
  split at h
  · exact exec_inputs h
  · cases h; rw [raiseReject_eq_withRecord]; rfl

theorem engineStep_cfg {s t : State} (h : engineStep s = .next t) : t.cfg = s.cfg :=
  congrArg Prod.fst (engineStep_inputs h)

theorem hostWrite_cfg (a : Offset) (v : Word) (s : State) : (hostWrite a v s).cfg = s.cfg :=
  (congrArg State.cfg (hostWrite_frame a v s) :)

/-- A reset elaborates nothing again (R702). -/
theorem driveReset_cfg (level : Bool) (s : State) : (driveReset level s).cfg = s.cfg := by
  obtain ⟨-, -, e⟩ | ⟨-, e⟩ := driveReset_cases level s <;> exact (congrArg State.cfg e :)

/-- Settles O7, by what the step can be. -/
theorem noStepChangesTheConfiguration : Obligations.NoStepChangesTheConfiguration := by
  intro s t h
  obtain ⟨-, events, hn⟩ | ⟨events, r, n, rfl⟩ | ⟨a, v, rest, -, rfl⟩ | ⟨level, rest, -, rfl⟩ := step_effect h
  · exact engineStep_cfg (s := { s with schedule := events }) hn
  · rfl
  · exact hostWrite_cfg a v { s with schedule := rest }
  · exact driveReset_cfg level { s with schedule := rest }

/-! ### IRQ (R620) -/

/-- STATUS stands at one offset only (R55). -/
theorem aligned_of_decodeOffset_status {a : Offset} (h : decodeOffset a = .status) : a &&& 0xFFC = 0x014 := by
  have hlow : ∀ w ≤ 22, lowRegisters.getD w .reserved = .status → w = 5 := by decide
  refine BitVec.eq_of_toNat_eq ((toNat_aligned a).trans ?_)
  rw [decodeOffset] at h
  obtain ⟨hw, e⟩ | ⟨-, e⟩ | ⟨-, e⟩ | ⟨-, e⟩ | ⟨-, e⟩ | ⟨-, e⟩ | ⟨-, e⟩ | ⟨-, e⟩ | ⟨-, e⟩ | ⟨-, e⟩ :=
    busWordAt_cases (a.toNat / 4) <;> rw [e] at h
  · rw [hlow _ hw h]; rfl
  all_goals cases h

/-- The BUSY error leaves IRQ alone, so a write to an Engine input does what the accepted write does to it (R613). -/
theorem unlessBusy_irq (a : Offset) {s t : State} (h : t.irq = s.irq) : (unlessBusy a s t).irq = s.irq := by
  unfold unlessBusy
  split
  · exact recordError_irq _ _ _
  · exact h

theorem writeModRow_irq (y h : Nat) (v : Word) (s : State) : (writeModRow y h v s).irq = s.irq :=
  (congrArg State.irq (writeModRow_frame y h v s) :)

/-- A host write leaves IRQ alone, unless it writes 1 to STATUS bit 6, which clears it (R612). -/
theorem hostWrite_irq_cases (a : Offset) (v : Word) (s : State) :
    (hostWrite a v s).irq = s.irq ∨ (hostWrite a v s).irq = false ∧ a &&& 0xFFC = 0x014 ∧ v.getLsbD 6 = true := by
  cases hr : s.rstN with
  | false => exact .inl (by rw [hostWrite_in_reset a v hr])
  | true =>
    unfold hostWrite
    rw [if_neg (ne_false_of_eq_true hr)]
    cases e : decodeOffset a with
    | cmd | dlen | data _ => exact .inl (unlessBusy_irq a rfl)
    | modRow y h => exact .inl (unlessBusy_irq a (writeModRow_irq y h v s))
    | status =>
      rw [clearFlags_irq]
      cases hv : v.getLsbD 6 with
      | false => exact .inl (Bool.and_true _)
      | true => exact .inr ⟨Bool.and_false _, aligned_of_decodeOffset_status e, rfl⟩
    | _ => exact .inl rfl

/-- The two events that clear IRQ: a host write of 1 to STATUS bit 6, and the end of a reset. -/
abbrev State.IrqCleared (s : State) : Prop :=
  (∃ a v rest, s.schedule = .write a v :: rest ∧ a &&& 0xFFC = 0x014 ∧ v.getLsbD 6 = true) ∨
    ∃ rest, s.schedule = .rstN true :: rest ∧ s.rstN = false

/-- What a step does to IRQ: the Engine's step sets it, one of those two events clears it, and every other leaves it. -/
theorem step_irq_cases {s t : State} (h : step s = .next t) :
    (t.irq = true ∧ s.EngineMoves) ∨ t.irq = s.irq ∨ t.irq = false ∧ s.IrqCleared := by
  obtain ⟨hmoves, events, hn⟩ | ⟨events, r, n, rfl⟩ | ⟨a, v, rest, hs, rfl⟩ | ⟨level, rest, hs, rfl⟩ := step_effect h
  · obtain ⟨u, hu, hirq, -⟩ := engineStep_completes { s with schedule := events }
    cases hu.symm.trans hn
    exact .inl ⟨hirq, hmoves⟩
  · exact .inr (.inl rfl)
  · obtain hkeep | ⟨hclear, ha, hv⟩ := hostWrite_irq_cases a v { s with schedule := rest }
    · exact .inr (.inl hkeep)
    · exact .inr (.inr ⟨hclear, .inl ⟨a, v, rest, hs, ha, hv⟩⟩)
  · obtain ⟨rfl, hr, e⟩ | ⟨-, e⟩ := driveReset_cases level { s with schedule := rest } <;> rw [e]
    · exact .inr (.inr ⟨rfl, .inr ⟨rest, hs, hr⟩⟩)
    · exact .inr (.inl rfl)

/-- Settles O11, by what a step does to IRQ. -/
theorem everyCommandCompletesOnceAndIrqIsSticky : Obligations.EveryCommandCompletesOnceAndIrqIsSticky := by
  refine ⟨engineStep_completes, fun s t h hs ht => ?_, fun s t h hs ht => ?_⟩
  · obtain ⟨hset, -⟩ | hkeep | ⟨-, hcleared⟩ := step_irq_cases h
    · cases hset.symm.trans ht
    · cases (hkeep.trans hs).symm.trans ht
    · exact hcleared
  · obtain ⟨-, hmoves⟩ | hkeep | ⟨hclear, -⟩ := step_irq_cases h
    · exact hmoves
    · cases (hkeep.trans hs).symm.trans ht
    · cases hclear.symm.trans ht

end Sys2Proof.Machine
end
